-- ==== Sys2Proof/Word.lean ====
section
/-! DEFINITION. The two sizes of datum of the machine (R7, R8): the byte, which is the addressable unit, and
the 16-bit word, which every register and every computed value is. Words are unsigned throughout; `BitVec`'s
`+`, `-` and `*` are the `+16`, `-16` and `*16` of R8, and `<`, `≤` on `BitVec` compare unsigned values. -/

namespace Sys2Proof

/-- A byte: 8 bits, the addressable unit (R7). -/
abbrev Byte := BitVec 8

/-- A word: 16 bits, unsigned (R7, R8): registers, addresses, literals and computed values. -/
abbrev Word := BitVec 16

end Sys2Proof
end

