-- ==== Sys2Proof/Config.lean ====
section
/-! DEFINITION. The names and the implementation parameters of the hardware (R7): the register names (R13), the
48 mnemonics (R62), the devices and regions of an address map (R27, R31, R32), and the record of every
parameter the spec lets a machine take. The parameters are plain data carried by `State.cfg`, so that the model
is the model of EVERY value of every parameter; the spec's defaults stand in Machine/Platform.lean. The spec
leaves no value open once the parameters are fixed, so there is no free value (no opaque constant) here. -/

namespace Sys2Proof

/-- The slots of the Register File, in the order that gives each its register id 0..11 (R13). Under
`RegConfig.reduced` only the first ten exist (R20). -/
inductive Reg where
  | ip | acc | r1 | r2 | r3 | r4 | r5 | r6 | r7 | r8 | sp | fp
  deriving DecidableEq, Repr

/-- The 48 mnemonics of the instruction set (R62), the domain of `OPCODE_MAP`. -/
inductive Mnemonic where
  | movLitReg | movRegReg | movRegMem | movMemReg | movLitMem | movRegPtrReg | movLitOffReg
  | addRegReg | addLitReg | addRegLit | subRegReg | subLitReg | subRegLit
  | mulRegReg | mulLitReg | mulRegLit | incReg | decReg
  | lsfRegLit | lsfRegReg | rsfRegLit | rsfRegReg
  | andRegLit | andRegReg | orRegLit | orRegReg | xorRegLit | xorRegReg | notReg
  | jmpNotEq | jneReg | jeqLit | jeqReg | jltLit | jltReg | jgtLit | jgtReg
  | jleLit | jleReg | jgeLit | jgeReg
  | pshLit | pshReg | pop | calLit | calReg | ret | hlt
  deriving DecidableEq, Repr

/-- Every mnemonic once, family by family. -/
def Mnemonic.all : List Mnemonic := List.flatten [
  [.movLitReg, .movRegReg, .movRegMem, .movMemReg, .movLitMem, .movRegPtrReg, .movLitOffReg],
  [.addRegReg, .addLitReg, .addRegLit, .subRegReg, .subLitReg, .subRegLit],
  [.mulRegReg, .mulLitReg, .mulRegLit, .incReg, .decReg],
  [.lsfRegLit, .lsfRegReg, .rsfRegLit, .rsfRegReg],
  [.andRegLit, .andRegReg, .orRegLit, .orRegReg, .xorRegLit, .xorRegReg, .notReg],
  [.jmpNotEq, .jneReg, .jeqLit, .jeqReg, .jltLit, .jltReg, .jgtLit, .jgtReg],
  [.jleLit, .jleReg, .jgeLit, .jgeReg],
  [.pshLit, .pshReg, .pop, .calLit, .calReg, .ret, .hlt]]

/-- The six stack and subroutine mnemonics, which exist only under `REG_CONFIG = Full` (R20). -/
def Mnemonic.needsStack : Mnemonic → Bool
  | .pshLit | .pshReg | .pop | .calLit | .calReg | .ret => true
  | _ => false

/-- `REG_CONFIG` (R7, D2): the full 12-slot Register File, or the reduced 10-slot one without a stack (R20). -/
inductive RegConfig where
  | full | reduced
  deriving DecidableEq, Repr

/-- `SUB_ORDER` (R77, D6): which operand of a literal-form subtraction is the minuend. -/
inductive SubOrder where
  | mnemonic | lineage
  deriving DecidableEq, Repr

/-- `CMP_ORDER` (R102, D7): the operand order of a branch's comparison. -/
inductive CmpOrder where
  | accFirst | valueFirst
  deriving DecidableEq, Repr

/-- `SHIFT_LIT_WIDTH` (R90, D8): the width of the literal of LSF_REG_LIT and RSF_REG_LIT. -/
inductive ShiftLitWidth where
  | bits8 | bits16
  deriving DecidableEq, Repr

/-- `SHIFT_OVERFLOW` (R89, D9): what a shift by 16 or more does. -/
inductive ShiftOverflow where
  | zero | modWidth | fault
  deriving DecidableEq, Repr

/-- The two device classes (R31, R32): a storage device with its length in bytes, or an output device, whose
logical length is `Config.outLen`. What a storage device holds is `State.mem`. -/
inductive Device where
  | storage (length : Nat)
  | output
  deriving DecidableEq, Repr

/-- One region of the Mapper (R27): inclusive start and end address, remap flag, and the one device it owns. -/
structure Region where
  start  : Word
  last   : Word
  remap  : Bool
  device : Device
  deriving DecidableEq, Repr

/-- The implementation parameters of R7 other than `REGIONS` (which is `State.regions`). -/
structure Config where
  /-- `REG_CONFIG`. -/
  regConfig     : RegConfig
  /-- `OPCODE_MAP`: each mnemonic with its opcode byte. -/
  opcodeMap     : List (Mnemonic × Byte)
  /-- `SUB_ORDER`. -/
  subOrder      : SubOrder
  /-- `CMP_ORDER`. -/
  cmpOrder      : CmpOrder
  /-- `SHIFT_LIT_WIDTH`. -/
  shiftLitWidth : ShiftLitWidth
  /-- `SHIFT_OVERFLOW`. -/
  shiftOverflow : ShiftOverflow
  /-- `STACK_REGION`: the number of the region that bears the stack. -/
  stackRegion   : Nat
  /-- `RESET_IP`. -/
  resetIp       : Word
  /-- `OUT_LEN`: the logical length of an output device, which only `map`'s size check uses (R28, R32). -/
  outLen        : Nat
  deriving DecidableEq, Repr

/-- `OPCODE_MAP` is an injective map of all 48 mnemonics to bytes (R62): every mnemonic has exactly one byte and
no two share one. -/
abbrev Config.wf (cfg : Config) : Prop :=
  (∀ m ∈ Mnemonic.all, m ∈ cfg.opcodeMap.map Prod.fst) ∧
  (cfg.opcodeMap.map Prod.fst).Nodup ∧ (cfg.opcodeMap.map Prod.snd).Nodup

end Sys2Proof
end

