-- ==== Sys2Proof/Machine/Platform.lean ====
section
/-! DEFINITION. The spec's defaults for the parameters (R7): the default `OPCODE_MAP` (R62), the default platform
map (R45), and the value `SP_INIT` that a map gives (R25, conflict C1). The opcode values are the spec's own
defaults, which it marks as not checked against the repository (assumption 2: UNVERIFIED). -/

namespace Sys2Proof

/-- The default `OPCODE_MAP`, the table of R62, family by family. -/
def defaultOpcodeMap : List (Mnemonic × Byte) := List.flatten [
  [(.movLitReg, 0x10), (.movRegReg, 0x11), (.movRegMem, 0x12), (.movMemReg, 0x13), (.movLitMem, 0x1B),
   (.movRegPtrReg, 0x1C), (.movLitOffReg, 0x1D)],
  [(.addRegReg, 0x14), (.addLitReg, 0x3F), (.addRegLit, 0x50), (.subRegReg, 0x1F), (.subLitReg, 0x16),
   (.subRegLit, 0x1E), (.mulRegReg, 0x21), (.mulLitReg, 0x20), (.mulRegLit, 0x51), (.incReg, 0x35),
   (.decReg, 0x36)],
  [(.lsfRegLit, 0x26), (.lsfRegReg, 0x27), (.rsfRegLit, 0x2A), (.rsfRegReg, 0x2B), (.andRegLit, 0x2E),
   (.andRegReg, 0x2F), (.orRegLit, 0x30), (.orRegReg, 0x31), (.xorRegLit, 0x32), (.xorRegReg, 0x33),
   (.notReg, 0x34)],
  [(.jmpNotEq, 0x15), (.jneReg, 0x40), (.jeqLit, 0x41), (.jeqReg, 0x3E), (.jltLit, 0x43), (.jltReg, 0x42),
   (.jgtLit, 0x45), (.jgtReg, 0x44), (.jleLit, 0x47), (.jleReg, 0x46), (.jgeLit, 0x49), (.jgeReg, 0x48)],
  [(.pshLit, 0x17), (.pshReg, 0x18), (.pop, 0x1A), (.calLit, 0x5E), (.calReg, 0x5F), (.ret, 0x60),
   (.hlt, 0xFF)]]

/-- Every parameter at the default of R7. -/
def Config.default : Config where
  regConfig := .full
  opcodeMap := defaultOpcodeMap
  subOrder := .mnemonic
  cmpOrder := .accFirst
  shiftLitWidth := .bits8
  shiftOverflow := .zero
  stackRegion := 2
  resetIp := 0x0000
  outLen := 256

/-- The default platform of R45: program and data storage, a 16 by 16 output grid, data and stack storage. -/
def defaultRegions : List Region :=
  [{ start := 0x0000, last := 0x2FFF, remap := true, device := .storage 0x3000 },
   { start := 0x3000, last := 0x30FF, remap := true, device := .output },
   { start := 0x3100, last := 0xFFFF, remap := true, device := .storage 0xCF00 }]

/-- `SP_INIT` (R7, R25): the highest address of the stack region at which a word fits. Where `STACK_REGION` names
no region of the map, which R146 (c) forbids, it is 0xFFFE (assumption 10: DESIGN CHOICE). -/
def spInit (cfg : Config) (regions : List Region) : Word :=
  match regions[cfg.stackRegion]? with
  | some r => r.last - 1
  | none => 0xFFFE

end Sys2Proof
end

