-- ==== Sys2Proof/Syntax.lean ====
section
/-! DEFINITION. The abstract syntax of the instruction set (R54, R57, R62): one constructor per row of the opcode
table, its operands in encoding order (R56). A register operand is the register that its byte selects (R60);
a literal or an address is a 16-bit word (R55). -/

namespace Sys2Proof

/-- An instruction. The literal of a shift is a word here; WellFormed bounds it where `SHIFT_LIT_WIDTH` is 8. -/
inductive Instr where
  -- Move (R69 to R75)
  | movLitReg (lit : Word) (rd : Reg)
  | movRegReg (ra rd : Reg)
  | movRegMem (ra : Reg) (addr : Word)
  | movMemReg (addr : Word) (rd : Reg)
  | movLitMem (lit addr : Word)
  | movRegPtrReg (ra rd : Reg)
  | movLitOffReg (lit : Word) (ra rd : Reg)
  -- Arithmetic (R78 to R88)
  | addRegReg (ra rb : Reg)
  | addLitReg (lit : Word) (ra : Reg)
  | addRegLit (ra : Reg) (lit : Word)
  | subRegReg (ra rb : Reg)
  | subLitReg (lit : Word) (ra : Reg)
  | subRegLit (ra : Reg) (lit : Word)
  | mulRegReg (ra rb : Reg)
  | mulLitReg (lit : Word) (ra : Reg)
  | mulRegLit (ra : Reg) (lit : Word)
  | incReg (rd : Reg)
  | decReg (rd : Reg)
  -- Bitwise and shift (R91 to R101)
  | lsfRegLit (rd : Reg) (n : Word)
  | lsfRegReg (rd rb : Reg)
  | rsfRegLit (rd : Reg) (n : Word)
  | rsfRegReg (rd rb : Reg)
  | andRegLit (ra : Reg) (lit : Word)
  | andRegReg (ra rb : Reg)
  | orRegLit (ra : Reg) (lit : Word)
  | orRegReg (ra rb : Reg)
  | xorRegLit (ra : Reg) (lit : Word)
  | xorRegReg (ra rb : Reg)
  | notReg (ra : Reg)
  -- Branch (R104 to R115)
  | jmpNotEq (lit addr : Word)
  | jneReg (ra : Reg) (addr : Word)
  | jeqLit (lit addr : Word)
  | jeqReg (ra : Reg) (addr : Word)
  | jltLit (lit addr : Word)
  | jltReg (ra : Reg) (addr : Word)
  | jgtLit (lit addr : Word)
  | jgtReg (ra : Reg) (addr : Word)
  | jleLit (lit addr : Word)
  | jleReg (ra : Reg) (addr : Word)
  | jgeLit (lit addr : Word)
  | jgeReg (ra : Reg) (addr : Word)
  -- Stack (R119 to R121)
  | pshLit (lit : Word)
  | pshReg (ra : Reg)
  | pop (rd : Reg)
  -- Subroutine (R127 to R129)
  | calLit (addr : Word)
  | calReg (ra : Reg)
  | ret
  -- Control (R131)
  | hlt
  deriving DecidableEq, Repr

end Sys2Proof
end

