-- ==== Sys2Proof/WellFormed.lean ====
section
/-! DEFINITION. Which terms of the syntax are instructions of a machine with given parameters: what some byte
sequence can decode to (R20, R55, R60). Three checks: every register operand exists under `REG_CONFIG`, the
instruction itself exists under it, and a shift literal fits its width. -/

namespace Sys2Proof

/-- The slot exists in the Register File: all twelve under `Full`; not `sp` and `fp` under `Reduced` (R13, R20). -/
def Reg.present (rc : RegConfig) : Reg → Bool
  | .sp | .fp => rc == .full
  | _ => true

/-- The register operands of an instruction, in encoding order (R56). -/
def Instr.registers : Instr → List Reg
  | .movLitReg _ rd => [rd]
  | .movRegReg ra rd => [ra, rd]
  | .movRegMem ra _ => [ra]
  | .movMemReg _ rd => [rd]
  | .movLitMem _ _ => []
  | .movRegPtrReg ra rd => [ra, rd]
  | .movLitOffReg _ ra rd => [ra, rd]
  | .addRegReg ra rb | .subRegReg ra rb | .mulRegReg ra rb => [ra, rb]
  | .addLitReg _ ra | .subLitReg _ ra | .mulLitReg _ ra => [ra]
  | .addRegLit ra _ | .subRegLit ra _ | .mulRegLit ra _ => [ra]
  | .incReg rd | .decReg rd => [rd]
  | .lsfRegLit rd _ | .rsfRegLit rd _ => [rd]
  | .lsfRegReg rd rb | .rsfRegReg rd rb => [rd, rb]
  | .andRegLit ra _ | .orRegLit ra _ | .xorRegLit ra _ => [ra]
  | .andRegReg ra rb | .orRegReg ra rb | .xorRegReg ra rb => [ra, rb]
  | .notReg ra => [ra]
  | .jmpNotEq _ _ | .jeqLit _ _ | .jltLit _ _ | .jgtLit _ _ | .jleLit _ _ | .jgeLit _ _ => []
  | .jneReg ra _ | .jeqReg ra _ | .jltReg ra _ | .jgtReg ra _ | .jleReg ra _ | .jgeReg ra _ => [ra]
  | .pshLit _ => []
  | .pshReg ra => [ra]
  | .pop rd => [rd]
  | .calLit _ => []
  | .calReg ra => [ra]
  | .ret => []
  | .hlt => []

/-- Check 1: every register operand is a slot of the Register File (R20, R60). -/
def Instr.registersPresent (cfg : Config) (i : Instr) : Bool :=
  i.registers.all (Reg.present cfg.regConfig)

/-- The instructions that exist only with a stack (R20). -/
def Instr.needsStack : Instr → Bool
  | .pshLit _ | .pshReg _ | .pop _ | .calLit _ | .calReg _ | .ret => true
  | _ => false

/-- Check 2: the instruction has an opcode under `REG_CONFIG` (R20). -/
def Instr.supported (cfg : Config) (i : Instr) : Bool :=
  !i.needsStack || cfg.regConfig == .full

/-- Check 3: an 8-bit shift literal is below 256 (R55, R90). -/
def Instr.literalFits (cfg : Config) : Instr → Bool
  | .lsfRegLit _ n | .rsfRegLit _ n => cfg.shiftLitWidth == .bits16 || decide (n.toNat < 256)
  | _ => true

/-- The instruction is one that a machine with these parameters can fetch. -/
def Instr.wf (cfg : Config) (i : Instr) : Bool :=
  i.registersPresent cfg && i.supported cfg && i.literalFits cfg

end Sys2Proof
end

