-- ==== Sys2Proof/Decode.lean ====
section
/-! DEFINITION. The instruction encoding: byte order (R38), the operand kinds (R55), the layout of every format
(R57), register selection (R60), the opcode map (R62, R63), the decoder, and after it the encoder, written from
the same tables. The machine's fetch (Machine/Fetch.lean) collects the bytes and reads them with `decodeFields`. -/

namespace Sys2Proof

/-! ## Byte order -/

/-- `hi : lo`, the big-endian word of two bytes (R8, R38). -/
def joinBytes (hi lo : Byte) : Word := hi ++ lo

/-- `v[15:8]`, the byte stored at the lower address (R34). -/
def hiByte (v : Word) : Byte := v.extractLsb' 8 8

/-- `v[7:0]`, the byte stored at the higher address (R34). -/
def loByte (v : Word) : Byte := v.extractLsb' 0 8

/-! ## Registers -/

/-- `REG_COUNT`: 12 slots under `Full`, 10 under `Reduced` (R7, R20). -/
def Config.regCount (cfg : Config) : Nat :=
  match cfg.regConfig with
  | .full => 12
  | .reduced => 10

/-- The register with an id, the slot's position in the Register File (R13). -/
def regOfId : Nat → Reg
  | 0 => .ip
  | 1 => .acc
  | 2 => .r1
  | 3 => .r2
  | 4 => .r3
  | 5 => .r4
  | 6 => .r5
  | 7 => .r6
  | 8 => .r7
  | 9 => .r8
  | 10 => .sp
  | _ => .fp

/-- The id of a register (R13), which is also its canonical operand byte (R60). -/
def Reg.id : Reg → Nat
  | .ip => 0
  | .acc => 1
  | .r1 => 2
  | .r2 => 3
  | .r3 => 4
  | .r4 => 5
  | .r5 => 6
  | .r6 => 7
  | .r7 => 8
  | .r8 => 9
  | .sp => 10
  | .fp => 11

/-- The register that an operand byte selects: the id is the byte modulo `REG_COUNT`, and no byte faults (R60). -/
def regOfByte (cfg : Config) (b : Byte) : Reg := regOfId (b.toNat % cfg.regCount)

/-! ## Opcodes -/

/-- The mnemonic has an opcode under this `REG_CONFIG` (R20). -/
def Config.supports (cfg : Config) (m : Mnemonic) : Bool :=
  !m.needsStack || cfg.regConfig == .full

/-- The instruction an opcode byte selects; none for an unassigned byte (R62, R63, R20). -/
def Config.mnemonicOf (cfg : Config) (op : Byte) : Option Mnemonic :=
  (cfg.opcodeMap.find? fun e => e.2 == op && cfg.supports e.1).map Prod.fst

/-- The opcode byte of a mnemonic (R62). Every mnemonic has one in a map that is `Config.wf`. -/
def Config.opcodeByte (cfg : Config) (m : Mnemonic) : Byte :=
  ((cfg.opcodeMap.find? fun e => e.1 == m).map Prod.snd).getD 0

/-! ## Formats -/

/-- The operand kinds, as the fetch sees them (R55): a register byte, an 8-bit literal, a 16-bit literal or
address. -/
inductive OperandKind where
  | reg | lit8 | lit16
  deriving DecidableEq, Repr

/-- How many instruction bytes an operand takes (R55). -/
def OperandKind.size : OperandKind → Nat
  | .reg => 1
  | .lit8 => 1
  | .lit16 => 2

/-- The operands of each instruction, in encoding order: the format table (R57, R62). -/
def Mnemonic.kinds (cfg : Config) : Mnemonic → List OperandKind
  -- F0
  | .ret | .hlt => []
  -- FR
  | .incReg | .decReg | .notReg | .pshReg | .pop | .calReg => [.reg]
  -- FL
  | .pshLit | .calLit => [.lit16]
  -- FRR
  | .movRegReg | .movRegPtrReg | .addRegReg | .subRegReg | .mulRegReg
  | .lsfRegReg | .rsfRegReg | .andRegReg | .orRegReg | .xorRegReg => [.reg, .reg]
  -- FRL8, or FRL where SHIFT_LIT_WIDTH = 16
  | .lsfRegLit | .rsfRegLit =>
    match cfg.shiftLitWidth with
    | .bits8 => [.reg, .lit8]
    | .bits16 => [.reg, .lit16]
  -- FLR and FAR
  | .movLitReg | .addLitReg | .subLitReg | .mulLitReg | .movMemReg => [.lit16, .reg]
  -- FRL and FRA
  | .addRegLit | .subRegLit | .mulRegLit | .andRegLit | .orRegLit | .xorRegLit | .movRegMem
  | .jneReg | .jeqReg | .jltReg | .jgtReg | .jleReg | .jgeReg => [.reg, .lit16]
  -- FLA
  | .movLitMem | .jmpNotEq | .jeqLit | .jltLit | .jgtLit | .jleLit | .jgeLit => [.lit16, .lit16]
  -- FLRR
  | .movLitOffReg => [.lit16, .reg, .reg]

/-- The number of operand bytes of an instruction, 0 to 4 (R54). -/
def Mnemonic.operandSize (cfg : Config) (m : Mnemonic) : Nat :=
  ((m.kinds cfg).map OperandKind.size).sum

/-- The length of an instruction in bytes, 1 to 5, told by its opcode alone (R54). -/
def Mnemonic.length (cfg : Config) (m : Mnemonic) : Nat := 1 + m.operandSize cfg

/-- The literal of a shift: one byte zero-extended, or a word (R55, R90). -/
def shiftLiteral (cfg : Config) (b2 b3 : Byte) : Word :=
  match cfg.shiftLitWidth with
  | .bits8 => b2.setWidth 16
  | .bits16 => joinBytes b2 b3

/-- The instruction that an opcode and its operand bytes stand for, every field read from the byte that R57 puts
it in: byte 1 of the instruction is the first operand byte. A byte past the instruction's length is not read. -/
def decodeFields (cfg : Config) (m : Mnemonic) (operandBytes : List Byte) : Instr :=
  let b1 := operandBytes.getD 0 0
  let b2 := operandBytes.getD 1 0
  let b3 := operandBytes.getD 2 0
  let b4 := operandBytes.getD 3 0
  let reg := regOfByte cfg
  match m with
  | .movLitReg => .movLitReg (joinBytes b1 b2) (reg b3)
  | .movRegReg => .movRegReg (reg b1) (reg b2)
  | .movRegMem => .movRegMem (reg b1) (joinBytes b2 b3)
  | .movMemReg => .movMemReg (joinBytes b1 b2) (reg b3)
  | .movLitMem => .movLitMem (joinBytes b1 b2) (joinBytes b3 b4)
  | .movRegPtrReg => .movRegPtrReg (reg b1) (reg b2)
  | .movLitOffReg => .movLitOffReg (joinBytes b1 b2) (reg b3) (reg b4)
  | .addRegReg => .addRegReg (reg b1) (reg b2)
  | .addLitReg => .addLitReg (joinBytes b1 b2) (reg b3)
  | .addRegLit => .addRegLit (reg b1) (joinBytes b2 b3)
  | .subRegReg => .subRegReg (reg b1) (reg b2)
  | .subLitReg => .subLitReg (joinBytes b1 b2) (reg b3)
  | .subRegLit => .subRegLit (reg b1) (joinBytes b2 b3)
  | .mulRegReg => .mulRegReg (reg b1) (reg b2)
  | .mulLitReg => .mulLitReg (joinBytes b1 b2) (reg b3)
  | .mulRegLit => .mulRegLit (reg b1) (joinBytes b2 b3)
  | .incReg => .incReg (reg b1)
  | .decReg => .decReg (reg b1)
  | .lsfRegLit => .lsfRegLit (reg b1) (shiftLiteral cfg b2 b3)
  | .lsfRegReg => .lsfRegReg (reg b1) (reg b2)
  | .rsfRegLit => .rsfRegLit (reg b1) (shiftLiteral cfg b2 b3)
  | .rsfRegReg => .rsfRegReg (reg b1) (reg b2)
  | .andRegLit => .andRegLit (reg b1) (joinBytes b2 b3)
  | .andRegReg => .andRegReg (reg b1) (reg b2)
  | .orRegLit => .orRegLit (reg b1) (joinBytes b2 b3)
  | .orRegReg => .orRegReg (reg b1) (reg b2)
  | .xorRegLit => .xorRegLit (reg b1) (joinBytes b2 b3)
  | .xorRegReg => .xorRegReg (reg b1) (reg b2)
  | .notReg => .notReg (reg b1)
  | .jmpNotEq => .jmpNotEq (joinBytes b1 b2) (joinBytes b3 b4)
  | .jneReg => .jneReg (reg b1) (joinBytes b2 b3)
  | .jeqLit => .jeqLit (joinBytes b1 b2) (joinBytes b3 b4)
  | .jeqReg => .jeqReg (reg b1) (joinBytes b2 b3)
  | .jltLit => .jltLit (joinBytes b1 b2) (joinBytes b3 b4)
  | .jltReg => .jltReg (reg b1) (joinBytes b2 b3)
  | .jgtLit => .jgtLit (joinBytes b1 b2) (joinBytes b3 b4)
  | .jgtReg => .jgtReg (reg b1) (joinBytes b2 b3)
  | .jleLit => .jleLit (joinBytes b1 b2) (joinBytes b3 b4)
  | .jleReg => .jleReg (reg b1) (joinBytes b2 b3)
  | .jgeLit => .jgeLit (joinBytes b1 b2) (joinBytes b3 b4)
  | .jgeReg => .jgeReg (reg b1) (joinBytes b2 b3)
  | .pshLit => .pshLit (joinBytes b1 b2)
  | .pshReg => .pshReg (reg b1)
  | .pop => .pop (reg b1)
  | .calLit => .calLit (joinBytes b1 b2)
  | .calReg => .calReg (reg b1)
  | .ret => .ret
  | .hlt => .hlt

/-! ## The decoder -/

/-- Why a byte sequence is no instruction: there is no opcode byte, the opcode is unassigned (R63), or operand
bytes are missing. The machine itself meets only the second: a fetch never runs out of bytes. -/
inductive DecodeError where
  | noOpcode
  | unknownOpcode (op : Byte)
  | truncated (m : Mnemonic)
  deriving DecidableEq, Repr

/-- Decode the instruction at the front of a byte sequence, with the bytes that follow it (R54, R57). -/
def decode (cfg : Config) : List Byte → Except DecodeError (Instr × List Byte)
  | [] => .error .noOpcode
  | op :: rest =>
    match cfg.mnemonicOf op with
    | none => .error (.unknownOpcode op)
    | some m =>
      if rest.length < m.operandSize cfg then .error (.truncated m)
      else .ok (decodeFields cfg m (rest.take (m.operandSize cfg)), rest.drop (m.operandSize cfg))

/-- The five bytes, lowest address first, of an instruction whose bits are the low `nbits` of `w`, bit 0 being the
least significant bit of the first byte; every byte above is zero. -/
def tableBytes (nbits w : Nat) : List Byte :=
  [0, 1, 2, 3, 4].map fun j => BitVec.ofNat 8 ((w % 2 ^ nbits) / 256 ^ j)

/-- What the decoder reads, at the default parameters, from an instruction numbered as the opcode table numbers
its bits. -/
def decodeTableWord (nbits w : Nat) : Option Instr :=
  match decode Config.default (tableBytes nbits w) with
  | .ok (i, _) => some i
  | .error _ => none

/-! ## The encoder -/

/-- The mnemonic of an instruction. -/
def Instr.mnemonic : Instr → Mnemonic
  | .movLitReg _ _ => .movLitReg
  | .movRegReg _ _ => .movRegReg
  | .movRegMem _ _ => .movRegMem
  | .movMemReg _ _ => .movMemReg
  | .movLitMem _ _ => .movLitMem
  | .movRegPtrReg _ _ => .movRegPtrReg
  | .movLitOffReg _ _ _ => .movLitOffReg
  | .addRegReg _ _ => .addRegReg
  | .addLitReg _ _ => .addLitReg
  | .addRegLit _ _ => .addRegLit
  | .subRegReg _ _ => .subRegReg
  | .subLitReg _ _ => .subLitReg
  | .subRegLit _ _ => .subRegLit
  | .mulRegReg _ _ => .mulRegReg
  | .mulLitReg _ _ => .mulLitReg
  | .mulRegLit _ _ => .mulRegLit
  | .incReg _ => .incReg
  | .decReg _ => .decReg
  | .lsfRegLit _ _ => .lsfRegLit
  | .lsfRegReg _ _ => .lsfRegReg
  | .rsfRegLit _ _ => .rsfRegLit
  | .rsfRegReg _ _ => .rsfRegReg
  | .andRegLit _ _ => .andRegLit
  | .andRegReg _ _ => .andRegReg
  | .orRegLit _ _ => .orRegLit
  | .orRegReg _ _ => .orRegReg
  | .xorRegLit _ _ => .xorRegLit
  | .xorRegReg _ _ => .xorRegReg
  | .notReg _ => .notReg
  | .jmpNotEq _ _ => .jmpNotEq
  | .jneReg _ _ => .jneReg
  | .jeqLit _ _ => .jeqLit
  | .jeqReg _ _ => .jeqReg
  | .jltLit _ _ => .jltLit
  | .jltReg _ _ => .jltReg
  | .jgtLit _ _ => .jgtLit
  | .jgtReg _ _ => .jgtReg
  | .jleLit _ _ => .jleLit
  | .jleReg _ _ => .jleReg
  | .jgeLit _ _ => .jgeLit
  | .jgeReg _ _ => .jgeReg
  | .pshLit _ => .pshLit
  | .pshReg _ => .pshReg
  | .pop _ => .pop
  | .calLit _ => .calLit
  | .calReg _ => .calReg
  | .ret => .ret
  | .hlt => .hlt

/-- The canonical operand byte of a register: its id (R60). -/
def regByte (r : Reg) : Byte := BitVec.ofNat 8 r.id

/-- The two bytes of a 16-bit operand, most significant first (R55). -/
def wordBytes (v : Word) : List Byte := [hiByte v, loByte v]

/-- The bytes of a shift literal (R90). -/
def shiftLiteralBytes (cfg : Config) (n : Word) : List Byte :=
  match cfg.shiftLitWidth with
  | .bits8 => [loByte n]
  | .bits16 => wordBytes n

/-- The operand bytes of an instruction, in encoding order (R56, R57). -/
def Instr.operandBytes (cfg : Config) : Instr → List Byte
  | .ret | .hlt => []
  | .incReg r | .decReg r | .notReg r | .pshReg r | .pop r | .calReg r => [regByte r]
  | .pshLit v | .calLit v => wordBytes v
  | .movRegReg a b | .movRegPtrReg a b | .addRegReg a b | .subRegReg a b | .mulRegReg a b
  | .lsfRegReg a b | .rsfRegReg a b | .andRegReg a b | .orRegReg a b | .xorRegReg a b =>
    [regByte a, regByte b]
  | .lsfRegLit r n | .rsfRegLit r n => regByte r :: shiftLiteralBytes cfg n
  | .movLitReg v r | .addLitReg v r | .subLitReg v r | .mulLitReg v r | .movMemReg v r =>
    wordBytes v ++ [regByte r]
  | .addRegLit r v | .subRegLit r v | .mulRegLit r v | .andRegLit r v | .orRegLit r v | .xorRegLit r v
  | .movRegMem r v | .jneReg r v | .jeqReg r v | .jltReg r v | .jgtReg r v | .jleReg r v | .jgeReg r v =>
    regByte r :: wordBytes v
  | .movLitMem v a | .jmpNotEq v a | .jeqLit v a | .jltLit v a | .jgtLit v a | .jleLit v a | .jgeLit v a =>
    wordBytes v ++ wordBytes a
  | .movLitOffReg v a d => wordBytes v ++ [regByte a, regByte d]

/-- The bytes of an instruction, with the canonical byte of every register (R56, R57, R60, R62). -/
def encode (cfg : Config) (i : Instr) : List Byte :=
  cfg.opcodeByte i.mnemonic :: i.operandBytes cfg

end Sys2Proof
end

