-- ==== Sys2Proof/Machine/State.lean ====
section
/-! DEFINITION. The state of one machine instance (R12), as plain data: the Register File, the frame-size counter,
the run status, the Mapper's region list, the contents of every storage device and the output-event log, beside
the parameters the machine was built with (R7). Also the reasons a step can stop, and the machine after reset. -/

namespace Sys2Proof.Machine

/-- The run-time faults (R133), which the Engine raises and `takeFault` enters (R136). The machine's own step answers
`.fault` with one of them only in the steps AFTER the one that raised it (R137), so that nothing of the state reached
at the raise is lost; that is the spec's own terminal state, so stopping there is safe. -/
inductive Fault where
  /-- Code 1, raised by the opcode decode of a step: the byte has no row in `OPCODE_MAP` (R63). Safe: R63 names it. -/
  | unknownOpcode (op : Byte)
  /-- Code 2, raised by any fetch, read or write (and by `view`): no region contains the address (R29). Safe: R29. -/
  | addressOutOfBounds (a : Word)
  /-- Code 3, raised by a word access whose second byte lies past the end of its region (R34). Safe: the spec's own
  choice D12 for what the source leaves undefined. -/
  | wordStraddle (a : Word)
  /-- Code 4, raised by an access whose device index is not below the storage device's length (R33, R34). Safe: the
  spec's own choice D13. -/
  | deviceIndexOutOfRange (a : Word)
  /-- Code 5, raised by the host's `get_register` alone (R61, R150); no instruction raises it. Safe: R150. -/
  | unknownRegister (name : String)
  /-- Code 6, raised by the four shifts under `SHIFT_OVERFLOW = Fault` for an amount of 16 or more (R89). Safe: R89. -/
  | shiftOutOfRange (n : Word)
  deriving DecidableEq, Repr

/-- The machine refuses nothing: every instruction of the table has its meaning. The one constructor is the
interface's name for an arm of `exec` without a meaning; no arm answers with it, and it would be safe. -/
inductive Refusal where
  /-- An instruction that has no meaning yet, by its mnemonic; raised by nothing. Safe. -/
  | notModelled (mnemonic : String)
  deriving DecidableEq, Repr

/-- The run status (R24). -/
inductive Status where
  | running
  | halted
  | faulted (f : Fault)
  deriving DecidableEq, Repr

/-- The Register File (R13): twelve 16-bit slots in id order. Under `REG_CONFIG = Reduced` the machine has no `sp`
and `fp` (R20); the two fields then hold 0 and nothing reads or writes them (assumption 9). -/
structure RegisterFile where
  ip  : Word
  acc : Word
  r1  : Word
  r2  : Word
  r3  : Word
  r4  : Word
  r5  : Word
  r6  : Word
  r7  : Word
  r8  : Word
  sp  : Word
  fp  : Word
  deriving DecidableEq, Repr

/-- An output event `Out(k, i, b)`: byte `b` written at device index `i` of output region `k` (R32). -/
structure OutEvent where
  region : Nat
  index  : Nat
  byte   : Byte
  deriving DecidableEq, Repr

/-- What the storage devices hold: cells of device bytes in rising order of cell number, none equal to what an
unlisted cell reads as. The cell number of byte `i` of region `k`'s device is `Machine.cellNumber k i` (Ops.lean). -/
abbrev Memory := List Host.Cell

/-- The state of a machine instance (R12). -/
structure State where
  /-- The implementation parameters (R7), fixed at construction. -/
  cfg     : Config
  /-- `REGIONS`: the Mapper's region list in mapping order, fixed after setup (R27, R28). -/
  regions : List Region
  /-- The Register File (R13). -/
  regs    : RegisterFile
  /-- The frame-size counter (R23). -/
  fs      : Word
  /-- The run status (R24). -/
  status  : Status
  /-- Whether the first step has been made, which ends the time in which the host may load (R53, R148, D28). The model's
  own mark (assumption 19): no instruction reads or writes it. -/
  started : Bool
  /-- The contents of every storage device (R31). -/
  mem     : Memory
  /-- The output-event log, oldest event first (R32). -/
  out     : List OutEvent
  deriving DecidableEq, Repr

/-- The machine right after construction with the given parameters and regions (R25, R145), nothing loaded. -/
def State.construct (cfg : Config) (regions : List Region) : State where
  cfg := cfg
  regions := regions
  regs :=
    { ip := cfg.resetIp, acc := 0, r1 := 0, r2 := 0, r3 := 0, r4 := 0, r5 := 0, r6 := 0, r7 := 0, r8 := 0,
      sp := match cfg.regConfig with
        | .full => spInit cfg regions
        | .reduced => 0,
      fp := match cfg.regConfig with
        | .full => spInit cfg regions
        | .reduced => 0 }
  fs := 0
  status := .running
  started := false
  mem := []
  out := []

/-- The machine right after reset: constructed with the spec's default parameters and platform (R7, R25, R45). -/
def State.reset : State := State.construct Config.default defaultRegions

end Sys2Proof.Machine
end

