-- ==== Sys2Proof/Machine/Ops.lean ====
section
/-! DEFINITION. The named operations over the state: registers (R14), storage cells (R31), the Mapper's byte and
word accesses (R29 to R37), taking a fault (R136), and the sequencing of operations that may raise one. -/

namespace Sys2Proof.Machine

/-! ## Registers -/

/-- The value of a slot. -/
def RegisterFile.get (rf : RegisterFile) : Reg → Word
  | .ip => rf.ip
  | .acc => rf.acc
  | .r1 => rf.r1
  | .r2 => rf.r2
  | .r3 => rf.r3
  | .r4 => rf.r4
  | .r5 => rf.r5
  | .r6 => rf.r6
  | .r7 => rf.r7
  | .r8 => rf.r8
  | .sp => rf.sp
  | .fp => rf.fp

/-- The Register File with one slot written. -/
def RegisterFile.set (rf : RegisterFile) (r : Reg) (v : Word) : RegisterFile :=
  match r with
  | .ip => { rf with ip := v }
  | .acc => { rf with acc := v }
  | .r1 => { rf with r1 := v }
  | .r2 => { rf with r2 := v }
  | .r3 => { rf with r3 := v }
  | .r4 => { rf with r4 := v }
  | .r5 => { rf with r5 := v }
  | .r6 => { rf with r6 := v }
  | .r7 => { rf with r7 := v }
  | .r8 => { rf with r8 := v }
  | .sp => { rf with sp := v }
  | .fp => { rf with fp := v }

/-- `x[r]` (R9). -/
def State.getReg (s : State) (r : Reg) : Word := s.regs.get r

/-- `x[r] <- v` (R9). No slot is hardwired and none has a side effect (R13, R22). -/
def State.setReg (s : State) (r : Reg) (v : Word) : State := { s with regs := s.regs.set r v }

/-- `fs <- v` (R23). -/
def State.setFs (s : State) (v : Word) : State := { s with fs := v }

/-- `status <- st` (R24). -/
def State.setStatus (s : State) (st : Status) : State := { s with status := st }

/-- A step is made, of a machine that runs or one that has stopped: from now on the host may no longer load (R148,
D28). -/
def State.start (s : State) : State := { s with started := true }

/-! ## Taking a fault -/

/-- The fault entry (R136): `status <- Faulted(f)` and nothing else. Nothing is saved, no register changes, there is
no vector and no handler. There is no return beside it: `Faulted` is terminal and RET is no trap return (R137). -/
def State.takeFault (f : Fault) (s : State) : State := s.setStatus (.faulted f)

/-! ## Sequencing -/

/-- What an operation that may raise a fault answers: a value with the state after it, or the fault with the state
reached at the raise, which the fault entry keeps (R136). -/
inductive Result (α : Type) where
  | ok (value : α) (s : State)
  | raised (f : Fault) (s : State)
  deriving Repr

/-- `r; k`: go on with `k`, or stop at the first raise (R9, R135). -/
def Result.andThen {α β : Type} (r : Result α) (k : α → State → Result β) : Result β :=
  match r with
  | .ok a s => k a s
  | .raised f s => .raised f s

/-- The end of an instruction: the state its rule reached, or the fault entry at the raise (R136). -/
def Result.finish (r : Result Unit) : Host.Outcome State Fault Refusal :=
  match r with
  | .ok _ s => .next s
  | .raised f s => .next (s.takeFault f)

/-! ## Storage cells -/

/-- What a byte of a storage device reads as before anything wrote it: zero (R25, R31). -/
def Memory.unlisted : Byte := 0x00

/-- The number of the cell that holds byte `i` of region `k`'s device: each region owns a device of its own (R27),
and a device index is below 0x10000 because it never exceeds the address (R30). -/
def cellNumber (k i : Nat) : Nat := k * 0x10000 + i

/-- The byte a cell holds. -/
def Memory.read : Memory → Nat → Byte
  | [], _ => Memory.unlisted
  | (n, b) :: m, c => if n = c then b else Memory.read m c

/-- The memory with one cell written, in canonical form again. -/
def Memory.write : Memory → Nat → Byte → Memory
  | [], c, v => if v = Memory.unlisted then [] else [(c, v)]
  | (n, b) :: m, c, v =>
    if c < n then
      if v = Memory.unlisted then (n, b) :: m else (c, v) :: (n, b) :: m
    else if c = n then
      if v = Memory.unlisted then m else (c, v) :: m
    else (n, b) :: Memory.write m c v

/-- The canonical form: cell numbers strictly rise, and no listed byte is what an unlisted cell reads as. -/
abbrev Memory.wf (m : Memory) : Prop :=
  m.Pairwise (fun x y => x.1 < y.1) ∧ ∀ x ∈ m, x.2 ≠ Memory.unlisted

/-! ## The Mapper -/

/-- The address lies in the region's inclusive range (R27). -/
def regionHolds (r : Region) (a : Word) : Bool := decide (r.start ≤ a) && decide (a ≤ r.last)

/-- The device index of an address in a region: remapped to the region's start, or unchanged (R30). -/
def deviceIndex (r : Region) (a : Word) : Nat :=
  if r.remap then a.toNat - r.start.toNat else a.toNat

/-- The first region, in mapping order, that contains the address, with its number; regions count from `k`. -/
def lookupFrom (k : Nat) : List Region → Word → Option (Nat × Region)
  | [], _ => none
  | r :: rs, a => if regionHolds r a then some (k, r) else lookupFrom (k + 1) rs a

/-- `lookup(a)` (R29). -/
def State.lookup (s : State) (a : Word) : Option (Nat × Region) := lookupFrom 0 s.regions a

/-- Where a byte of an access goes once the Mapper has routed and checked it: a storage cell, or a device index of an
output region. -/
inductive Target where
  | cell (n : Nat)
  | output (k i : Nat)
  deriving DecidableEq, Repr

/-- The target of the byte after, in the same device. -/
def Target.succ : Target → Target
  | .cell n => .cell (n + 1)
  | .output k i => .output k (i + 1)

/-- The routing and the checks of a byte access, in the order of R135 (R33). -/
def State.byteTarget (s : State) (a : Word) : Except Fault Target :=
  match s.lookup a with
  | none => .error (.addressOutOfBounds a)
  | some (k, r) =>
    match r.device with
    | .output => .ok (.output k (deviceIndex r a))
    | .storage len =>
      if len ≤ deviceIndex r a then .error (.deviceIndexOutOfRange a)
      else .ok (.cell (cellNumber k (deviceIndex r a)))

/-- The routing and the checks of a word access, in the order of R135, with the target of its first byte; the second
byte is in the same region's device (R34). `a + 1` is computed without wrap. -/
def State.wordTarget (s : State) (a : Word) : Except Fault Target :=
  match s.lookup a with
  | none => .error (.addressOutOfBounds a)
  | some (k, r) =>
    if r.last.toNat < a.toNat + 1 then .error (.wordStraddle a)
    else
      match r.device with
      | .output => .ok (.output k (deviceIndex r a))
      | .storage len =>
        if len ≤ deviceIndex r a + 1 then .error (.deviceIndexOutOfRange a)
        else .ok (.cell (cellNumber k (deviceIndex r a)))

/-- What a routed byte reads: the cell, or 0x00 from an output device, without side effect (R31, R32, R43). -/
def State.readTarget (s : State) : Target → Byte
  | .cell n => Memory.read s.mem n
  | .output _ _ => 0x00

/-- What a routed write does: store the byte in the cell, or append the output event to the log (R31, R32). -/
def State.writeTarget (s : State) (t : Target) (b : Byte) : State :=
  match t with
  | .cell n => { s with mem := Memory.write s.mem n b }
  | .output k i => { s with out := s.out ++ [⟨k, i, b⟩] }

/-- `ByteRead(a)` (R33), the source's `get_byte`. -/
def State.byteRead (s : State) (a : Word) : Except Fault Byte :=
  match s.byteTarget a with
  | .error f => .error f
  | .ok t => .ok (s.readTarget t)

/-- `ByteWrite(a, b)` (R33), the source's `set_byte`; only the host's loader uses it (R36). -/
def State.byteWrite (s : State) (a : Word) (b : Byte) : Except Fault State :=
  match s.byteTarget a with
  | .error f => .error f
  | .ok t => .ok (s.writeTarget t b)

/-- `WordRead(a)` (R34): the byte at `a` is the most significant. -/
def State.wordRead (s : State) (a : Word) : Except Fault Word :=
  match s.wordTarget a with
  | .error f => .error f
  | .ok t => .ok (joinBytes (s.readTarget t) (s.readTarget t.succ))

/-- `WordWrite(a, v)` (R34): both checks come before either byte, and the high byte is written first (D17). -/
def State.wordWrite (s : State) (a v : Word) : Except Fault State :=
  match s.wordTarget a with
  | .error f => .error f
  | .ok t => .ok ((s.writeTarget t (hiByte v)).writeTarget t.succ (loByte v))

/-! ## The Engine's data accesses -/

/-- `MemRead(a, 2)` as an operation of the Engine (R35): a read changes nothing, and a fault leaves the state as it
was. -/
def readWord (a : Word) (s : State) : Result Word :=
  match s.wordRead a with
  | .error f => .raised f s
  | .ok w => .ok w s

/-- `MemWrite(a, 2, v)` as an operation of the Engine (R36): a faulting write has no partial effect (R34). -/
def writeWord (a v : Word) (s : State) : Result Unit :=
  match s.wordWrite a v with
  | .error f => .raised f s
  | .ok s' => .ok () s'

end Sys2Proof.Machine
end

