-- ==== Sys2Proof/Machine/Alu.lean ====
section
/-! DEFINITION. The computations of the arithmetic and bitwise families: the order of a literal subtraction (R77)
and the shifts with every value of `SHIFT_OVERFLOW` (R89). Addition, subtraction and multiplication modulo 65536
(R76) and the logical operations are `BitVec`'s own. -/

namespace Sys2Proof.Machine

/-- `SUB_LIT_REG`'s result: the minuend is the literal under `Mnemonic`, the register under `Lineage` (R77). -/
def subLiteralRegister (order : SubOrder) (lit x : Word) : Word :=
  match order with
  | .mnemonic => lit - x
  | .lineage => x - lit

/-- `SUB_REG_LIT`'s result: the minuend is the register under `Mnemonic`, the literal under `Lineage` (R77). -/
def subRegisterLiteral (order : SubOrder) (x lit : Word) : Word :=
  match order with
  | .mnemonic => x - lit
  | .lineage => lit - x

/-- The two directions of a shift, both logical (R89). -/
inductive ShiftDir where
  | left | right
  deriving DecidableEq, Repr

/-- A shift by an amount below 16: `(v * 2^n) mod 65536` to the left, `floor(v / 2^n)` to the right (R89). -/
def shiftWithin (dir : ShiftDir) (v : Word) (n : Nat) : Word :=
  match dir with
  | .left => BitVec.ofNat 16 (v.toNat * 2 ^ n)
  | .right => BitVec.ofNat 16 (v.toNat / 2 ^ n)

/-- A shift by any amount: an amount of 16 or more gives zero, the amount modulo 16, or a fault, as
`SHIFT_OVERFLOW` says (R89). -/
def shiftWord (overflow : ShiftOverflow) (dir : ShiftDir) (v n : Word) : Except Fault Word :=
  if n.toNat < 16 then .ok (shiftWithin dir v n.toNat)
  else
    match overflow with
    | .zero => .ok 0
    | .modWidth => .ok (shiftWithin dir v (n.toNat % 16))
    | .fault => .error (.shiftOutOfRange n)

/-- Shift a register in place; a fault is raised before the destination is written (R89, R91 to R94). -/
def shiftReg (dir : ShiftDir) (rd : Reg) (n : Word) (s : State) : Result Unit :=
  match shiftWord s.cfg.shiftOverflow dir (s.getReg rd) n with
  | .error f => .raised f s
  | .ok v => .ok () (s.setReg rd v)

end Sys2Proof.Machine
end

