-- ==== Sys2Proof/Machine/Operands.lean ====
section
/-! DEFINITION. The operand forms of the Move family: absolute, register indirect and indexed addresses, and the
two transfers between a register and memory that its instructions make (40_move.md, R41). No form modifies a
register and none has a byte width. -/

namespace Sys2Proof.Machine

/-- The indexed address `lit +16 x[ra]`, which wraps modulo 65536 (R75, D11). -/
def indexedAddress (lit : Word) (ra : Reg) (s : State) : Word := lit + s.getReg ra

/-- Load: `x[rd] <- MemRead(a, 2)`. -/
def loadWord (a : Word) (rd : Reg) (s : State) : Result Unit :=
  (readWord a s).andThen fun w s => .ok () (s.setReg rd w)

/-- Write a result to the accumulator, the destination of add, sub, mul, and, or, xor and not (R15). -/
def State.setAcc (s : State) (v : Word) : State := s.setReg .acc v

end Sys2Proof.Machine
end

