-- ==== Sys2Proof/Machine/Arithmetic.lean ====
section
/-! DEFINITION. The meanings of the Arithmetic family (41_arithmetic.md, R78 to R88): add, sub and mul into `acc`,
inc and dec in place, all modulo 65536 with nothing recorded beside the result (R76). -/

namespace Sys2Proof.Machine

/-- ADD_REG_REG (R78). -/
def execAddRegReg (ra rb : Reg) (s : State) : Host.Outcome State Fault Refusal :=
  .next (s.setAcc (s.getReg ra + s.getReg rb))

/-- ADD_LIT_REG (R79). -/
def execAddLitReg (lit : Word) (ra : Reg) (s : State) : Host.Outcome State Fault Refusal :=
  .next (s.setAcc (lit + s.getReg ra))

/-- ADD_REG_LIT (R80). -/
def execAddRegLit (ra : Reg) (lit : Word) (s : State) : Host.Outcome State Fault Refusal :=
  .next (s.setAcc (s.getReg ra + lit))

/-- SUB_REG_REG (R81), the same under both values of `SUB_ORDER` (R77). -/
def execSubRegReg (ra rb : Reg) (s : State) : Host.Outcome State Fault Refusal :=
  .next (s.setAcc (s.getReg ra - s.getReg rb))

/-- SUB_LIT_REG (R82). -/
def execSubLitReg (lit : Word) (ra : Reg) (s : State) : Host.Outcome State Fault Refusal :=
  .next (s.setAcc (subLiteralRegister s.cfg.subOrder lit (s.getReg ra)))

/-- SUB_REG_LIT (R83). -/
def execSubRegLit (ra : Reg) (lit : Word) (s : State) : Host.Outcome State Fault Refusal :=
  .next (s.setAcc (subRegisterLiteral s.cfg.subOrder (s.getReg ra) lit))

/-- MUL_REG_REG (R84), the low 16 bits of the product. -/
def execMulRegReg (ra rb : Reg) (s : State) : Host.Outcome State Fault Refusal :=
  .next (s.setAcc (s.getReg ra * s.getReg rb))

/-- MUL_LIT_REG (R85). -/
def execMulLitReg (lit : Word) (ra : Reg) (s : State) : Host.Outcome State Fault Refusal :=
  .next (s.setAcc (lit * s.getReg ra))

/-- MUL_REG_LIT (R86). -/
def execMulRegLit (ra : Reg) (lit : Word) (s : State) : Host.Outcome State Fault Refusal :=
  .next (s.setAcc (s.getReg ra * lit))

/-- INC_REG (R87), in place. -/
def execIncReg (rd : Reg) (s : State) : Host.Outcome State Fault Refusal :=
  .next (s.setReg rd (s.getReg rd + 1))

/-- DEC_REG (R88), in place. -/
def execDecReg (rd : Reg) (s : State) : Host.Outcome State Fault Refusal :=
  .next (s.setReg rd (s.getReg rd - 1))

end Sys2Proof.Machine
end

