-- ==== Sys2Proof/Machine/Bitwise.lean ====
section
/-! DEFINITION. The meanings of the Bitwise family (42_bitwise.md, R91 to R101): shifts in place, logical operations
into `acc`. -/

namespace Sys2Proof.Machine

/-- LSF_REG_LIT (R91). -/
def execLsfRegLit (rd : Reg) (n : Word) (s : State) : Host.Outcome State Fault Refusal :=
  (shiftReg .left rd n s).finish

/-- LSF_REG_REG (R92): all 16 bits of `rb` count, read before `rd` is written. -/
def execLsfRegReg (rd rb : Reg) (s : State) : Host.Outcome State Fault Refusal :=
  (shiftReg .left rd (s.getReg rb) s).finish

/-- RSF_REG_LIT (R93). -/
def execRsfRegLit (rd : Reg) (n : Word) (s : State) : Host.Outcome State Fault Refusal :=
  (shiftReg .right rd n s).finish

/-- RSF_REG_REG (R94): all 16 bits of `rb` count, read before `rd` is written. -/
def execRsfRegReg (rd rb : Reg) (s : State) : Host.Outcome State Fault Refusal :=
  (shiftReg .right rd (s.getReg rb) s).finish

/-- AND_REG_LIT (R95). -/
def execAndRegLit (ra : Reg) (lit : Word) (s : State) : Host.Outcome State Fault Refusal :=
  .next (s.setAcc (s.getReg ra &&& lit))

/-- AND_REG_REG (R96). -/
def execAndRegReg (ra rb : Reg) (s : State) : Host.Outcome State Fault Refusal :=
  .next (s.setAcc (s.getReg ra &&& s.getReg rb))

/-- OR_REG_LIT (R97). -/
def execOrRegLit (ra : Reg) (lit : Word) (s : State) : Host.Outcome State Fault Refusal :=
  .next (s.setAcc (s.getReg ra ||| lit))

/-- OR_REG_REG (R98). -/
def execOrRegReg (ra rb : Reg) (s : State) : Host.Outcome State Fault Refusal :=
  .next (s.setAcc (s.getReg ra ||| s.getReg rb))

/-- XOR_REG_LIT (R99). -/
def execXorRegLit (ra : Reg) (lit : Word) (s : State) : Host.Outcome State Fault Refusal :=
  .next (s.setAcc (s.getReg ra ^^^ lit))

/-- XOR_REG_REG (R100). -/
def execXorRegReg (ra rb : Reg) (s : State) : Host.Outcome State Fault Refusal :=
  .next (s.setAcc (s.getReg ra ^^^ s.getReg rb))

/-- NOT (R101). -/
def execNotReg (ra : Reg) (s : State) : Host.Outcome State Fault Refusal :=
  .next (s.setAcc (~~~ s.getReg ra))

end Sys2Proof.Machine
end

