-- ==== Sys2Proof/Machine/Flags.lean ====
section
/-! DEFINITION. The machine has no flags (R21): a branch computes its condition from `acc` and its comparand at the
moment it executes. This file holds the six conditions and the order `CMP_ORDER` gives their operands (R102). -/

namespace Sys2Proof.Machine

/-- `OP`, the relation of a branch (R102). -/
inductive Relation where
  | ne | eq | lt | gt | le | ge
  deriving DecidableEq, Repr

/-- The relation on unsigned 16-bit words (R102). -/
def relationHolds : Relation → Word → Word → Bool
  | .ne, a, b => a != b
  | .eq, a, b => a == b
  | .lt, a, b => decide (a < b)
  | .gt, a, b => decide (b < a)
  | .le, a, b => decide (a ≤ b)
  | .ge, a, b => decide (b ≤ a)

/-- `cond(OP, v)`: `acc OP v` under `AccFirst`, `v OP acc` under `ValueFirst` (R102). -/
def branchCondition (op : Relation) (v : Word) (s : State) : Bool :=
  match s.cfg.cmpOrder with
  | .accFirst => relationHolds op (s.getReg .acc) v
  | .valueFirst => relationHolds op v (s.getReg .acc)

/-- A branch: `if cond(OP, v) then pc <- addr`, and nothing but `ip` is written (R102, R103). -/
def branch (op : Relation) (v addr : Word) (s : State) : State :=
  if branchCondition op v s then s.setReg .ip addr else s

end Sys2Proof.Machine
end

