-- ==== Sys2Proof/Machine/Branch.lean ====
section
/-! DEFINITION. The meanings of the Branch family (43_branch.md, R104 to R115). The target is absolute, any value is
legal, and a branch not taken leaves `ip` at the next instruction (R103). -/

namespace Sys2Proof.Machine

/-- JMP_NOT_EQ (R104). -/
def execJmpNotEq (lit addr : Word) (s : State) : Host.Outcome State Fault Refusal :=
  .next (branch .ne lit addr s)

/-- JNE_REG (R105). -/
def execJneReg (ra : Reg) (addr : Word) (s : State) : Host.Outcome State Fault Refusal :=
  .next (branch .ne (s.getReg ra) addr s)

/-- JEQ_LIT (R106). -/
def execJeqLit (lit addr : Word) (s : State) : Host.Outcome State Fault Refusal :=
  .next (branch .eq lit addr s)

/-- JEQ_REG (R107). -/
def execJeqReg (ra : Reg) (addr : Word) (s : State) : Host.Outcome State Fault Refusal :=
  .next (branch .eq (s.getReg ra) addr s)

/-- JLT_LIT (R108). -/
def execJltLit (lit addr : Word) (s : State) : Host.Outcome State Fault Refusal :=
  .next (branch .lt lit addr s)

/-- JLT_REG (R109). -/
def execJltReg (ra : Reg) (addr : Word) (s : State) : Host.Outcome State Fault Refusal :=
  .next (branch .lt (s.getReg ra) addr s)

/-- JGT_LIT (R110). -/
def execJgtLit (lit addr : Word) (s : State) : Host.Outcome State Fault Refusal :=
  .next (branch .gt lit addr s)

/-- JGT_REG (R111). -/
def execJgtReg (ra : Reg) (addr : Word) (s : State) : Host.Outcome State Fault Refusal :=
  .next (branch .gt (s.getReg ra) addr s)

/-- JLE_LIT (R112). -/
def execJleLit (lit addr : Word) (s : State) : Host.Outcome State Fault Refusal :=
  .next (branch .le lit addr s)

/-- JLE_REG (R113). -/
def execJleReg (ra : Reg) (addr : Word) (s : State) : Host.Outcome State Fault Refusal :=
  .next (branch .le (s.getReg ra) addr s)

/-- JGE_LIT (R114). -/
def execJgeLit (lit addr : Word) (s : State) : Host.Outcome State Fault Refusal :=
  .next (branch .ge lit addr s)

/-- JGE_REG (R115). -/
def execJgeReg (ra : Reg) (addr : Word) (s : State) : Host.Outcome State Fault Refusal :=
  .next (branch .ge (s.getReg ra) addr s)

end Sys2Proof.Machine
end

