-- ==== Sys2Proof/Machine/Control.lean ====
section
/-! DEFINITION. The meaning of HLT (R131), the only instruction with a system effect (R132). -/

namespace Sys2Proof.Machine

/-- HLT (R131): `status <- Halted`; no register, memory or `fs` changes. -/
def execHlt (s : State) : Host.Outcome State Fault Refusal :=
  .next (s.setStatus .halted)

end Sys2Proof.Machine
end

