-- ==== Sys2Proof/Machine/Move.lean ====
section
/-! DEFINITION. The meanings of the Move family (40_move.md, R69 to R75). Each is given the state after its own
fetches, in which `ip` holds the address of the next instruction (R17, R64). -/

namespace Sys2Proof.Machine

/-- MOV_LIT_REG (R69). -/
def execMovLitReg (lit : Word) (rd : Reg) (s : State) : Host.Outcome State Fault Refusal :=
  .next (s.setReg rd lit)

/-- MOV_REG_REG (R70). -/
def execMovRegReg (ra rd : Reg) (s : State) : Host.Outcome State Fault Refusal :=
  .next (s.setReg rd (s.getReg ra))

/-- MOV_REG_MEM (R71). -/
def execMovRegMem (ra : Reg) (addr : Word) (s : State) : Host.Outcome State Fault Refusal :=
  (writeWord addr (s.getReg ra) s).finish

/-- MOV_MEM_REG (R72). -/
def execMovMemReg (addr : Word) (rd : Reg) (s : State) : Host.Outcome State Fault Refusal :=
  (loadWord addr rd s).finish

/-- MOV_LIT_MEM (R73). -/
def execMovLitMem (lit addr : Word) (s : State) : Host.Outcome State Fault Refusal :=
  (writeWord addr lit s).finish

/-- MOV_REG_PTR_REG (R74). -/
def execMovRegPtrReg (ra rd : Reg) (s : State) : Host.Outcome State Fault Refusal :=
  (loadWord (s.getReg ra) rd s).finish

/-- MOV_LIT_OFF_REG (R75). -/
def execMovLitOffReg (lit : Word) (ra rd : Reg) (s : State) : Host.Outcome State Fault Refusal :=
  (loadWord (indexedAddress lit ra s) rd s).finish

end Sys2Proof.Machine
end

