-- ==== Sys2Proof/Machine/Stack.lean ====
section
/-! DEFINITION. The stack primitives (R116, R117) and the meanings of PSH_LIT, PSH_REG and POP (R119 to R121). The
stack descends; `sp` addresses the next free word, is never checked against a bound and wraps (R47, D11). -/

namespace Sys2Proof.Machine

/-- `push(v)` (R116). A faulting push changes neither `sp` nor `fs`. -/
def push (v : Word) (s : State) : Result Unit :=
  (writeWord (s.getReg .sp) v s).andThen fun _ s =>
    .ok () ((s.setReg .sp (s.getReg .sp - 2)).setFs (s.fs + 2))

/-- `pop()` (R117). A faulting pop has raised `sp` already and leaves `fs`. -/
def pop (s : State) : Result Word :=
  let s := s.setReg .sp (s.getReg .sp + 2)
  (readWord (s.getReg .sp) s).andThen fun w s => .ok w (s.setFs (s.fs - 2))

/-- PSH_LIT (R119). -/
def execPshLit (lit : Word) (s : State) : Host.Outcome State Fault Refusal :=
  (push lit s).finish

/-- PSH_REG (R120): the register is read before the push changes `sp` (D25). -/
def execPshReg (ra : Reg) (s : State) : Host.Outcome State Fault Refusal :=
  (push (s.getReg ra) s).finish

/-- POP (R121): the destination is written after the pop completes (D25). -/
def execPop (rd : Reg) (s : State) : Host.Outcome State Fault Refusal :=
  ((pop s).andThen fun w s => .ok () (s.setReg rd w)).finish

end Sys2Proof.Machine
end

