-- ==== Sys2Proof/Machine/Subroutine.lean ====
section
/-! DEFINITION. The call-frame protocol (R122, R123) and the meanings of CAL_LIT, CAL_REG and RET (R127 to R129). -/

namespace Sys2Proof.Machine

/-- The registers of a frame in the order `push_state` pushes them (R122). -/
def frameRegs : List Reg := [.r1, .r2, .r3, .r4, .r5, .r6, .r7, .r8, .ip]

/-- Push the values of registers, one after the other. -/
def pushRegs : List Reg → State → Result Unit
  | [], s => .ok () s
  | r :: rs, s => (push (s.getReg r) s).andThen fun _ s => pushRegs rs s

/-- Pop words into registers, one after the other. -/
def popRegs : List Reg → State → Result Unit
  | [], s => .ok () s
  | r :: rs, s => (pop s).andThen fun w s => popRegs rs (s.setReg r w)

/-- `repeat n times (pop())`: real pops, each reading its word through the Mapper (R123, D24). -/
def popDiscard : Nat → State → Result Unit
  | 0, s => .ok () s
  | n + 1, s => (pop s).andThen fun _ s => popDiscard n s

/-- `push_state()` (R122): the nine registers, then `fs +16 2` with the counter as the nine pushes left it; then the
counter is 0 and `fp` is `sp`. -/
def pushState (s : State) : Result Unit :=
  (pushRegs frameRegs s).andThen fun _ s =>
    (push (s.fs + 2) s).andThen fun _ s =>
      let s := s.setFs 0
      .ok () (s.setReg .fp (s.getReg .sp))

/-- `pop_state()` (R123): the frame size into `fs` (its own pop's decrement is overwritten), `ip` and `r8`..`r1`, the
argument count and that many words; then `fp` is its value at entry plus the restored size. The counter keeps the
drift that conflict C2 tells a model to reproduce. -/
def popState (s : State) : Result Unit :=
  let f0 := s.getReg .fp
  (pop (s.setReg .sp f0)).andThen fun size s =>
    (popRegs frameRegs.reverse (s.setFs size)).andThen fun _ s =>
      (pop s).andThen fun n s =>
        (popDiscard n.toNat s).andThen fun _ s =>
          .ok () (s.setReg .fp (f0 + size))

/-- `push_state(); pc <- t`, a call (R127, R128). -/
def callTo (t : Word) (s : State) : Result Unit :=
  (pushState s).andThen fun _ s => .ok () (s.setReg .ip t)

/-- CAL_LIT (R127). -/
def execCalLit (addr : Word) (s : State) : Host.Outcome State Fault Refusal :=
  (callTo addr s).finish

/-- CAL_REG (R128): the target is read before `push_state` changes `sp` and `fp` (D25). -/
def execCalReg (ra : Reg) (s : State) : Host.Outcome State Fault Refusal :=
  (callTo (s.getReg ra) s).finish

/-- RET (R129). -/
def execRet (s : State) : Host.Outcome State Fault Refusal :=
  (popState s).finish

end Sys2Proof.Machine
end

