-- ==== Sys2Proof/Machine/Dispatch.lean ====
section
/-! DEFINITION. The dispatch from an instruction to its meaning: one arm per row of the opcode table (R62). The state
given is the one after the instruction's fetches (R64). -/

namespace Sys2Proof.Machine

/-- Execute one decoded instruction. -/
def exec (i : Instr) (s : State) : Host.Outcome State Fault Refusal :=
  match i with
  | .movLitReg lit rd => Sys2Proof.Machine.execMovLitReg lit rd s
  | .movRegReg ra rd => Sys2Proof.Machine.execMovRegReg ra rd s
  | .movRegMem ra addr => Sys2Proof.Machine.execMovRegMem ra addr s
  | .movMemReg addr rd => Sys2Proof.Machine.execMovMemReg addr rd s
  | .movLitMem lit addr => Sys2Proof.Machine.execMovLitMem lit addr s
  | .movRegPtrReg ra rd => Sys2Proof.Machine.execMovRegPtrReg ra rd s
  | .movLitOffReg lit ra rd => Sys2Proof.Machine.execMovLitOffReg lit ra rd s
  | .addRegReg ra rb => Sys2Proof.Machine.execAddRegReg ra rb s
  | .addLitReg lit ra => Sys2Proof.Machine.execAddLitReg lit ra s
  | .addRegLit ra lit => Sys2Proof.Machine.execAddRegLit ra lit s
  | .subRegReg ra rb => Sys2Proof.Machine.execSubRegReg ra rb s
  | .subLitReg lit ra => Sys2Proof.Machine.execSubLitReg lit ra s
  | .subRegLit ra lit => Sys2Proof.Machine.execSubRegLit ra lit s
  | .mulRegReg ra rb => Sys2Proof.Machine.execMulRegReg ra rb s
  | .mulLitReg lit ra => Sys2Proof.Machine.execMulLitReg lit ra s
  | .mulRegLit ra lit => Sys2Proof.Machine.execMulRegLit ra lit s
  | .incReg rd => Sys2Proof.Machine.execIncReg rd s
  | .decReg rd => Sys2Proof.Machine.execDecReg rd s
  | .lsfRegLit rd n => Sys2Proof.Machine.execLsfRegLit rd n s
  | .lsfRegReg rd rb => Sys2Proof.Machine.execLsfRegReg rd rb s
  | .rsfRegLit rd n => Sys2Proof.Machine.execRsfRegLit rd n s
  | .rsfRegReg rd rb => Sys2Proof.Machine.execRsfRegReg rd rb s
  | .andRegLit ra lit => Sys2Proof.Machine.execAndRegLit ra lit s
  | .andRegReg ra rb => Sys2Proof.Machine.execAndRegReg ra rb s
  | .orRegLit ra lit => Sys2Proof.Machine.execOrRegLit ra lit s
  | .orRegReg ra rb => Sys2Proof.Machine.execOrRegReg ra rb s
  | .xorRegLit ra lit => Sys2Proof.Machine.execXorRegLit ra lit s
  | .xorRegReg ra rb => Sys2Proof.Machine.execXorRegReg ra rb s
  | .notReg ra => Sys2Proof.Machine.execNotReg ra s
  | .jmpNotEq lit addr => Sys2Proof.Machine.execJmpNotEq lit addr s
  | .jneReg ra addr => Sys2Proof.Machine.execJneReg ra addr s
  | .jeqLit lit addr => Sys2Proof.Machine.execJeqLit lit addr s
  | .jeqReg ra addr => Sys2Proof.Machine.execJeqReg ra addr s
  | .jltLit lit addr => Sys2Proof.Machine.execJltLit lit addr s
  | .jltReg ra addr => Sys2Proof.Machine.execJltReg ra addr s
  | .jgtLit lit addr => Sys2Proof.Machine.execJgtLit lit addr s
  | .jgtReg ra addr => Sys2Proof.Machine.execJgtReg ra addr s
  | .jleLit lit addr => Sys2Proof.Machine.execJleLit lit addr s
  | .jleReg ra addr => Sys2Proof.Machine.execJleReg ra addr s
  | .jgeLit lit addr => Sys2Proof.Machine.execJgeLit lit addr s
  | .jgeReg ra addr => Sys2Proof.Machine.execJgeReg ra addr s
  | .pshLit lit => Sys2Proof.Machine.execPshLit lit s
  | .pshReg ra => Sys2Proof.Machine.execPshReg ra s
  | .pop rd => Sys2Proof.Machine.execPop rd s
  | .calLit addr => Sys2Proof.Machine.execCalLit addr s
  | .calReg ra => Sys2Proof.Machine.execCalReg ra s
  | .ret => Sys2Proof.Machine.execRet s
  | .hlt => Sys2Proof.Machine.execHlt s

end Sys2Proof.Machine
end

