-- ==== Sys2Proof/Machine/Fetch.lean ====
section
/-! DEFINITION. Fetching an instruction: the instruction-stream primitives (R58 to R60), the collection of an
instruction's operand bytes in encoding order (R56, R64), and the storing of instruction bytes by a loader (R148). -/

namespace Sys2Proof.Machine

/-- `fetch8()` (R58): read the byte at `ip`, then `ip +16 1`. A fault leaves `ip` at the address fetched. -/
def fetch8 (s : State) : Result Byte :=
  match s.byteRead (s.getReg .ip) with
  | .error f => .raised f s
  | .ok b => .ok b (s.setReg .ip (s.getReg .ip + 1))

/-- `fetch16()` (R59): read the word at `ip`, then `ip +16 2`; a word access, with its faults (R67). -/
def fetch16 (s : State) : Result Word :=
  match s.wordRead (s.getReg .ip) with
  | .error f => .raised f s
  | .ok w => .ok w (s.setReg .ip (s.getReg .ip + 2))

/-- Fetch the bytes of one operand (R55): a register or an 8-bit literal by `fetch8`, a 16-bit operand by `fetch16`. -/
def fetchOperand (k : OperandKind) (s : State) : Result (List Byte) :=
  match k with
  | .reg => (fetch8 s).andThen fun b s => .ok [b] s
  | .lit8 => (fetch8 s).andThen fun b s => .ok [b] s
  | .lit16 => (fetch16 s).andThen fun w s => .ok [hiByte w, loByte w] s

/-- Fetch the bytes of operands, in encoding order (R64). -/
def fetchOperands : List OperandKind → State → Result (List Byte)
  | [], s => .ok [] s
  | k :: ks, s =>
    (fetchOperand k s).andThen fun bs s =>
      (fetchOperands ks s).andThen fun rest s => .ok (bs ++ rest) s

/-- Fetch and decode the instruction at `ip` (R64, R65): the opcode byte, then, unless it is unassigned (R63), every
operand byte. The state answered has `ip` at the byte after the instruction (R17). -/
def fetchInstr (s : State) : Result Instr :=
  (fetch8 s).andThen fun op s =>
    match s.cfg.mnemonicOf op with
    | none => .raised (.unknownOpcode op) s
    | some m => (fetchOperands (m.kinds s.cfg) s).andThen fun bs s => .ok (decodeFields s.cfg m bs) s

/-- The storage cell that holds the byte at an address, if a storage device does. -/
def State.cellAt (s : State) (a : Word) : Option Nat :=
  match s.byteTarget a with
  | .ok (.cell n) => some n
  | _ => none

/-- Store bytes at rising addresses from `a` (R148), leaving out any byte that no storage device can hold. -/
def storeBytes (s : State) (a : Word) : List Byte → State
  | [] => s
  | b :: bs =>
    match s.cellAt a with
    | some n => storeBytes (s.writeTarget (.cell n) b) (a + 1) bs
    | none => storeBytes s (a + 1) bs

end Sys2Proof.Machine
end

