-- ==== Sys2Proof/Machine/Step.lean ====
section
/-! DEFINITION. One step of the machine (R65), and the placing of an instruction where the next step fetches. -/

namespace Sys2Proof.Machine

/-- `step()` (R65), after which the machine has made a step (R148, D28; assumption 19). A running machine fetches one
instruction and executes it; a fault on the way enters `Faulted` with the state reached at the raise (R136). A halted
machine fetches nothing and changes nothing, which is `Done` (D23). A faulted machine has stopped: it answers its fault,
without fetching or changing anything (R137, D23); the mark of that step is `hostStep`'s, as the answer holds no state.
-/
def step (s : State) : Host.Outcome State Fault Refusal :=
  match s.status with
  | .halted => .next s.start
  | .faulted f => .fault f
  | .running =>
    match fetchInstr s.start with
    | .raised f s' => .next (s'.takeFault f)
    | .ok i s' => exec i s'

/-- The state with an instruction's five bytes (the bits of `w` below `nbits`, then zeros) stored from `ip` on, where
the next step fetches, and the machine running, without which no step fetches (assumption 8). -/
def State.withFetchWord (s : State) (nbits w : Nat) : State :=
  (storeBytes s (s.getReg .ip) (tableBytes nbits w)).setStatus .running

end Sys2Proof.Machine
end

