-- ==== Sys2Proof/Machine/HostInterface.lean ====
section
/-! DEFINITION. What the host can do to the machine (R145 to R151): map devices and construct the machine, load a
program before the first step, step and run it, and inspect registers and memory between steps. The Engine uses none of
this. -/

namespace Sys2Proof.Machine

/-! ## Setup -/

/-- The configuration errors of `map` (R134). They are no faults: no step raises one and `status` is not involved. -/
inductive ConfigError where
  /-- The device is shorter than the range it is remapped to (R28). -/
  | regionTooSmall (start last : Word)
  /-- The range is reversed (R28, D15). -/
  | regionInvalid (start last : Word)
  /-- The range overlaps an earlier region; only the separate check `overlapError` reports it (R134, D14). -/
  | regionOverlap (start last : Word)
  deriving DecidableEq, Repr

/-- A device's length: a storage device's own, an output device's `OUT_LEN` (R31, R32). -/
def deviceLength (cfg : Config) : Device → Nat
  | .storage len => len
  | .output => cfg.outLen

/-- `map(device, start, end, remap)` (R28, R147): append a region, or fail and add none. -/
def mapRegion (cfg : Config) (regions : List Region) (r : Region) : Except ConfigError (List Region) :=
  if r.last < r.start then .error (.regionInvalid r.start r.last)
  else if r.remap ∧ deviceLength cfg r.device < r.last.toNat - r.start.toNat + 1 then
    .error (.regionTooSmall r.start r.last)
  else .ok (regions ++ [r])

/-- The host's calls of `map`, in order; the first that fails ends the setup (R134). -/
def mapRegions (cfg : Config) : List Region → List Region → Except ConfigError (List Region)
  | regions, [] => .ok regions
  | regions, r :: rs =>
    match mapRegion cfg regions r with
    | .error e => .error e
    | .ok regions => mapRegions cfg regions rs

/-- Two regions share an address. -/
def regionsOverlap (r r' : Region) : Bool := decide (r.start ≤ r'.last) && decide (r'.start ≤ r.last)

/-- The check of the no-overlap precondition (R28, R134): the first region that overlaps an earlier one. `map` does not
make this check; a lookup in overlapping regions finds the first (R29, D14). -/
def overlapError : List Region → List Region → Option ConfigError
  | _, [] => none
  | earlier, r :: rs =>
    if earlier.any (regionsOverlap r) then some (.regionOverlap r.start r.last)
    else overlapError (earlier ++ [r]) rs

/-- Construction of a machine (R145, steps 1 to 3): map the regions, then every piece of state at its reset value. -/
def setup (cfg : Config) (rs : List Region) : Except ConfigError State :=
  match mapRegions cfg [] rs with
  | .error e => .error e
  | .ok regions => .ok (State.construct cfg regions)

/-- `ByteWrite` of the bytes at rising addresses, wrapping modulo 65536, or none if no storage device holds one of
them. -/
def loadBytes (s : State) (a : Word) : List Byte → Option State
  | [] => some s
  | b :: bs =>
    match s.cellAt a with
    | none => none
    | some n => loadBytes (s.writeTarget (.cell n) b) (a + 1) bs

/-- `load(a, bytes)` (R148). It is allowed only before the first step (D28), so a machine that has made a step refuses
every load; a load with a byte that no storage device holds is refused whole (assumption 13). -/
def load (s : State) (a : Word) (bytes : List Byte) : Option State :=
  if s.started then none else loadBytes s a bytes

/-! ## Control -/

/-- The code that the spec assigns to a run-time fault (R133). -/
def faultCode : Fault → Nat
  | .unknownOpcode _ => 1
  | .addressOutOfBounds _ => 2
  | .wordStraddle _ => 3
  | .deviceIndexOutOfRange _ => 4
  | .unknownRegister _ => 5
  | .shiftOutOfRange _ => 6

/-- What `step()` returns to the host (R149). -/
inductive StepResult where
  | continued
  | done
  | fault (f : Fault)
  deriving DecidableEq, Repr

/-- The result that goes with the run status after a step (R24, R65). -/
def stepResult (s : State) : StepResult :=
  match s.status with
  | .running => .continued
  | .halted => .done
  | .faulted f => .fault f

/-- `step()` as the host sees it (R149): the state after it and its result. The step that reports an earlier fault is a
step like any other (R154), after which the host may no longer load. A step never refuses. -/
def hostStep (s : State) : State × StepResult :=
  match step s with
  | .next t => (t, stepResult t)
  | .fault f => (s.start, .fault f)
  | .refused _ => (s.start, stepResult s)

/-- `run()` (R66): steps until the result is not `Continue`. A run may be endless, so it is cut after a number of steps
of the caller's choice; then there is no result. -/
def hostRun : Nat → State → State × Option StepResult
  | 0, s => (s, none)
  | n + 1, s =>
    match hostStep s with
    | (t, .continued) => hostRun n t
    | (t, r) => (t, some r)

/-! ## Inspection -/

/-- The register a name stands for (R13). -/
def regOfName (name : String) : Option Reg :=
  match name with
  | "ip" => some .ip
  | "acc" => some .acc
  | "r1" => some .r1
  | "r2" => some .r2
  | "r3" => some .r3
  | "r4" => some .r4
  | "r5" => some .r5
  | "r6" => some .r6
  | "r7" => some .r7
  | "r8" => some .r8
  | "sp" => some .sp
  | "fp" => some .fp
  | _ => none

/-- The fatal effect of a failed inspection (R150): the fault entry on a running machine. A machine that has stopped
keeps its status, which nothing leaves (R24, R144; assumption 11). -/
def State.inspectFault (f : Fault) (s : State) : State :=
  match s.status with
  | .running => s.takeFault f
  | _ => s

/-- `get_register(name)` (R150): the register's value, or `UnknownRegister` for a name the Register File does not
have; the state answered with a fault has taken it. -/
def getRegister (name : String) (s : State) : Result Word :=
  match regOfName name with
  | none => .raised (.unknownRegister name) (s.inspectFault (.unknownRegister name))
  | some r =>
    if r.present s.cfg.regConfig then .ok (s.getReg r) s
    else .raised (.unknownRegister name) (s.inspectFault (.unknownRegister name))

/-- The bytes at `n` addresses from `a`, or the first fault. -/
def viewBytes (s : State) : Nat → Word → Except Fault (List Byte)
  | 0, _ => .ok []
  | n + 1, a =>
    match s.byteRead a with
    | .error f => .error f
    | .ok b =>
      match viewBytes s n (a + 1) with
      | .error f => .error f
      | .ok bs => .ok (b :: bs)

/-- `view(lo, hi)` (R150): `ByteRead` of every address of the inclusive range, without side effect; a fault is fatal.
A reversed range is empty (assumption 12). -/
def view (lo hi : Word) (s : State) : Result (List Byte) :=
  match viewBytes s (hi.toNat + 1 - lo.toNat) lo with
  | .ok bs => .ok bs s
  | .error f => .raised f (s.inspectFault f)

/-- The Register File as the host's view of its byte buffer (R14): slot `k` in bytes `2k` and `2k + 1`, big-endian; 24
bytes, or the first 20 under `Reduced` (R20). -/
def registerBuffer (s : State) : List Byte :=
  (List.range s.cfg.regCount).flatMap fun k => wordBytes (s.getReg (regOfId k))

end Sys2Proof.Machine
end

