-- ==== Sys2Proof/Safety.lean ====
section
/-! DEFINITION. The terms in which claims about the machine are stated: what a state must offer an access, what two
states have in common, and which states are well formed. -/

namespace Sys2Proof.Safety

open Sys2Proof.Machine

/-- A word access at `a` falls in a storage device: one region holds both bytes, and the device both indices (R34). -/
def WordInStorage (s : State) (a : Word) : Prop :=
  ∃ k r len, s.lookup a = some (k, r) ∧ r.device = .storage len ∧ a.toNat + 1 ≤ r.last.toNat ∧
    deviceIndex r a + 1 < len

/-- A word access at `a` falls in output region `k`, its first byte at device index `i` (R32, R34). -/
def WordInOutput (s : State) (a : Word) (k i : Nat) : Prop :=
  ∃ r, s.lookup a = some (k, r) ∧ r.device = .output ∧ a.toNat + 1 ≤ r.last.toNat ∧ i = deviceIndex r a

/-- A word access at `a` raises `f`, by the checks of R34 in the order of R135. -/
def WordFaults (s : State) (a : Word) (f : Fault) : Prop :=
  (s.lookup a = none ∧ f = .addressOutOfBounds a) ∨
  (∃ k r, s.lookup a = some (k, r) ∧ r.last.toNat < a.toNat + 1 ∧ f = .wordStraddle a) ∨
  (∃ k r len, s.lookup a = some (k, r) ∧ a.toNat + 1 ≤ r.last.toNat ∧ r.device = .storage len ∧
    len ≤ deviceIndex r a + 1 ∧ f = .deviceIndexOutOfRange a)

/-- A byte access at `a` raises `f`, by the checks of R33 in the order of R135. -/
def ByteFaults (s : State) (a : Word) (f : Fault) : Prop :=
  (s.lookup a = none ∧ f = .addressOutOfBounds a) ∨
  (∃ k r len, s.lookup a = some (k, r) ∧ r.device = .storage len ∧ len ≤ deviceIndex r a ∧
    f = .deviceIndexOutOfRange a)

/-- A byte access at `a` falls in a storage device. -/
def ByteInStorage (s : State) (a : Word) : Prop :=
  ∃ k r len, s.lookup a = some (k, r) ∧ r.device = .storage len ∧ deviceIndex r a < len

/-- A byte access at `a` falls in output region `k`, at device index `i` (R32). -/
def ByteInOutput (s : State) (a : Word) (k i : Nat) : Prop :=
  ∃ r, s.lookup a = some (k, r) ∧ r.device = .output ∧ i = deviceIndex r a

/-- Everything but the registers `rs` is the same in both states; memory is compared byte by byte. -/
def SameExceptRegs (rs : List Reg) (s t : State) : Prop :=
  (∀ r, r ∉ rs → t.getReg r = s.getReg r) ∧ t.fs = s.fs ∧ t.status = s.status ∧ t.cfg = s.cfg ∧
    t.regions = s.regions ∧ t.started = s.started ∧ t.out = s.out ∧ ∀ a, t.byteRead a = s.byteRead a

/-- The bytes of operands stand at `a`: the accesses the fetch makes for them, one by one, read them (R58, R59). -/
def OperandsAt (s : State) : Word → List OperandKind → List Byte → Prop
  | _, [], bs => bs = []
  | a, .reg :: ks, b :: bs => s.byteRead a = .ok b ∧ OperandsAt s (a + 1) ks bs
  | a, .lit8 :: ks, b :: bs => s.byteRead a = .ok b ∧ OperandsAt s (a + 1) ks bs
  | a, .lit16 :: ks, h :: l :: bs => s.wordRead a = .ok (joinBytes h l) ∧ OperandsAt s (a + 2) ks bs
  | _, _, _ => False

/-- The access that fetches an operand of kind `k` at `a` raises `f`. -/
def OperandFaults (s : State) (a : Word) (k : OperandKind) (f : Fault) : Prop :=
  match k with
  | .reg | .lit8 => s.byteRead a = .error f
  | .lit16 => s.wordRead a = .error f

/-- Fetching the instruction at `ip` raises `f` after `n` bytes have been fetched: at the opcode byte itself, at an
unassigned opcode, or at the first operand in encoding order that cannot be read (R63, R67, R135). -/
def FetchFaults (s : State) (f : Fault) (n : Nat) : Prop :=
  (n = 0 ∧ s.byteRead (s.getReg .ip) = .error f) ∨
  (∃ op, s.byteRead (s.getReg .ip) = .ok op ∧
    ((s.cfg.mnemonicOf op = none ∧ n = 1 ∧ f = .unknownOpcode op) ∨
     ∃ m done k rest bs, s.cfg.mnemonicOf op = some m ∧ m.kinds s.cfg = done ++ k :: rest ∧
       OperandsAt s (s.getReg .ip + 1) done bs ∧ n = 1 + bs.length ∧
       OperandFaults s (s.getReg .ip + BitVec.ofNat 16 n) k f))

/-- Every listed cell is a byte of a storage device of the map (R12, R31): an output device stores nothing (R32). -/
def CellsInStorage (s : State) : Prop :=
  ∀ x ∈ s.mem, ∃ k r len i, s.regions[k]? = some r ∧ r.device = .storage len ∧ i < len ∧ i < 0x10000 ∧
    x.1 = cellNumber k i

/-- A well-formed state: its memory has the canonical form and lists bytes of storage devices only. -/
def WellFormed (s : State) : Prop := Memory.wf s.mem ∧ CellsInStorage s

/-- Everything but the registers `rs`, `fs` and the two bytes at `a` is the same in both states. -/
def SameExceptWord (rs : List Reg) (a : Word) (s t : State) : Prop :=
  (∀ r, r ∉ rs → t.getReg r = s.getReg r) ∧ t.status = s.status ∧ t.cfg = s.cfg ∧ t.regions = s.regions ∧
    t.started = s.started ∧ t.out = s.out ∧ ∀ b, b ≠ a → b ≠ a + 1 → t.byteRead b = s.byteRead b

/-- A branch that jumps to `addr` exactly when `c` holds, and writes nothing but `ip` (R102, R103). -/
def JumpsIf (c : Prop) (addr : Word) (s t : State) : Prop :=
  (c → t.getReg .ip = addr) ∧ (¬ c → t.getReg .ip = s.getReg .ip) ∧ SameExceptRegs [.ip] s t

/-- An ordered comparison of `acc` with `v` as unsigned numbers, in the order `CMP_ORDER` gives them (R102). -/
def Ordered (order : CmpOrder) (rel : Nat → Nat → Prop) (acc v : Word) : Prop :=
  match order with
  | .accFirst => rel acc.toNat v.toNat
  | .valueFirst => rel v.toNat acc.toNat

/-- So many steps, up to the first that answers no next state. -/
def stepMany : Nat → State → Host.Outcome State Fault Refusal
  | 0, s => .next s
  | n + 1, s =>
    match step s with
    | .next t => stepMany n t
    | .fault f => .fault f
    | .refused r => .refused r

/-- Push words, one after the other (R118). -/
def pushWords : List Word → State → Result Unit
  | [], s => .ok () s
  | v :: vs, s => (push v s).andThen fun _ s => pushWords vs s

/-- Pop so many words, with the words in the order they came (R118). -/
def popWords : Nat → State → Result (List Word)
  | 0, s => .ok [] s
  | n + 1, s => (pop s).andThen fun w s => (popWords n s).andThen fun ws s => .ok (w :: ws) s

/-- The address of the `j`-th word that a call pushes, counting from 0: `sp - 2j` at the call (R116, R122). -/
def frameSlot (s : State) (j : Nat) : Word := s.getReg .sp - BitVec.ofNat 16 (2 * j)

/-- The `j`-th word above an address: `a + 2(j + 1)` (R117, R124). -/
def wordAbove (a : Word) (j : Nat) : Word := a + BitVec.ofNat 16 (2 * (j + 1))

/-- Writing the word `v` at `a` stores it and emits no event, or falls in an output device and emits the two events of
R32, the high byte first. -/
def WriteEvents (s : State) (a v : Word) (events : List OutEvent) : Prop :=
  (WordInStorage s a ∧ events = []) ∨
  (∃ k i, WordInOutput s a k i ∧ events = [⟨k, i, hiByte v⟩, ⟨k, i + 1, loByte v⟩])

/-- What completed pushes of `words` from `s` leave in memory and in the output log of `t`, whatever devices their slots
are in: a word of a storage slot is stored, one of an output slot is emitted, in push order, and no other byte changes
(R32, R47, R116). -/
def WordsPushed (s : State) (words : List Word) (t : State) : Prop :=
  (∃ events : Nat → List OutEvent, (∀ j v, words[j]? = some v → WriteEvents s (frameSlot s j) v (events j)) ∧
    t.out = s.out ++ (List.range words.length).flatMap events) ∧
  (∀ j v, words[j]? = some v → WordInStorage s (frameSlot s j) → t.wordRead (frameSlot s j) = .ok v) ∧
  ∀ b, (∀ j < words.length, WordInStorage s (frameSlot s j) → b ≠ frameSlot s j ∧ b ≠ frameSlot s j + 1) →
    t.byteRead b = s.byteRead b

/-- The ten words of a call's frame, in the order they are pushed (R122). -/
def callWords (s : State) : List Word :=
  [s.getReg .r1, s.getReg .r2, s.getReg .r3, s.getReg .r4, s.getReg .r5, s.getReg .r6, s.getReg .r7, s.getReg .r8,
    s.getReg .ip, s.fs + 20]

/-- A call from `s` to `target` has set the registers and `fs` of `t`, and nothing else but memory and the output
log can differ (R122, R127, R128). -/
def CallRegisters (s : State) (target : Word) (t : State) : Prop :=
  t.getReg .ip = target ∧ t.getReg .sp = s.getReg .sp - 20 ∧ t.getReg .fp = s.getReg .sp - 20 ∧ t.fs = 0 ∧
  (∀ r, r ∉ [Reg.ip, .sp, .fp] → t.getReg r = s.getReg r) ∧ t.status = s.status ∧ t.cfg = s.cfg ∧
  t.regions = s.regions ∧ t.started = s.started

/-- The frame that a call from `s` to `target` leaves in `t`, laid out relative to the new `fp`, and everything else
as it was (R122, R124). -/
def FrameOpened (s : State) (target : Word) (t : State) : Prop :=
  CallRegisters s target t ∧
  t.wordRead (t.getReg .fp + 0x02) = .ok (s.fs + 20) ∧
  t.wordRead (t.getReg .fp + 0x04) = .ok (s.getReg .ip) ∧
  t.wordRead (t.getReg .fp + 0x06) = .ok (s.getReg .r8) ∧
  t.wordRead (t.getReg .fp + 0x08) = .ok (s.getReg .r7) ∧
  t.wordRead (t.getReg .fp + 0x0A) = .ok (s.getReg .r6) ∧
  t.wordRead (t.getReg .fp + 0x0C) = .ok (s.getReg .r5) ∧
  t.wordRead (t.getReg .fp + 0x0E) = .ok (s.getReg .r4) ∧
  t.wordRead (t.getReg .fp + 0x10) = .ok (s.getReg .r3) ∧
  t.wordRead (t.getReg .fp + 0x12) = .ok (s.getReg .r2) ∧
  t.wordRead (t.getReg .fp + 0x14) = .ok (s.getReg .r1) ∧ t.out = s.out ∧
  ∀ b, (∀ j < 10, b ≠ frameSlot s j ∧ b ≠ frameSlot s j + 1) → t.byteRead b = s.byteRead b

end Sys2Proof.Safety
end

