-- ==== Sys2Proof/Certificates/Slice0/Obligations.lean ====
section
/-! DEFINITION. The statements for the provers. They are about the machine at every value of its parameters: `cfg` and
`regions` are fields of the state. A statement whose hypotheses are not empty has a witness in Tests/Slice0.lean. -/

open Sys2Proof Sys2Proof.Machine Sys2Proof.Safety

/-! ## Reset -/

/-- R25: every piece of state of a constructed machine has the value of the table, and every byte that can be read
is 0x00; `sp` and `fp` exist under `Full` and start one below the end of the stack region. With the defaults `ip` is
0x0000 and `sp` and `fp` are 0xFFFE. -/
def Obligations.ConstructedMachineHasResetValues : Prop :=
  (∀ (cfg : Config) (regions : List Region),
    let s := State.construct cfg regions
    s.getReg .ip = cfg.resetIp ∧ s.getReg .acc = 0 ∧
    (∀ r ∈ [Reg.r1, .r2, .r3, .r4, .r5, .r6, .r7, .r8], s.getReg r = 0) ∧
    (∀ stack : Region, cfg.regConfig = .full → regions[cfg.stackRegion]? = some stack →
      s.getReg .sp = stack.last - 1 ∧ s.getReg .fp = stack.last - 1) ∧
    s.fs = 0 ∧ s.status = .running ∧ (∀ a b, s.byteRead a = .ok b → b = 0x00) ∧ s.out = [] ∧ s.regions = regions) ∧
  State.reset.getReg .ip = 0x0000 ∧ State.reset.getReg .sp = 0xFFFE ∧ State.reset.getReg .fp = 0xFFFE

/-- The reset state is well formed and its opcode map is injective on all 48 mnemonics (R31, R62). -/
def Obligations.ResetStateIsWellFormed : Prop :=
  WellFormed State.reset ∧ State.reset.cfg.wf

/-! ## What every step keeps -/

/-- Every step keeps the canonical form of the memory, and lists bytes of storage devices only (R31, R32). The
numbering of the cells is the model's: assumption 5. -/
def Obligations.StepKeepsStateWellFormed : Prop :=
  ∀ s t : State, WellFormed s → step s = .next t → WellFormed t

/-- No step changes the region list or the parameters (R12: fixed after setup). -/
def Obligations.StepKeepsMapAndParameters : Prop :=
  ∀ s t : State, step s = .next t → t.regions = s.regions ∧ t.cfg = s.cfg

/-- No step takes an event back from the output log or reorders it: the log before is the beginning of the log after
(R32). -/
def Obligations.OutputLogOnlyGrows : Prop :=
  ∀ s t : State, step s = .next t → ∃ events, t.out = s.out ++ events

/-- A step never refuses, and answers a fault exactly in a machine that has taken that fault before, which is
terminal (R137). That the step which raises a fault answers a next state is the model's form of R136 (assumption 3). -/
def Obligations.StepStopsOnlyAfterAFault : Prop :=
  ∀ s : State, (∃ t, step s = .next t ∧ ∀ f, s.status ≠ .faulted f) ∨
    ∃ f, s.status = .faulted f ∧ step s = .fault f

/-- A halted machine stays as it is for any number of steps: it fetches nothing and changes nothing (R131, R144). That
its step answers this state is the model's form of the result `Done`: assumption 4. The one thing a first step could
still set is the model's own mark that a step has been made (`start`): assumption 19. -/
def Obligations.HaltedMachineNeverChanges : Prop :=
  ∀ (s : State) (n : Nat), s.status = .halted →
    stepMany (n + 1) s = .next s.start ∧ (s.started = true → stepMany n s = .next s)

/-- `Halted` is entered only by HLT (R24): a step that halts a running machine fetched HLT, and changed the status
and, by its opcode fetch, `ip`. That the step also marks that a step has been made (`start`) is the model's own:
assumption 19. -/
def Obligations.OnlyHltHalts : Prop :=
  ∀ s t : State, s.status = .running → step s = .next t → t.status = .halted →
    fetchInstr s.start = .ok .hlt (s.start.setReg .ip (s.getReg .ip + 1)) ∧
      t = (s.start.setReg .ip (s.getReg .ip + 1)).setStatus .halted

/-- R23: an instruction other than the six that push or pop leaves the frame-size counter. -/
def Obligations.OnlyStackInstructionsWriteFrameCounter : Prop :=
  ∀ (i : Instr) (s t : State), i.needsStack = false → exec i s = .next t → t.fs = s.fs

/-- R20: under `Reduced` there is no `sp`, no `fp` and no `fs`: no step changes the fields that stand for them. That
there are such fields is the model's choice: assumption 9. -/
def Obligations.ReducedMachineNeverTouchesStackState : Prop :=
  ∀ s t : State, s.cfg.regConfig = .reduced → step s = .next t →
    t.getReg .sp = s.getReg .sp ∧ t.getReg .fp = s.getReg .fp ∧ t.fs = s.fs

/-- R20: under `Reduced` the six stack and subroutine instructions have no opcode: the byte that an injective map
gives one of them is unassigned, and fetching it raises `UnknownOpcode`. A step that raises a fault answers a next
state in the model's form: assumption 3. That the state also keeps that a step has been made (`start`) is the model's
own mark: assumption 19. -/
def Obligations.ReducedMachineHasNoStackOpcodes : Prop :=
  ∀ (s : State) (m : Mnemonic), s.cfg.wf → s.cfg.regConfig = .reduced → s.status = .running →
    m ∈ [Mnemonic.pshLit, .pshReg, .pop, .calLit, .calReg, .ret] →
    s.byteRead (s.getReg .ip) = .ok (s.cfg.opcodeByte m) →
    step s = .next ((s.start.setReg .ip (s.getReg .ip + 1)).takeFault (.unknownOpcode (s.cfg.opcodeByte m)))

/-- R41, R43: an instruction that makes no data write leaves every byte of memory and the output log, on every path,
a fault's included. -/
def Obligations.OnlyStoringInstructionsWriteMemory : Prop :=
  ∀ (i : Instr) (s t : State),
    i.mnemonic ∉ [Mnemonic.movRegMem, .movLitMem, .pshLit, .pshReg, .calLit, .calReg] → exec i s = .next t →
    t.out = s.out ∧ ∀ a, t.byteRead a = s.byteRead a

/-! ## Encoding -/

/-- Decode and encode agree, for every well-formed instruction of every machine with an injective opcode map, with
whatever bytes follow (R54 to R57, R60, R62). -/
def Obligations.DecodeOfEncode : Prop :=
  ∀ (cfg : Config) (i : Instr) (rest : List Byte), cfg.wf → i.wf cfg = true →
    decode cfg (encode cfg i ++ rest) = .ok (i, rest)

/-- Whatever decodes is a well-formed instruction, and its opcode alone tells how many bytes it took: 1 to 5 (R54,
R60). -/
def Obligations.DecodedInstructionIsWellFormed : Prop :=
  ∀ (cfg : Config) (bytes rest : List Byte) (i : Instr), decode cfg bytes = .ok (i, rest) →
    i.wf cfg = true ∧ bytes.length = i.mnemonic.length cfg + rest.length ∧
      1 ≤ i.mnemonic.length cfg ∧ i.mnemonic.length cfg ≤ 5

/-- R60: a register operand byte selects the register whose id is the byte modulo `REG_COUNT`; no byte faults. -/
def Obligations.RegisterByteIsReducedModuloCount : Prop :=
  ∀ (cfg : Config) (b : Byte),
    (cfg.regConfig = .full → (regOfByte cfg b).id = b.toNat % 12) ∧
    (cfg.regConfig = .reduced → (regOfByte cfg b).id = b.toNat % 10)

/-- R63: the 208 bytes that the default map leaves unassigned. -/
def Obligations.UnassignedOpcodesOfDefaultMap : Prop :=
  ∀ b : Byte, Config.default.mnemonicOf b = none ↔
    (b ≤ 0x0F ∨ b = 0x19 ∨ (0x22 ≤ b ∧ b ≤ 0x25) ∨ b = 0x28 ∨ b = 0x29 ∨ b = 0x2C ∨ b = 0x2D ∨
      (0x37 ≤ b ∧ b ≤ 0x3D) ∨ (0x4A ≤ b ∧ b ≤ 0x4F) ∨ (0x52 ≤ b ∧ b ≤ 0x5D) ∨ (0x61 ≤ b ∧ b ≤ 0xFE))

/-- Words written out byte by byte from the spec's own examples, one for each format, decode to the instruction that
the example names (R57, R62). -/
def Obligations.WrittenWordsDecode : Prop :=
  decode Config.default [0x60] = .ok (.ret, []) ∧
  decode Config.default [0x35, 0x02] = .ok (.incReg .r1, []) ∧
  decode Config.default [0x17, 0xAA, 0xAA] = .ok (.pshLit 0xAAAA, []) ∧
  decode Config.default [0x1F, 0x02, 0x03] = .ok (.subRegReg .r1 .r2, []) ∧
  decode Config.default [0x26, 0x02, 0x04] = .ok (.lsfRegLit .r1 0x0004, []) ∧
  decode Config.default [0x10, 0x12, 0x34, 0x02] = .ok (.movLitReg 0x1234 .r1, []) ∧
  decode Config.default [0x1E, 0x02, 0x00, 0x10] = .ok (.subRegLit .r1 0x0010, []) ∧
  decode Config.default [0x12, 0x02, 0x01, 0x00] = .ok (.movRegMem .r1 0x0100, []) ∧
  decode Config.default [0x13, 0x01, 0x00, 0x04] = .ok (.movMemReg 0x0100 .r3, []) ∧
  decode Config.default [0x43, 0x00, 0x10, 0x00, 0x40] = .ok (.jltLit 0x0010 0x0040, []) ∧
  decode Config.default [0x1D, 0x01, 0x00, 0x02, 0x03] = .ok (.movLitOffReg 0x0100 .r1 .r2, [])

/-! ## The step -/

/-- When the bytes at `ip` decode to an instruction, a running machine's step is that instruction's meaning in the
state whose `ip` has moved past its bytes (R17, R64, R65). The bytes are read by the very accesses that the fetch
makes: one for the opcode, then a byte or a word for each operand. That the state also keeps that a step has been made
(`start`) is the model's own mark: assumption 19. -/
def Obligations.StepRunsDecodedInstruction : Prop :=
  ∀ (s : State) (op : Byte) (m : Mnemonic) (bytes : List Byte) (i : Instr),
    s.status = .running → s.byteRead (s.getReg .ip) = .ok op → s.cfg.mnemonicOf op = some m →
    OperandsAt s (s.getReg .ip + 1) (m.kinds s.cfg) bytes → decode s.cfg (op :: bytes) = .ok (i, []) →
    step s = exec i (s.start.setReg .ip (s.getReg .ip + BitVec.ofNat 16 (1 + bytes.length)))

/-- R63, R65, R67: a fault of the opcode fetch leaves `ip`; an unassigned opcode faults after the opcode fetch and
before any operand byte is fetched. A step that raises a fault answers a next state in the model's form: assumption 3.
That the state also keeps that a step has been made (`start`) is the model's own mark: assumption 19. -/
def Obligations.OpcodeFetchFaults : Prop :=
  ∀ s : State, s.status = .running →
    (∀ f, s.byteRead (s.getReg .ip) = .error f → step s = .next (s.start.takeFault f)) ∧
    (∀ op, s.byteRead (s.getReg .ip) = .ok op → s.cfg.mnemonicOf op = none →
      step s = .next ((s.start.setReg .ip (s.getReg .ip + 1)).takeFault (.unknownOpcode op)))

/-- R63, R67, R135: the faults of fetching an instruction. The fetch raises exactly the fault of the first access that
fails, or `UnknownOpcode`, after the `n` bytes before it, 4 at most; the step then takes that fault with no other effect
on the machine than the `ip` increments of those fetches. A step that raises a fault answers a next state in the model's
form: assumption 3. That the state also keeps that a step has been made (`start`) is the model's own mark: assumption
19. -/
def Obligations.FetchFaultMovesOnlyIp : Prop :=
  ∀ s : State, s.status = .running →
    (∀ f s', fetchInstr s = .raised f s' →
      ∃ n ≤ 4, FetchFaults s f n ∧ s' = s.setReg .ip (s.getReg .ip + BitVec.ofNat 16 n)) ∧
    (∀ f n, FetchFaults s f n →
      step s = .next ((s.start.setReg .ip (s.getReg .ip + BitVec.ofNat 16 n)).takeFault f))

/-- R58 and R59: `fetch8` and `fetch16` read at `ip` and then advance `ip` by 1 and by 2, wrapping; where the access
faults they raise its fault and change nothing. -/
def Obligations.FetchPrimitivesAdvanceIp : Prop :=
  ∀ s : State,
    (∀ b, s.byteRead (s.getReg .ip) = .ok b →
      ∃ t, fetch8 s = .ok b t ∧ (t.getReg .ip).toNat = ((s.getReg .ip).toNat + 1) % 65536 ∧
        SameExceptRegs [.ip] s t) ∧
    (∀ f, s.byteRead (s.getReg .ip) = .error f → fetch8 s = .raised f s) ∧
    (∀ f, s.wordRead (s.getReg .ip) = .error f → fetch16 s = .raised f s) ∧
    (∀ w, s.wordRead (s.getReg .ip) = .ok w →
      ∃ t, fetch16 s = .ok w t ∧ (t.getReg .ip).toNat = ((s.getReg .ip).toNat + 2) % 65536 ∧
        SameExceptRegs [.ip] s t)

/-! ## The Mapper -/

/-- R29: `lookup` answers the first region, in mapping order, whose range holds the address, and none exactly where
no region does; every access there raises `AddressOutOfBounds`. -/
def Obligations.LookupFindsFirstRegion : Prop :=
  ∀ (s : State) (a : Word),
    (∀ k r, s.lookup a = some (k, r) ↔
      s.regions[k]? = some r ∧ (r.start.toNat ≤ a.toNat ∧ a.toNat ≤ r.last.toNat) ∧
        ∀ j r', j < k → s.regions[j]? = some r' → ¬ (r'.start.toNat ≤ a.toNat ∧ a.toNat ≤ r'.last.toNat)) ∧
    (s.lookup a = none ↔ ∀ r ∈ s.regions, ¬ (r.start.toNat ≤ a.toNat ∧ a.toNat ≤ r.last.toNat)) ∧
    (s.lookup a = none → s.byteRead a = .error (.addressOutOfBounds a) ∧ s.wordRead a = .error (.addressOutOfBounds a) ∧
      (∀ b, s.byteWrite a b = .error (.addressOutOfBounds a)) ∧
      ∀ v, s.wordWrite a v = .error (.addressOutOfBounds a))

/-- R31 to R33, R135: a byte access is stopped exactly by the checks of R33 in their order. In an output device a read
gives 0x00 and a write emits one event and stores nothing; in a storage device a byte that is written is read back, and
every other byte reads as before. -/
def Obligations.ByteAccessFaultsExactly : Prop :=
  ∀ (s : State) (a : Word) (b : Byte),
    (∀ f, s.byteRead a = .error f ↔ ByteFaults s a f) ∧
    (∀ f, s.byteWrite a b = .error f ↔ ByteFaults s a f) ∧
    (∀ k i, ByteInOutput s a k i → s.byteRead a = .ok 0x00 ∧
      ∃ t, s.byteWrite a b = .ok t ∧ t.out = s.out ++ [⟨k, i, b⟩] ∧ (∀ c, t.byteRead c = s.byteRead c) ∧
        t.regs = s.regs ∧ t.fs = s.fs ∧ t.status = s.status ∧ t.cfg = s.cfg ∧ t.regions = s.regions ∧
        t.started = s.started) ∧
    (ByteInStorage s a → (∃ v, s.byteRead a = .ok v) ∧
      (Memory.wf s.mem → ∃ t, s.byteWrite a b = .ok t ∧ t.byteRead a = .ok b ∧
        (∀ c, c ≠ a → t.byteRead c = s.byteRead c) ∧ t.out = s.out ∧ t.regs = s.regs ∧ t.fs = s.fs ∧
        t.status = s.status ∧ t.cfg = s.cfg ∧ t.regions = s.regions ∧ t.started = s.started))

/-- R34, R39, R135: a word access is stopped exactly by the checks of R34 in their order, before either byte. Otherwise
it reads the two bytes of a storage device, the one at the lower address as the most significant, or zero from an
output device. The second byte is the one that a byte access reads, unless another region shares its address, which R28
leaves to the caller to avoid. -/
def Obligations.WordAccessFaultsExactly : Prop :=
  ∀ (s : State) (a : Word),
    (∀ f, s.wordRead a = .error f ↔ WordFaults s a f) ∧
    (∀ v f, s.wordWrite a v = .error f ↔ WordFaults s a f) ∧
    (WordInStorage s a → ∃ w h l, s.wordRead a = .ok w ∧ w.toNat = h.toNat * 256 + l.toNat ∧
      s.byteRead a = .ok h ∧ (s.lookup (a + 1) = s.lookup a → s.byteRead (a + 1) = .ok l)) ∧
    (∀ k i, WordInOutput s a k i → s.wordRead a = .ok 0)

/-- R37: a word written to a storage region is read back, its bytes in big-endian order; in an output region the
read gives zero. -/
def Obligations.WordWriteThenReadBack : Prop :=
  ∀ (s : State) (a v : Word) (k : Nat) (r : Region), Memory.wf s.mem → a.toNat + 1 ≤ r.last.toNat →
    s.lookup a = some (k, r) → s.lookup (a + 1) = some (k, r) →
    (∀ len, r.device = .storage len → deviceIndex r a + 1 < len →
      ∃ t, s.wordWrite a v = .ok t ∧ t.wordRead a = .ok v ∧
        t.byteRead a = .ok (v.extractLsb' 8 8) ∧ t.byteRead (a + 1) = .ok (v.extractLsb' 0 8)) ∧
    (r.device = .output → ∃ t, s.wordWrite a v = .ok t ∧ t.wordRead a = .ok 0x0000)

/-! ## Move -/

/-- MOV_LIT_REG and MOV_REG_REG (R69, R70). -/
def Obligations.RegisterMovesWriteDestinationOnly : Prop :=
  ∀ (s : State) (lit : Word) (ra rd : Reg),
    (∃ t, exec (.movLitReg lit rd) s = .next t ∧ t.getReg rd = lit ∧ SameExceptRegs [rd] s t) ∧
    (∃ t, exec (.movRegReg ra rd) s = .next t ∧ t.getReg rd = s.getReg ra ∧ SameExceptRegs [rd] s t)

/-- MOV_MEM_REG, MOV_REG_PTR_REG and MOV_LIT_OFF_REG (R72, R74, R75): the word at the address, which for the indexed
form is the sum modulo 65536, goes to the destination, and nothing else changes. -/
def Obligations.LoadsWriteDestinationOnly : Prop :=
  ∀ (s : State) (addr lit w : Word) (ra rd : Reg),
    (s.wordRead addr = .ok w →
      ∃ t, exec (.movMemReg addr rd) s = .next t ∧ t.getReg rd = w ∧ SameExceptRegs [rd] s t) ∧
    (s.wordRead (s.getReg ra) = .ok w →
      ∃ t, exec (.movRegPtrReg ra rd) s = .next t ∧ t.getReg rd = w ∧ SameExceptRegs [rd] s t) ∧
    (s.wordRead (BitVec.ofNat 16 (lit.toNat + (s.getReg ra).toNat)) = .ok w →
      ∃ t, exec (.movLitOffReg lit ra rd) s = .next t ∧ t.getReg rd = w ∧ SameExceptRegs [rd] s t)

/-- MOV_REG_MEM and MOV_LIT_MEM into a storage device (R71, R73): the word is stored and no other byte, register or
event changes. -/
def Obligations.StoresWriteOneWord : Prop :=
  ∀ (s : State) (addr lit : Word) (ra : Reg), Memory.wf s.mem → WordInStorage s addr →
    (∃ t, exec (.movRegMem ra addr) s = .next t ∧ t.wordRead addr = .ok (s.getReg ra) ∧ t.fs = s.fs ∧
      SameExceptWord [] addr s t) ∧
    (∃ t, exec (.movLitMem lit addr) s = .next t ∧ t.wordRead addr = .ok lit ∧ t.fs = s.fs ∧
      SameExceptWord [] addr s t)

/-- MOV_REG_MEM and MOV_LIT_MEM into an output device (R32, R71, R73): two events, the high byte first, and no
register and no byte of memory changes. -/
def Obligations.StoresToOutputEmitTwoEvents : Prop :=
  ∀ (s : State) (addr lit : Word) (ra : Reg) (k i : Nat), WordInOutput s addr k i →
    (∃ t, exec (.movRegMem ra addr) s = .next t ∧
      t.out = s.out ++ [⟨k, i, hiByte (s.getReg ra)⟩, ⟨k, i + 1, loByte (s.getReg ra)⟩] ∧
      t.regs = s.regs ∧ t.fs = s.fs ∧ t.status = s.status ∧ t.cfg = s.cfg ∧ t.regions = s.regions ∧
      t.started = s.started ∧ ∀ a, t.byteRead a = s.byteRead a) ∧
    (∃ t, exec (.movLitMem lit addr) s = .next t ∧
      t.out = s.out ++ [⟨k, i, hiByte lit⟩, ⟨k, i + 1, loByte lit⟩] ∧
      t.regs = s.regs ∧ t.fs = s.fs ∧ t.status = s.status ∧ t.cfg = s.cfg ∧ t.regions = s.regions ∧
      t.started = s.started ∧ ∀ a, t.byteRead a = s.byteRead a)

/-- A Move whose memory access faults takes the fault and changes nothing but the status (R71 to R75, R136). A step
that raises a fault answers a next state in the model's form: assumption 3. -/
def Obligations.FaultingMovesChangeStatusOnly : Prop :=
  ∀ (s : State) (addr lit : Word) (ra rd : Reg) (f : Fault),
    (WordFaults s addr f → exec (.movRegMem ra addr) s = .next (s.takeFault f) ∧
      exec (.movLitMem lit addr) s = .next (s.takeFault f) ∧ exec (.movMemReg addr rd) s = .next (s.takeFault f)) ∧
    (WordFaults s (s.getReg ra) f → exec (.movRegPtrReg ra rd) s = .next (s.takeFault f)) ∧
    (WordFaults s (lit + s.getReg ra) f → exec (.movLitOffReg lit ra rd) s = .next (s.takeFault f)) ∧
    (s.takeFault f).status = .faulted f ∧ (s.takeFault f).fs = s.fs ∧ (s.takeFault f).out = s.out ∧
    (∀ r, (s.takeFault f).getReg r = s.getReg r) ∧ ∀ a, (s.takeFault f).byteRead a = s.byteRead a

/-! ## Arithmetic -/

/-- The three additions (R76, R78 to R80): the sum modulo 65536 goes to `acc`, and nothing else changes. -/
def Obligations.AdditionsWrapIntoAcc : Prop :=
  ∀ (s : State) (lit : Word) (ra rb : Reg),
    (∃ t, exec (.addRegReg ra rb) s = .next t ∧
      (t.getReg .acc).toNat = ((s.getReg ra).toNat + (s.getReg rb).toNat) % 65536 ∧ SameExceptRegs [.acc] s t) ∧
    (∃ t, exec (.addLitReg lit ra) s = .next t ∧
      (t.getReg .acc).toNat = (lit.toNat + (s.getReg ra).toNat) % 65536 ∧ SameExceptRegs [.acc] s t) ∧
    (∃ t, exec (.addRegLit ra lit) s = .next t ∧
      (t.getReg .acc).toNat = ((s.getReg ra).toNat + lit.toNat) % 65536 ∧ SameExceptRegs [.acc] s t)

/-- The three subtractions (R76, R77, R81 to R83): the difference modulo 65536 goes to `acc`; the minuend of a
literal form is the operand that `SUB_ORDER` says. -/
def Obligations.SubtractionsWrapIntoAcc : Prop :=
  ∀ (s : State) (lit : Word) (ra rb : Reg),
    (∃ t, exec (.subRegReg ra rb) s = .next t ∧
      ((t.getReg .acc).toNat : Int) = ((s.getReg ra).toNat - (s.getReg rb).toNat : Int) % 65536 ∧
      SameExceptRegs [.acc] s t) ∧
    (∃ t, exec (.subLitReg lit ra) s = .next t ∧
      (s.cfg.subOrder = .mnemonic → ((t.getReg .acc).toNat : Int) = (lit.toNat - (s.getReg ra).toNat : Int) % 65536) ∧
      (s.cfg.subOrder = .lineage → ((t.getReg .acc).toNat : Int) = ((s.getReg ra).toNat - lit.toNat : Int) % 65536) ∧
      SameExceptRegs [.acc] s t) ∧
    (∃ t, exec (.subRegLit ra lit) s = .next t ∧
      (s.cfg.subOrder = .mnemonic → ((t.getReg .acc).toNat : Int) = ((s.getReg ra).toNat - lit.toNat : Int) % 65536) ∧
      (s.cfg.subOrder = .lineage → ((t.getReg .acc).toNat : Int) = (lit.toNat - (s.getReg ra).toNat : Int) % 65536) ∧
      SameExceptRegs [.acc] s t)

/-- The three multiplications (R76, R84 to R86): the low 16 bits of the product go to `acc`. -/
def Obligations.MultiplicationsKeepLowHalf : Prop :=
  ∀ (s : State) (lit : Word) (ra rb : Reg),
    (∃ t, exec (.mulRegReg ra rb) s = .next t ∧
      (t.getReg .acc).toNat = ((s.getReg ra).toNat * (s.getReg rb).toNat) % 65536 ∧ SameExceptRegs [.acc] s t) ∧
    (∃ t, exec (.mulLitReg lit ra) s = .next t ∧
      (t.getReg .acc).toNat = (lit.toNat * (s.getReg ra).toNat) % 65536 ∧ SameExceptRegs [.acc] s t) ∧
    (∃ t, exec (.mulRegLit ra lit) s = .next t ∧
      (t.getReg .acc).toNat = ((s.getReg ra).toNat * lit.toNat) % 65536 ∧ SameExceptRegs [.acc] s t)

/-- INC_REG and DEC_REG (R87, R88): in place and wrapping; no other register, not even `acc`. -/
def Obligations.IncrementAndDecrementInPlace : Prop :=
  ∀ (s : State) (rd : Reg),
    (∃ t, exec (.incReg rd) s = .next t ∧
      (t.getReg rd).toNat = ((s.getReg rd).toNat + 1) % 65536 ∧ SameExceptRegs [rd] s t) ∧
    (∃ t, exec (.decReg rd) s = .next t ∧
      (t.getReg rd).toNat = ((s.getReg rd).toNat + 65535) % 65536 ∧ SameExceptRegs [rd] s t)

/-! ## Bitwise -/

/-- R89: the shift law, with every value of `SHIFT_OVERFLOW`; a shift's fault is raised with the destination
unwritten. -/
def Obligations.ShiftLaw : Prop :=
  ∀ (o : ShiftOverflow) (v n : Word),
    (n.toNat < 16 → ∃ l r, shiftWord o .left v n = .ok l ∧ l.toNat = (v.toNat * 2 ^ n.toNat) % 65536 ∧
      shiftWord o .right v n = .ok r ∧ r.toNat = v.toNat / 2 ^ n.toNat) ∧
    (16 ≤ n.toNat → ∀ d, shiftWord .zero d v n = .ok 0x0000 ∧
      shiftWord .modWidth d v n = shiftWord o d v (BitVec.ofNat 16 (n.toNat % 16)) ∧
      shiftWord .fault d v n = .error (.shiftOutOfRange n) ∧
      ∀ s rd, s.cfg.shiftOverflow = .fault → shiftReg d rd n s = .raised (.shiftOutOfRange n) s) ∧
    ∀ d, shiftWord o d v 0 = .ok v

/-- The four shifts (R91 to R94), for every amount below 16, and for every amount unless `SHIFT_OVERFLOW` is
`Fault`: the first operand register is shifted in place, as the shift law says, by the literal or by the other
register's old value, and nothing else changes. -/
def Obligations.ShiftsWriteFirstOperandOnly : Prop :=
  ∀ (s : State) (n : Word) (rd rb : Reg),
    (n.toNat < 16 ∨ s.cfg.shiftOverflow ≠ .fault →
      (∃ t w, exec (.lsfRegLit rd n) s = .next t ∧ shiftWord s.cfg.shiftOverflow .left (s.getReg rd) n = .ok w ∧
        t.getReg rd = w ∧ SameExceptRegs [rd] s t) ∧
      (∃ t w, exec (.rsfRegLit rd n) s = .next t ∧ shiftWord s.cfg.shiftOverflow .right (s.getReg rd) n = .ok w ∧
        t.getReg rd = w ∧ SameExceptRegs [rd] s t)) ∧
    ((s.getReg rb).toNat < 16 ∨ s.cfg.shiftOverflow ≠ .fault →
      (∃ t w, exec (.lsfRegReg rd rb) s = .next t ∧
        shiftWord s.cfg.shiftOverflow .left (s.getReg rd) (s.getReg rb) = .ok w ∧
        t.getReg rd = w ∧ SameExceptRegs [rd] s t) ∧
      (∃ t w, exec (.rsfRegReg rd rb) s = .next t ∧
        shiftWord s.cfg.shiftOverflow .right (s.getReg rd) (s.getReg rb) = .ok w ∧
        t.getReg rd = w ∧ SameExceptRegs [rd] s t))

/-- Under `SHIFT_OVERFLOW = Fault` a shift by 16 or more raises `ShiftOutOfRange` before the destination is written
(R89). A step that raises a fault answers a next state in the model's form: assumption 3. -/
def Obligations.OverlongShiftFaultsBeforeWrite : Prop :=
  ∀ (s : State) (n : Word) (rd rb : Reg), s.cfg.shiftOverflow = .fault →
    (16 ≤ n.toNat → exec (.lsfRegLit rd n) s = .next (s.takeFault (.shiftOutOfRange n)) ∧
      exec (.rsfRegLit rd n) s = .next (s.takeFault (.shiftOutOfRange n))) ∧
    (16 ≤ (s.getReg rb).toNat →
      exec (.lsfRegReg rd rb) s = .next (s.takeFault (.shiftOutOfRange (s.getReg rb))) ∧
      exec (.rsfRegReg rd rb) s = .next (s.takeFault (.shiftOutOfRange (s.getReg rb))))

/-- The six logical operations and NOT (R95 to R101), bit by bit: the result goes to `acc`, and nothing else
changes. -/
def Obligations.LogicalOperationsIntoAcc : Prop :=
  ∀ (s : State) (lit : Word) (ra rb : Reg),
    (∃ t, exec (.andRegLit ra lit) s = .next t ∧
      (∀ j < 16, (t.getReg .acc).getLsbD j = ((s.getReg ra).getLsbD j && lit.getLsbD j)) ∧ SameExceptRegs [.acc] s t) ∧
    (∃ t, exec (.andRegReg ra rb) s = .next t ∧
      (∀ j < 16, (t.getReg .acc).getLsbD j = ((s.getReg ra).getLsbD j && (s.getReg rb).getLsbD j)) ∧
      SameExceptRegs [.acc] s t) ∧
    (∃ t, exec (.orRegLit ra lit) s = .next t ∧
      (∀ j < 16, (t.getReg .acc).getLsbD j = ((s.getReg ra).getLsbD j || lit.getLsbD j)) ∧ SameExceptRegs [.acc] s t) ∧
    (∃ t, exec (.orRegReg ra rb) s = .next t ∧
      (∀ j < 16, (t.getReg .acc).getLsbD j = ((s.getReg ra).getLsbD j || (s.getReg rb).getLsbD j)) ∧
      SameExceptRegs [.acc] s t) ∧
    (∃ t, exec (.xorRegLit ra lit) s = .next t ∧
      (∀ j < 16, (t.getReg .acc).getLsbD j = ((s.getReg ra).getLsbD j ^^ lit.getLsbD j)) ∧ SameExceptRegs [.acc] s t) ∧
    (∃ t, exec (.xorRegReg ra rb) s = .next t ∧
      (∀ j < 16, (t.getReg .acc).getLsbD j = ((s.getReg ra).getLsbD j ^^ (s.getReg rb).getLsbD j)) ∧
      SameExceptRegs [.acc] s t) ∧
    (∃ t, exec (.notReg ra) s = .next t ∧
      (∀ j < 16, (t.getReg .acc).getLsbD j = !(s.getReg ra).getLsbD j) ∧ SameExceptRegs [.acc] s t)

/-! ## Branch -/

/-- The four equality branches (R102 to R107). -/
def Obligations.EqualityBranchesJumpOnCondition : Prop :=
  ∀ (s : State) (lit addr : Word) (ra : Reg),
    (∃ t, exec (.jmpNotEq lit addr) s = .next t ∧ JumpsIf (s.getReg .acc ≠ lit) addr s t) ∧
    (∃ t, exec (.jneReg ra addr) s = .next t ∧ JumpsIf (s.getReg .acc ≠ s.getReg ra) addr s t) ∧
    (∃ t, exec (.jeqLit lit addr) s = .next t ∧ JumpsIf (s.getReg .acc = lit) addr s t) ∧
    (∃ t, exec (.jeqReg ra addr) s = .next t ∧ JumpsIf (s.getReg .acc = s.getReg ra) addr s t)

/-- The eight ordered branches (R102, R103, R108 to R115): unsigned comparison in the order of `CMP_ORDER`. -/
def Obligations.OrderedBranchesJumpOnCondition : Prop :=
  ∀ (s : State) (lit addr : Word) (ra : Reg),
    let holds (rel : Nat → Nat → Prop) (v : Word) : Prop := Ordered s.cfg.cmpOrder rel (s.getReg .acc) v
    (∃ t, exec (.jltLit lit addr) s = .next t ∧ JumpsIf (holds (· < ·) lit) addr s t) ∧
    (∃ t, exec (.jltReg ra addr) s = .next t ∧ JumpsIf (holds (· < ·) (s.getReg ra)) addr s t) ∧
    (∃ t, exec (.jgtLit lit addr) s = .next t ∧ JumpsIf (holds (· > ·) lit) addr s t) ∧
    (∃ t, exec (.jgtReg ra addr) s = .next t ∧ JumpsIf (holds (· > ·) (s.getReg ra)) addr s t) ∧
    (∃ t, exec (.jleLit lit addr) s = .next t ∧ JumpsIf (holds (· ≤ ·) lit) addr s t) ∧
    (∃ t, exec (.jleReg ra addr) s = .next t ∧ JumpsIf (holds (· ≤ ·) (s.getReg ra)) addr s t) ∧
    (∃ t, exec (.jgeLit lit addr) s = .next t ∧ JumpsIf (holds (· ≥ ·) lit) addr s t) ∧
    (∃ t, exec (.jgeReg ra addr) s = .next t ∧ JumpsIf (holds (· ≥ ·) (s.getReg ra)) addr s t)

/-! ## Stack -/

/-- PSH_LIT and PSH_REG onto a storage device (R116, R119, R120): the word at the old `sp`, `sp` down and `fs` up by
2, and nothing else; `PSH_REG sp` pushes the old `sp`. -/
def Obligations.PushesStoreOneWord : Prop :=
  ∀ (s : State) (lit : Word) (ra : Reg), Memory.wf s.mem → WordInStorage s (s.getReg .sp) →
    (∃ t, exec (.pshLit lit) s = .next t ∧ t.wordRead (s.getReg .sp) = .ok lit ∧
      t.getReg .sp = s.getReg .sp - 2 ∧ t.fs = s.fs + 2 ∧ SameExceptWord [.sp] (s.getReg .sp) s t) ∧
    (∃ t, exec (.pshReg ra) s = .next t ∧ t.wordRead (s.getReg .sp) = .ok (s.getReg ra) ∧
      t.getReg .sp = s.getReg .sp - 2 ∧ t.fs = s.fs + 2 ∧ SameExceptWord [.sp] (s.getReg .sp) s t)

/-- PSH_LIT and PSH_REG onto an output device (R32, R47, R116): two events instead of a stored word. -/
def Obligations.PushesOntoOutputEmitEvents : Prop :=
  ∀ (s : State) (lit : Word) (ra : Reg) (k i : Nat), WordInOutput s (s.getReg .sp) k i →
    ∀ p ∈ [(Instr.pshLit lit, lit), (Instr.pshReg ra, s.getReg ra)],
      ∃ t, exec p.1 s = .next t ∧ t.out = s.out ++ [⟨k, i, hiByte p.2⟩, ⟨k, i + 1, loByte p.2⟩] ∧
        t.getReg .sp = s.getReg .sp - 2 ∧ t.fs = s.fs + 2 ∧ (∀ r, r ≠ .sp → t.getReg r = s.getReg r) ∧
        t.status = s.status ∧ t.cfg = s.cfg ∧ t.regions = s.regions ∧ t.started = s.started ∧
        ∀ a, t.byteRead a = s.byteRead a

/-- POP (R117, R121): the word above goes to the destination after `sp` has moved up by 2, so `POP sp` leaves the
popped word in `sp`; `fs` falls by 2 either way and memory keeps the word. -/
def Obligations.PopLoadsTopWord : Prop :=
  ∀ (s : State) (rd : Reg) (w : Word), s.wordRead (s.getReg .sp + 2) = .ok w →
    ∃ t, exec (.pop rd) s = .next t ∧ t.getReg rd = w ∧ (rd ≠ .sp → t.getReg .sp = s.getReg .sp + 2) ∧
      t.fs = s.fs - 2 ∧ (∀ r, r ∉ [rd, .sp] → t.getReg r = s.getReg r) ∧ t.status = s.status ∧ t.cfg = s.cfg ∧
      t.regions = s.regions ∧ t.started = s.started ∧ t.out = s.out ∧ ∀ a, t.byteRead a = s.byteRead a

/-- A push that cannot write changes neither `sp` nor `fs`; a pop that cannot read has raised `sp` and keeps `fs`
and its destination (R116, R117, R136). A step that raises a fault answers a next state in the model's form:
assumption 3. -/
def Obligations.FaultingPushAndPop : Prop :=
  ∀ (s : State) (lit : Word) (ra rd : Reg) (f : Fault),
    (WordFaults s (s.getReg .sp) f → exec (.pshLit lit) s = .next (s.takeFault f) ∧
      exec (.pshReg ra) s = .next (s.takeFault f)) ∧
    (WordFaults s (s.getReg .sp + 2) f →
      exec (.pop rd) s = .next ((s.setReg .sp (s.getReg .sp + 2)).takeFault f))

/-- R118, on storage: pushes followed by as many pops give the words back in reverse order and leave `sp` and `fs`
as they were. The words must be stored, which a push onto an output device does not do (R32), and distinct. -/
def Obligations.PopsReturnPushedWordsInReverse : Prop :=
  ∀ (words : List Word) (s : State), Memory.wf s.mem → words.length ≤ 32768 →
    (∀ j < words.length, WordInStorage s (frameSlot s j)) →
    ∃ t u, pushWords words s = .ok () t ∧ popWords words.length t = .ok words.reverse u ∧
      u.getReg .sp = s.getReg .sp ∧ u.fs = s.fs

/-! ## Subroutine -/

/-- CAL_LIT and CAL_REG whose ten words fall in storage (R122, R124, R127, R128): the frame, the new `sp`, `fp`,
`fs` and `ip`, and nothing else; the target register is read before the call changes `sp` and `fp`. -/
def Obligations.CallsOpenFrame : Prop :=
  ∀ (s : State) (addr : Word) (ra : Reg), Memory.wf s.mem → (∀ j < 10, WordInStorage s (frameSlot s j)) →
    (∃ t, exec (.calLit addr) s = .next t ∧ FrameOpened s addr t) ∧
    (∃ t, exec (.calReg ra) s = .next t ∧ FrameOpened s (s.getReg ra) t)

/-- CAL_LIT and CAL_REG on any devices, also a frame partly in storage and partly in output (R32, R47, R122, R136): if
all ten words can be written, the registers and `fs` are those of R122 and the words are stored or emitted, in push
order; if the `j`-th is the first that cannot, `sp` and `fs` have moved past the earlier ones, no other register has
changed, and the machine has faulted. A step that raises a fault answers a next state in the model's form: assumption
3. -/
def Obligations.CallsSetRegistersOnAnyDevice : Prop :=
  ∀ (s : State) (addr : Word) (ra : Reg), Memory.wf s.mem →
    ∀ p ∈ [(Instr.calLit addr, addr), (Instr.calReg ra, s.getReg ra)],
    ((∀ j < 10, ∀ f, ¬ WordFaults s (frameSlot s j) f) →
      ∃ t, exec p.1 s = .next t ∧ CallRegisters s p.2 t ∧ WordsPushed s (callWords s) t) ∧
    (∀ j f, j < 10 → (∀ i < j, ∀ g, ¬ WordFaults s (frameSlot s i) g) → WordFaults s (frameSlot s j) f →
      ∃ t, exec p.1 s = .next t ∧ t.status = .faulted f ∧ t.getReg .sp = frameSlot s j ∧
        t.fs = s.fs + BitVec.ofNat 16 (2 * j) ∧ (∀ r, r ≠ .sp → t.getReg r = s.getReg r) ∧ t.cfg = s.cfg ∧
        t.regions = s.regions ∧ t.started = s.started)

/-- CAL_LIT and CAL_REG whose ten words fall in output devices (R32, R47, R122): two events a word in push order,
the high byte first, and no byte of memory changes. -/
def Obligations.CallsOntoOutputEmitEvents : Prop :=
  ∀ (s : State) (addr : Word) (ra : Reg) (k i : Nat → Nat),
    (∀ j < 10, WordInOutput s (frameSlot s j) (k j) (i j)) →
    ∀ p ∈ [(Instr.calLit addr, addr), (Instr.calReg ra, s.getReg ra)],
      ∃ t, exec p.1 s = .next t ∧ CallRegisters s p.2 t ∧
        t.out = s.out ++ (List.range 10).flatMap (fun j =>
          [⟨k j, i j, hiByte ((callWords s).getD j 0)⟩, ⟨k j, i j + 1, loByte ((callWords s).getD j 0)⟩]) ∧
        ∀ a, t.byteRead a = s.byteRead a

/-- A call whose `j`-th push is the first that cannot write, after pushes onto any devices (R122, R135, R136): the
earlier pushes, with their words or events, `sp` and `fs`, remain; `fp`, `ip` and every other register are as they were.
A step that raises a fault answers a next state in the model's form: assumption 3. -/
def Obligations.FaultingCallKeepsCompletedPushes : Prop :=
  ∀ (s : State) (addr : Word) (ra : Reg) (j : Nat) (f : Fault), Memory.wf s.mem → j < 10 →
    (∀ i < j, ∀ g, ¬ WordFaults s (frameSlot s i) g) → WordFaults s (frameSlot s j) f →
    ∃ t, exec (.calLit addr) s = .next t ∧ exec (.calReg ra) s = .next t ∧ t.status = .faulted f ∧
      t.getReg .sp = frameSlot s j ∧ t.fs = s.fs + BitVec.ofNat 16 (2 * j) ∧
      (∀ r, r ≠ .sp → t.getReg r = s.getReg r) ∧ t.cfg = s.cfg ∧ t.regions = s.regions ∧ t.started = s.started ∧
      WordsPushed s ((callWords s).take j) t

/-- RET (R123, R129): the eleven words above `fp` give the frame size, `ip`, `r8`..`r1` and the argument count `n`,
and `n` words more are discarded by pops that must be readable. `acc` is not restored and no byte of memory changes. -/
def Obligations.ReturnRestoresFrame : Prop :=
  ∀ (s : State) (w : Nat → Word),
    (∀ j < 11, s.wordRead (wordAbove (s.getReg .fp) j) = .ok (w j)) →
    (∀ j < (w 10).toNat, ∃ x, s.wordRead (wordAbove (s.getReg .fp) (11 + j)) = .ok x) →
    ∃ t, exec .ret s = .next t ∧ t.getReg .ip = w 1 ∧ t.getReg .r8 = w 2 ∧ t.getReg .r7 = w 3 ∧
      t.getReg .r6 = w 4 ∧ t.getReg .r5 = w 5 ∧ t.getReg .r4 = w 6 ∧ t.getReg .r3 = w 7 ∧ t.getReg .r2 = w 8 ∧
      t.getReg .r1 = w 9 ∧ t.getReg .sp = s.getReg .fp + BitVec.ofNat 16 (2 * (11 + (w 10).toNat)) ∧
      t.getReg .fp = s.getReg .fp + w 0 ∧ t.fs = w 0 - BitVec.ofNat 16 (2 * (10 + (w 10).toNat)) ∧
      t.getReg .acc = s.getReg .acc ∧ t.status = s.status ∧ t.cfg = s.cfg ∧ t.regions = s.regions ∧
      t.started = s.started ∧ t.out = s.out ∧ ∀ a, t.byteRead a = s.byteRead a

/-- A RET whose `j`-th pop, counting from 0, is the first that cannot read (R123, R135, R136): `sp` addresses the
word that faulted, the registers already popped keep their new values and the later ones their old, and `fp` is
unchanged. A step that raises a fault answers a next state in the model's form: assumption 3. -/
def Obligations.FaultingReturnKeepsCompletedPops : Prop :=
  ∀ (s : State) (w : Nat → Word) (j : Nat) (f : Fault), j < 11 + (w 10).toNat →
    (∀ i < j, s.wordRead (wordAbove (s.getReg .fp) i) = .ok (w i)) → WordFaults s (wordAbove (s.getReg .fp) j) f →
    ∃ t, exec .ret s = .next t ∧ t.status = .faulted f ∧ t.getReg .sp = wordAbove (s.getReg .fp) j ∧
      t.getReg .fp = s.getReg .fp ∧ t.getReg .acc = s.getReg .acc ∧
      (j = 0 → t.fs = s.fs) ∧ (0 < j → t.fs = w 0 - BitVec.ofNat 16 (2 * (j - 1))) ∧
      (∀ i r, [Reg.ip, .r8, .r7, .r6, .r5, .r4, .r3, .r2, .r1][i]? = some r →
        (i + 1 < j → t.getReg r = w (i + 1)) ∧ (j ≤ i + 1 → t.getReg r = s.getReg r)) ∧
      t.cfg = s.cfg ∧ t.regions = s.regions ∧ t.started = s.started ∧ t.out = s.out ∧ ∀ a, t.byteRead a = s.byteRead a

/-- R126, R130: the net effect of a call whose callee returns, for a caller that pushed `N` arguments and the count
and had `fs = F0` and `sp = S0` before: `ip` is the address after the call, `r1`..`r8` are as at the call, `sp` is
`S0`, `fs` is `F0 + 2` and `fp` is `S0 + F0`, whatever `N` is. `u` is the state at the RET: the callee may have
changed everything but `fp`, the map and the words of the frame and above that the return reads. -/
def Obligations.CallThenReturnRestoresCaller : Prop :=
  ∀ (s c u : State) (S0 F0 : Word) (N : Nat) (call : Instr), Memory.wf s.mem → N < 65536 →
    (∀ j < 10, WordInStorage s (frameSlot s j)) →
    s.getReg .sp = S0 - BitVec.ofNat 16 (2 * (N + 1)) → s.fs = F0 + BitVec.ofNat 16 (2 * (N + 1)) →
    s.wordRead (wordAbove (s.getReg .sp) 0) = .ok (BitVec.ofNat 16 N) →
    (∀ j < N, ∃ x, s.wordRead (wordAbove (s.getReg .sp) (j + 1)) = .ok x) →
    (∃ addr ra, call = .calLit addr ∨ call = .calReg ra) → exec call s = .next c →
    u.getReg .fp = c.getReg .fp →
    (∀ j < 11 + N, u.wordRead (wordAbove (c.getReg .fp) j) = c.wordRead (wordAbove (c.getReg .fp) j)) →
    ∃ t, exec .ret u = .next t ∧ t.getReg .ip = s.getReg .ip ∧
      (∀ r ∈ [Reg.r1, .r2, .r3, .r4, .r5, .r6, .r7, .r8], t.getReg r = s.getReg r) ∧
      t.getReg .sp = S0 ∧ t.fs = F0 + 2 ∧ t.getReg .fp = S0 + F0 ∧ t.getReg .acc = u.getReg .acc

/-! ## Control -/

/-- HLT (R131): the status becomes `Halted`; no register, `fs`, event or byte of memory changes. -/
def Obligations.HltChangesStatusOnly : Prop :=
  ∀ s : State, ∃ t, exec .hlt s = .next t ∧ t.status = .halted ∧ t.regs = s.regs ∧ t.fs = s.fs ∧ t.out = s.out ∧
    t.cfg = s.cfg ∧ t.regions = s.regions ∧ t.started = s.started ∧ ∀ a, t.byteRead a = s.byteRead a

/-! ## The host's interface -/

/-- R24, R65, R136, R149: what a step returns to the host is the run status after it: `Continue` while running,
`Done` when halted, `Fault(f)` when that fault has been raised, now or earlier; and a stopped machine does not
change, but for the model's own mark that a step has been made (`start`): assumption 19. -/
def Obligations.HostStepReportsStatus : Prop :=
  ∀ (s t : State) (r : StepResult), hostStep s = (t, r) →
    (r = .continued ↔ t.status = .running) ∧ (r = .done ↔ t.status = .halted) ∧
      (∀ f, r = .fault f ↔ t.status = .faulted f) ∧ (s.status ≠ .running → t = s.start) ∧
      (s.status ≠ .running → s.started = true → t = s)

/-- R66: a run that gives a result has stopped, halted with `Done` or faulted with its fault, and running it on
changes nothing. The cut after a number of steps is the model's: assumption 15. -/
def Obligations.RunEndsOnlyHaltedOrFaulted : Prop :=
  ∀ (n m : Nat) (s t : State) (r : StepResult), hostRun n s = (t, some r) →
    ((t.status = .halted ∧ r = .done) ∨ ∃ f, t.status = .faulted f ∧ r = .fault f) ∧
      hostRun (n + m) s = (t, some r)

/-- R148: a loaded program reads back byte for byte, and loading changes no other byte and no register, status, counter
or event. A load is allowed only before the first step: the machine after any step, of a running machine or of one
that has stopped, refuses each load. A load that cannot store every byte answers nothing: assumption 13. The mark
that a step has been made is the model's own: assumption 19. -/
def Obligations.LoadedBytesReadBack : Prop :=
  (∀ (s t : State) (a : Word) (bytes : List Byte), Memory.wf s.mem → bytes.length ≤ 65536 →
    load s a bytes = some t →
    (∀ j b, bytes[j]? = some b → t.byteRead (a + BitVec.ofNat 16 j) = .ok b) ∧
      (∀ c, (∀ j < bytes.length, c ≠ a + BitVec.ofNat 16 j) → t.byteRead c = s.byteRead c) ∧
      t.regs = s.regs ∧ t.fs = s.fs ∧ t.status = s.status ∧ t.out = s.out ∧ t.cfg = s.cfg ∧ t.regions = s.regions ∧
      s.started = false ∧ t.started = false) ∧
  ∀ (s t : State) (a : Word) (bytes : List Byte),
    (step s = .next t → load t a bytes = none) ∧ load (hostStep s).1 a bytes = none

/-- R28, R134: when `map` fails and with which error; otherwise it appends the region. That `map` also appends a region
that overlaps an earlier one, and leaves that check to a function of its own, is the model's choice: assumption 6. -/
def Obligations.MapFailsExactly : Prop :=
  ∀ (cfg : Config) (regions : List Region) (r : Region),
    (r.last.toNat < r.start.toNat → mapRegion cfg regions r = .error (.regionInvalid r.start r.last)) ∧
    (r.start.toNat ≤ r.last.toNat → r.remap = true → deviceLength cfg r.device < r.last.toNat - r.start.toNat + 1 →
      mapRegion cfg regions r = .error (.regionTooSmall r.start r.last)) ∧
    (r.start.toNat ≤ r.last.toNat →
      (r.remap = false ∨ r.last.toNat - r.start.toNat + 1 ≤ deviceLength cfg r.device) →
      mapRegion cfg regions r = .ok (regions ++ [r]))

/-- R150: the host reads every register of the file by its name without changing anything; any other name is fatal to a
running machine. (That a name is matched letter for letter is assumption 12, and that a stopped machine keeps its status
is assumption 11.) -/
def Obligations.GetRegisterReadsByName : Prop :=
  ∀ s : State,
    (∀ p ∈ [("ip", Reg.ip), ("acc", .acc), ("r1", .r1), ("r2", .r2), ("r3", .r3), ("r4", .r4), ("r5", .r5),
        ("r6", .r6), ("r7", .r7), ("r8", .r8)], getRegister p.1 s = .ok (s.getReg p.2) s) ∧
    (s.cfg.regConfig = .full → getRegister "sp" s = .ok (s.getReg .sp) s ∧
      getRegister "fp" s = .ok (s.getReg .fp) s) ∧
    (∀ name, name ∉ ["ip", "acc", "r1", "r2", "r3", "r4", "r5", "r6", "r7", "r8", "sp", "fp"] ∨
        (s.cfg.regConfig = .reduced ∧ (name = "sp" ∨ name = "fp")) →
      s.status = .running →
      getRegister name s = .raised (.unknownRegister name) (s.setStatus (.faulted (.unknownRegister name))))

/-- R150: `view` reads every byte of the inclusive range and changes no state where every byte can be read. The first
byte in the range that cannot be read is fatal to a running machine, which takes its fault and changes in nothing else.
(That a stopped machine keeps its status is assumption 11.) -/
def Obligations.ViewReadsRange : Prop :=
  ∀ (s : State) (lo hi : Word), lo.toNat ≤ hi.toNat →
    (∀ b : Nat → Byte, (∀ j, lo.toNat + j ≤ hi.toNat → s.byteRead (lo + BitVec.ofNat 16 j) = .ok (b j)) →
      view lo hi s = .ok ((List.range (hi.toNat - lo.toNat + 1)).map b) s) ∧
    (∀ n f, lo.toNat + n ≤ hi.toNat → (∀ j < n, ∃ b, s.byteRead (lo + BitVec.ofNat 16 j) = .ok b) →
      ByteFaults s (lo + BitVec.ofNat 16 n) f → s.status = .running →
      view lo hi s = .raised f (s.setStatus (.faulted f)))

/-- R14: slot `k` of the Register File is bytes `2k` (most significant) and `2k + 1` of a 24-byte buffer, and a slot
that is set is read back. -/
def Obligations.RegisterFileBufferLayout : Prop :=
  ∀ s : State, s.cfg.regConfig = .full →
    (registerBuffer s).length = 24 ∧
    (∀ r : Reg, (registerBuffer s)[2 * r.id]? = some (hiByte (s.getReg r)) ∧
      (registerBuffer s)[2 * r.id + 1]? = some (loByte (s.getReg r))) ∧
    ∀ (r : Reg) (v : Word), (s.setReg r v).getReg r = v
end

