-- ==== Sys2Proof/Laws/State.lean ====
section
/-! SUPPORT. One lemma per field per update of the state, each true by `rfl`, so that no proof unfolds a record update,
and the laws of the Register File. -/

namespace Sys2Proof.Machine

@[simp] theorem State.setReg_cfg (s : State) (r : Reg) (v : Word) : (s.setReg r v).cfg = s.cfg := rfl
@[simp] theorem State.setReg_regions (s : State) (r : Reg) (v : Word) : (s.setReg r v).regions = s.regions := rfl
@[simp] theorem State.setReg_regs (s : State) (r : Reg) (v : Word) : (s.setReg r v).regs = s.regs.set r v := rfl
@[simp] theorem State.setReg_fs (s : State) (r : Reg) (v : Word) : (s.setReg r v).fs = s.fs := rfl
@[simp] theorem State.setReg_status (s : State) (r : Reg) (v : Word) : (s.setReg r v).status = s.status := rfl
@[simp] theorem State.setReg_started (s : State) (r : Reg) (v : Word) : (s.setReg r v).started = s.started := rfl
@[simp] theorem State.setReg_mem (s : State) (r : Reg) (v : Word) : (s.setReg r v).mem = s.mem := rfl
@[simp] theorem State.setReg_out (s : State) (r : Reg) (v : Word) : (s.setReg r v).out = s.out := rfl

@[simp] theorem State.setFs_cfg (s : State) (v : Word) : (s.setFs v).cfg = s.cfg := rfl
@[simp] theorem State.setFs_regions (s : State) (v : Word) : (s.setFs v).regions = s.regions := rfl
@[simp] theorem State.setFs_regs (s : State) (v : Word) : (s.setFs v).regs = s.regs := rfl
@[simp] theorem State.setFs_fs (s : State) (v : Word) : (s.setFs v).fs = v := rfl
@[simp] theorem State.setFs_status (s : State) (v : Word) : (s.setFs v).status = s.status := rfl
@[simp] theorem State.setFs_started (s : State) (v : Word) : (s.setFs v).started = s.started := rfl
@[simp] theorem State.setFs_mem (s : State) (v : Word) : (s.setFs v).mem = s.mem := rfl
@[simp] theorem State.setFs_out (s : State) (v : Word) : (s.setFs v).out = s.out := rfl

@[simp] theorem State.setStatus_cfg (s : State) (st : Status) : (s.setStatus st).cfg = s.cfg := rfl
@[simp] theorem State.setStatus_regions (s : State) (st : Status) : (s.setStatus st).regions = s.regions := rfl
@[simp] theorem State.setStatus_regs (s : State) (st : Status) : (s.setStatus st).regs = s.regs := rfl
@[simp] theorem State.setStatus_fs (s : State) (st : Status) : (s.setStatus st).fs = s.fs := rfl
@[simp] theorem State.setStatus_status (s : State) (st : Status) : (s.setStatus st).status = st := rfl
@[simp] theorem State.setStatus_started (s : State) (st : Status) : (s.setStatus st).started = s.started := rfl
@[simp] theorem State.setStatus_mem (s : State) (st : Status) : (s.setStatus st).mem = s.mem := rfl
@[simp] theorem State.setStatus_out (s : State) (st : Status) : (s.setStatus st).out = s.out := rfl

@[simp] theorem State.takeFault_cfg (s : State) (f : Fault) : (s.takeFault f).cfg = s.cfg := rfl
@[simp] theorem State.takeFault_regions (s : State) (f : Fault) : (s.takeFault f).regions = s.regions := rfl
@[simp] theorem State.takeFault_regs (s : State) (f : Fault) : (s.takeFault f).regs = s.regs := rfl
@[simp] theorem State.takeFault_fs (s : State) (f : Fault) : (s.takeFault f).fs = s.fs := rfl
@[simp] theorem State.takeFault_status (s : State) (f : Fault) : (s.takeFault f).status = .faulted f := rfl
@[simp] theorem State.takeFault_started (s : State) (f : Fault) : (s.takeFault f).started = s.started := rfl
@[simp] theorem State.takeFault_mem (s : State) (f : Fault) : (s.takeFault f).mem = s.mem := rfl
@[simp] theorem State.takeFault_out (s : State) (f : Fault) : (s.takeFault f).out = s.out := rfl

@[simp] theorem State.start_cfg (s : State) : s.start.cfg = s.cfg := rfl
@[simp] theorem State.start_regions (s : State) : s.start.regions = s.regions := rfl
@[simp] theorem State.start_regs (s : State) : s.start.regs = s.regs := rfl
@[simp] theorem State.start_fs (s : State) : s.start.fs = s.fs := rfl
@[simp] theorem State.start_status (s : State) : s.start.status = s.status := rfl
@[simp] theorem State.start_mem (s : State) : s.start.mem = s.mem := rfl
@[simp] theorem State.start_out (s : State) : s.start.out = s.out := rfl
@[simp] theorem State.start_started (s : State) : s.start.started = true := rfl
@[simp] theorem State.start_start (s : State) : s.start.start = s.start := rfl
/-- A machine that has made a step has nothing more to mark. -/
theorem State.start_of_started {s : State} (h : s.started = true) : s.start = s := by
  cases s
  cases h
  rfl

@[simp] theorem State.setFs_getReg (s : State) (v : Word) (r : Reg) : (s.setFs v).getReg r = s.getReg r := rfl
@[simp] theorem State.setStatus_getReg (s : State) (st : Status) (r : Reg) : (s.setStatus st).getReg r =
    s.getReg r := rfl
@[simp] theorem State.takeFault_getReg (s : State) (f : Fault) (r : Reg) : (s.takeFault f).getReg r = s.getReg r := rfl
@[simp] theorem State.start_getReg (s : State) (r : Reg) : s.start.getReg r = s.getReg r := rfl
@[simp] theorem State.start_setReg (s : State) (r : Reg) (v : Word) : (s.setReg r v).start = s.start.setReg r v := rfl

@[simp] theorem RegisterFile.get_set_same (rf : RegisterFile) (r : Reg) (v : Word) : (rf.set r v).get r = v := by
  cases r <;> rfl

theorem RegisterFile.get_set_other (rf : RegisterFile) {r r' : Reg} (v : Word) (h : r' ≠ r) :
    (rf.set r v).get r' = rf.get r' := by
  cases r <;> cases r' <;> first | rfl | exact absurd rfl h

/-- Two Register Files with equal slots are equal. -/
theorem RegisterFile.ext_get {rf rf' : RegisterFile} (h : ∀ r, rf.get r = rf'.get r) : rf = rf' := by
  cases rf; cases rf'
  simp only [RegisterFile.mk.injEq]
  exact ⟨h .ip, h .acc, h .r1, h .r2, h .r3, h .r4, h .r5, h .r6, h .r7, h .r8, h .sp, h .fp⟩

@[simp] theorem State.getReg_setReg_same (s : State) (r : Reg) (v : Word) : (s.setReg r v).getReg r = v :=
  RegisterFile.get_set_same _ _ _

theorem State.getReg_setReg_other (s : State) {r r' : Reg} (v : Word) (h : r' ≠ r) :
    (s.setReg r v).getReg r' = s.getReg r' :=
  RegisterFile.get_set_other _ _ h

/-- A register after a register write. -/
theorem State.getReg_setReg (s : State) (r r' : Reg) (v : Word) :
    (s.setReg r v).getReg r' = if r' = r then v else s.getReg r' := by
  by_cases h : r' = r
  · subst h; simp
  · simp [h, State.getReg_setReg_other s v h]

@[simp] theorem State.setAcc_eq (s : State) (v : Word) : s.setAcc v = s.setReg .acc v := rfl

/-! ## A routed write -/

@[simp] theorem State.writeTarget_cfg (s : State) (t : Target) (b : Byte) : (s.writeTarget t b).cfg = s.cfg := by
  cases t <;> rfl
@[simp] theorem State.writeTarget_regions (s : State) (t : Target) (b : Byte) :
    (s.writeTarget t b).regions = s.regions := by cases t <;> rfl
@[simp] theorem State.writeTarget_regs (s : State) (t : Target) (b : Byte) : (s.writeTarget t b).regs = s.regs := by
  cases t <;> rfl
@[simp] theorem State.writeTarget_getReg (s : State) (t : Target) (b : Byte) (r : Reg) :
    (s.writeTarget t b).getReg r = s.getReg r := by cases t <;> rfl
@[simp] theorem State.writeTarget_fs (s : State) (t : Target) (b : Byte) : (s.writeTarget t b).fs = s.fs := by
  cases t <;> rfl
@[simp] theorem State.writeTarget_status (s : State) (t : Target) (b : Byte) :
    (s.writeTarget t b).status = s.status := by cases t <;> rfl
@[simp] theorem State.writeTarget_started (s : State) (t : Target) (b : Byte) :
    (s.writeTarget t b).started = s.started := by cases t <;> rfl
@[simp] theorem State.writeTarget_cell_mem (s : State) (n : Nat) (b : Byte) :
    (s.writeTarget (.cell n) b).mem = Memory.write s.mem n b := rfl
@[simp] theorem State.writeTarget_cell_out (s : State) (n : Nat) (b : Byte) :
    (s.writeTarget (.cell n) b).out = s.out := rfl
@[simp] theorem State.writeTarget_output_mem (s : State) (k i : Nat) (b : Byte) :
    (s.writeTarget (.output k i) b).mem = s.mem := rfl
@[simp] theorem State.writeTarget_output_out (s : State) (k i : Nat) (b : Byte) :
    (s.writeTarget (.output k i) b).out = s.out ++ [⟨k, i, b⟩] := rfl

/-! ## Reading depends on the regions and the memory alone -/

theorem State.lookup_congr {s t : State} (h : t.regions = s.regions) (a : Word) : t.lookup a = s.lookup a := by
  simp [State.lookup, h]

theorem State.byteTarget_congr {s t : State} (h : t.regions = s.regions) (a : Word) :
    t.byteTarget a = s.byteTarget a := by
  simp [State.byteTarget, State.lookup_congr h]

theorem State.wordTarget_congr {s t : State} (h : t.regions = s.regions) (a : Word) :
    t.wordTarget a = s.wordTarget a := by
  simp [State.wordTarget, State.lookup_congr h]

theorem State.readTarget_congr {s t : State} (h : t.mem = s.mem) (g : Target) : t.readTarget g = s.readTarget g := by
  cases g <;> simp [State.readTarget, h]

theorem State.byteRead_congr {s t : State} (hr : t.regions = s.regions) (hm : t.mem = s.mem) (a : Word) :
    t.byteRead a = s.byteRead a := by
  simp only [State.byteRead, State.byteTarget_congr hr, State.readTarget_congr hm]

theorem State.wordRead_congr {s t : State} (hr : t.regions = s.regions) (hm : t.mem = s.mem) (a : Word) :
    t.wordRead a = s.wordRead a := by
  simp only [State.wordRead, State.wordTarget_congr hr, State.readTarget_congr hm]

@[simp] theorem State.byteRead_setReg (s : State) (r : Reg) (v a : Word) :
    (s.setReg r v).byteRead a = s.byteRead a := State.byteRead_congr rfl rfl a
@[simp] theorem State.wordRead_setReg (s : State) (r : Reg) (v a : Word) :
    (s.setReg r v).wordRead a = s.wordRead a := State.wordRead_congr rfl rfl a
@[simp] theorem State.byteRead_setFs (s : State) (v a : Word) : (s.setFs v).byteRead a = s.byteRead a :=
  State.byteRead_congr rfl rfl a
@[simp] theorem State.wordRead_setFs (s : State) (v a : Word) : (s.setFs v).wordRead a = s.wordRead a :=
  State.wordRead_congr rfl rfl a
@[simp] theorem State.byteRead_setStatus (s : State) (st : Status) (a : Word) :
    (s.setStatus st).byteRead a = s.byteRead a := State.byteRead_congr rfl rfl a
@[simp] theorem State.wordRead_setStatus (s : State) (st : Status) (a : Word) :
    (s.setStatus st).wordRead a = s.wordRead a := State.wordRead_congr rfl rfl a
@[simp] theorem State.byteRead_start (s : State) (a : Word) : s.start.byteRead a = s.byteRead a :=
  State.byteRead_congr rfl rfl a
@[simp] theorem State.wordRead_start (s : State) (a : Word) : s.start.wordRead a = s.wordRead a :=
  State.wordRead_congr rfl rfl a
@[simp] theorem State.byteRead_takeFault (s : State) (f : Fault) (a : Word) :
    (s.takeFault f).byteRead a = s.byteRead a := State.byteRead_congr rfl rfl a

/-! ## Sequencing -/

@[simp] theorem Result.andThen_ok {α β : Type} (a : α) (s : State) (k : α → State → Result β) :
    (Result.ok a s).andThen k = k a s := rfl
@[simp] theorem Result.andThen_raised {α β : Type} (f : Fault) (s : State) (k : α → State → Result β) :
    (Result.raised f s : Result α).andThen k = .raised f s := rfl
@[simp] theorem Result.finish_ok (u : Unit) (s : State) : (Result.ok u s).finish = .next s := rfl
@[simp] theorem Result.finish_raised (f : Fault) (s : State) :
    (Result.raised f s : Result Unit).finish = .next (s.takeFault f) := rfl

/-- A sequence completes exactly when its first part does and then its second. -/
theorem Result.andThen_eq_ok {α β : Type} {r : Result α} {k : α → State → Result β} {b : β} {t : State} :
    r.andThen k = .ok b t ↔ ∃ a s, r = .ok a s ∧ k a s = .ok b t := by
  cases r <;> simp [Result.andThen]

/-- A sequence raises exactly when its first part does, or completes and its second part does. -/
theorem Result.andThen_eq_raised {α β : Type} {r : Result α} {k : α → State → Result β} {f : Fault} {t : State} :
    r.andThen k = .raised f t ↔ r = .raised f t ∨ ∃ a s, r = .ok a s ∧ k a s = .raised f t := by
  cases r <;> simp [Result.andThen]

/-- Every operation's end is a next state. -/
theorem Result.finish_next (r : Result Unit) : ∃ t, r.finish = .next t := by
  cases r
  · exact ⟨_, rfl⟩
  · exact ⟨_, rfl⟩

/-- The state an operation answers with, completed or raised. -/
def Result.state {α : Type} : Result α → State
  | .ok _ s => s
  | .raised _ s => s

@[simp] theorem Result.state_ok {α : Type} (a : α) (s : State) : (Result.ok a s).state = s := rfl
@[simp] theorem Result.state_raised {α : Type} (f : Fault) (s : State) :
    (Result.raised f s : Result α).state = s := rfl

/-- What holds of the state before a sequence and is kept by each part holds after it, completed or raised: the
induction over a sequence, once. -/
theorem Result.andThen_keeps {α β : Type} {P : State → Prop} {r : Result α} {k : α → State → Result β}
    (hr : P r.state) (hk : ∀ a s, P s → P (k a s).state) : P (r.andThen k).state := by
  cases r with
  | ok a s => exact hk a s hr
  | raised f s => exact hr

end Sys2Proof.Machine
end

