-- ==== Sys2Proof/Laws/Memory.lean ====
section
/-! SUPPORT. The laws of the storage cells and of the Mapper's accesses: a read after a write, the canonical form, and
what each access can do. -/

namespace Sys2Proof.Machine

open Sys2Proof.Safety

/-! ## Cells -/

/-- A cell below every listed one is unlisted. -/
theorem Memory.read_of_below {m : Memory} {c : Nat} (h : ∀ x ∈ m, c < x.1) : Memory.read m c = Memory.unlisted := by
  induction m with
  | nil => rfl
  | cons x m ih =>
    have hx := h x (by simp)
    simp only [Memory.read]
    rw [if_neg (by omega)]
    exact ih fun y hy => h y (by simp [hy])

/-- A written cell reads as the byte written. -/
theorem Memory.read_write_same {m : Memory} (c : Nat) (v : Byte) (h : Memory.wf m) :
    Memory.read (Memory.write m c v) c = v := by
  obtain ⟨hp, -⟩ := h
  induction m with
  | nil => simp only [Memory.write]; split <;> simp_all [Memory.read]
  | cons x m ih =>
    obtain ⟨n, b⟩ := x
    have hlow : ∀ y ∈ m, n < y.1 := (List.pairwise_cons.1 hp).1
    simp only [Memory.write]
    split
    · next hc =>
      split
      · next hv =>
        rw [hv]
        exact Memory.read_of_below fun y hy => by
          rcases List.mem_cons.1 hy with rfl | hy
          · exact hc
          · exact lt_trans hc (hlow y hy)
      · simp [Memory.read]
    · split
      · next hc =>
        subst hc
        split
        · next hv => rw [hv]; exact Memory.read_of_below hlow
        · simp [Memory.read]
      · next hc =>
        simp only [Memory.read]
        rw [if_neg (by omega)]
        exact ih (List.pairwise_cons.1 hp).2

/-- Every other cell reads as before. -/
theorem Memory.read_write_other (m : Memory) {c c' : Nat} (v : Byte) (h : c' ≠ c) :
    Memory.read (Memory.write m c v) c' = Memory.read m c' := by
  induction m with
  | nil => simp only [Memory.write]; split <;> simp [Memory.read, Ne.symm h]
  | cons x m ih =>
    obtain ⟨n, b⟩ := x
    simp only [Memory.write]
    split
    · split <;> simp [Memory.read, Ne.symm h]
    · split
      · next hc => subst hc; split <;> simp [Memory.read, Ne.symm h]
      · simp [Memory.read, ih]

/-- What a write can list: what was listed, and the cell written. -/
theorem Memory.mem_write {m : Memory} {c : Nat} {v : Byte} {x : Host.Cell} (h : x ∈ Memory.write m c v) :
    x ∈ m ∨ (x = (c, v) ∧ v ≠ Memory.unlisted) := by
  induction m with
  | nil => simp only [Memory.write] at h; split at h <;> simp_all
  | cons y m ih =>
    obtain ⟨n, b⟩ := y
    simp only [Memory.write] at h
    split at h
    · split at h <;> simp_all; tauto
    · split at h
      · split at h <;> simp_all; tauto
      · rcases List.mem_cons.1 h with rfl | h
        · simp
        · rcases ih h with h | h
          · simp [h]
          · exact .inr h

/-- A write keeps the canonical form. -/
theorem Memory.write_wf {m : Memory} (c : Nat) (v : Byte) (h : Memory.wf m) : Memory.wf (Memory.write m c v) := by
  obtain ⟨hp, hz⟩ := h
  refine ⟨?_, fun x hx => ?_⟩
  · induction m with
    | nil => simp only [Memory.write]; split <;> simp
    | cons x m ih =>
      obtain ⟨n, b⟩ := x
      obtain ⟨hlow, hp'⟩ := List.pairwise_cons.1 hp
      simp only [Memory.write]
      split
      · next hc =>
        split
        · exact hp
        · refine List.pairwise_cons.2 ⟨fun y hy => ?_, hp⟩
          rcases List.mem_cons.1 hy with rfl | hy
          · exact hc
          · exact lt_trans hc (hlow y hy)
      · split
        · next hc =>
          subst hc
          split
          · exact hp'
          · exact List.pairwise_cons.2 ⟨hlow, hp'⟩
        · next hlt hne =>
          refine List.pairwise_cons.2 ⟨fun y hy => ?_, ih hp' fun y hy => hz y (by simp [hy])⟩
          rcases Memory.mem_write hy with hy | ⟨rfl, -⟩
          · exact hlow y hy
          · show n < c
            omega
  · rcases Memory.mem_write hx with hx | ⟨rfl, hv⟩
    · exact hz x hx
    · exact hv

/-- Cell numbers tell region and index apart. -/
theorem cellNumber_inj {k i k' i' : Nat} (hi : i < 0x10000) (hi' : i' < 0x10000)
    (h : cellNumber k i = cellNumber k' i') : k = k' ∧ i = i' := by
  unfold cellNumber at h
  omega

/-- The cells of a device follow one another. -/
theorem cellNumber_add (k i n : Nat) : cellNumber k (i + n) = cellNumber k i + n := by
  simp only [cellNumber, Nat.add_assoc]

/-! ## Lookup -/

/-- A lookup answers a region of the list that holds the address, under its number. -/
theorem lookupFrom_some {rs : List Region} {k j : Nat} {r : Region} {a : Word} (h : lookupFrom k rs a = some (j, r)) :
    k ≤ j ∧ rs[j - k]? = some r ∧ regionHolds r a := by
  induction rs generalizing k with
  | nil => simp [lookupFrom] at h
  | cons x rs ih =>
    simp only [lookupFrom] at h
    split at h
    · next hx => cases h; simp [hx]
    · obtain ⟨h1, h2, h3⟩ := ih h
      refine ⟨by omega, ?_, h3⟩
      have : j - k = (j - (k + 1)) + 1 := by omega
      rw [this]; simpa using h2

/-- A found region is in the list, and its range holds the address. -/
theorem State.lookup_some {s : State} {a : Word} {k : Nat} {r : Region} (h : s.lookup a = some (k, r)) :
    s.regions[k]? = some r ∧ r.start.toNat ≤ a.toNat ∧ a.toNat ≤ r.last.toNat := by
  obtain ⟨-, h2, h3⟩ := lookupFrom_some h
  simp only [regionHolds, Bool.and_eq_true, decide_eq_true_eq, BitVec.le_def] at h3
  exact ⟨by simpa using h2, h3⟩

/-- A device index never exceeds the address (R30). -/
theorem deviceIndex_le (r : Region) (a : Word) : deviceIndex r a ≤ a.toNat := by
  unfold deviceIndex
  split <;> omega

/-- In one region, device indices differ as the addresses do. -/
theorem deviceIndex_add {r : Region} {a b : Word} {n : Nat} (ha : r.start.toNat ≤ a.toNat)
    (hb : r.start.toNat ≤ b.toNat) : deviceIndex r b = deviceIndex r a + n ↔ b.toNat = a.toNat + n := by
  unfold deviceIndex
  split <;> omega

/-! ## Routing -/

theorem State.wordTarget_of_inStorage {s : State} {a : Word} (h : WordInStorage s a) :
    ∃ k r len, s.lookup a = some (k, r) ∧ r.device = .storage len ∧ a.toNat + 1 ≤ r.last.toNat ∧
      deviceIndex r a + 1 < len ∧ s.wordTarget a = .ok (.cell (cellNumber k (deviceIndex r a))) := by
  obtain ⟨k, r, len, h1, h2, h3, h4⟩ := h
  refine ⟨k, r, len, h1, h2, h3, h4, ?_⟩
  simp only [State.wordTarget, h1, h2]
  rw [if_neg (by omega), if_neg (by omega)]

theorem State.wordTarget_of_inOutput {s : State} {a : Word} {k i : Nat} (h : WordInOutput s a k i) :
    s.wordTarget a = .ok (.output k i) := by
  obtain ⟨r, h1, h2, h3, rfl⟩ := h
  simp only [State.wordTarget, h1, h2]
  rw [if_neg (by omega)]

theorem State.wordTarget_of_faults {s : State} {a : Word} {f : Fault} (h : WordFaults s a f) :
    s.wordTarget a = .error f := by
  rcases h with ⟨h1, rfl⟩ | ⟨k, r, h1, h2, rfl⟩ | ⟨k, r, len, h1, h2, h3, h4, rfl⟩
  · simp only [State.wordTarget, h1]
  · simp only [State.wordTarget, h1, if_pos h2]
  · simp only [State.wordTarget, h1, h3]
    rw [if_neg (by omega), if_pos h4]

/-- A word access is in a storage device, or in an output device, or faults; nothing else (R34). -/
theorem wordAccess_cases (s : State) (a : Word) :
    WordInStorage s a ∨ (∃ k i, WordInOutput s a k i) ∨ ∃ f, WordFaults s a f := by
  rcases h : s.lookup a with - | ⟨k, r⟩
  · exact .inr (.inr ⟨_, .inl ⟨h, rfl⟩⟩)
  · by_cases hl : r.last.toNat < a.toNat + 1
    · exact .inr (.inr ⟨_, .inr (.inl ⟨k, r, h, hl, rfl⟩)⟩)
    · rcases hd : r.device with len | -
      · by_cases hi : len ≤ deviceIndex r a + 1
        · exact .inr (.inr ⟨_, .inr (.inr ⟨k, r, len, h, by omega, hd, hi, rfl⟩)⟩)
        · exact .inl ⟨k, r, len, h, hd, by omega, by omega⟩
      · exact .inr (.inl ⟨k, _, r, h, hd, by omega, rfl⟩)

/-- Where a word access goes: two cells of one storage device, or two indices of one output device (R34). -/
theorem State.wordTarget_ok {s : State} {a : Word} {t : Target} (h : s.wordTarget a = .ok t) :
    ∃ k r, s.lookup a = some (k, r) ∧ a.toNat + 1 ≤ r.last.toNat ∧
      ((∃ len, r.device = .storage len ∧ deviceIndex r a + 1 < len ∧ t = .cell (cellNumber k (deviceIndex r a))) ∨
       (r.device = .output ∧ t = .output k (deviceIndex r a))) := by
  simp only [State.wordTarget] at h
  split at h
  · cases h
  · next k r hl =>
    split at h
    · cases h
    · next hle =>
      refine ⟨k, r, hl, by omega, ?_⟩
      split at h
      · next hd => cases h; exact .inr ⟨hd, rfl⟩
      · next len hd =>
        split at h
        · cases h
        · cases h; exact .inl ⟨len, hd, by omega, rfl⟩

/-- Where a byte access goes (R33). -/
theorem State.byteTarget_ok {s : State} {a : Word} {t : Target} (h : s.byteTarget a = .ok t) :
    ∃ k r, s.lookup a = some (k, r) ∧
      ((∃ len, r.device = .storage len ∧ deviceIndex r a < len ∧ t = .cell (cellNumber k (deviceIndex r a))) ∨
       (r.device = .output ∧ t = .output k (deviceIndex r a))) := by
  simp only [State.byteTarget] at h
  split at h
  · cases h
  · next k r hl =>
    refine ⟨k, r, hl, ?_⟩
    split at h
    · next hd => cases h; exact .inr ⟨hd, rfl⟩
    · next len hd =>
      split at h
      · cases h
      · cases h; exact .inl ⟨len, hd, by omega, rfl⟩

/-! ## Byte accesses -/

theorem State.byteTarget_of_inStorage {s : State} {a : Word} (h : ByteInStorage s a) :
    ∃ k r len, s.lookup a = some (k, r) ∧ r.device = .storage len ∧ deviceIndex r a < len ∧
      s.byteTarget a = .ok (.cell (cellNumber k (deviceIndex r a))) := by
  obtain ⟨k, r, len, h1, h2, h3⟩ := h
  refine ⟨k, r, len, h1, h2, h3, ?_⟩
  simp only [State.byteTarget, h1, h2]
  rw [if_neg (by omega)]

theorem State.byteTarget_of_inOutput {s : State} {a : Word} {k i : Nat} (h : ByteInOutput s a k i) :
    s.byteTarget a = .ok (.output k i) := by
  obtain ⟨r, h1, h2, rfl⟩ := h
  simp only [State.byteTarget, h1, h2]

theorem State.byteTarget_of_faults {s : State} {a : Word} {f : Fault} (h : ByteFaults s a f) :
    s.byteTarget a = .error f := by
  rcases h with ⟨h1, rfl⟩ | ⟨k, r, len, h1, h2, h3, rfl⟩
  · simp only [State.byteTarget, h1]
  · simp only [State.byteTarget, h1, h2, if_pos h3]

/-- A byte access is in a storage device, or in an output device, or faults; nothing else (R33). -/
theorem byteAccess_cases (s : State) (a : Word) :
    ByteInStorage s a ∨ (∃ k i, ByteInOutput s a k i) ∨ ∃ f, ByteFaults s a f := by
  rcases h : s.lookup a with - | ⟨k, r⟩
  · exact .inr (.inr ⟨_, .inl ⟨h, rfl⟩⟩)
  · rcases hd : r.device with len | -
    · by_cases hi : len ≤ deviceIndex r a
      · exact .inr (.inr ⟨_, .inr ⟨k, r, len, h, hd, hi, rfl⟩⟩)
      · exact .inl ⟨k, r, len, h, hd, by omega⟩
    · exact .inr (.inl ⟨k, _, r, h, hd, rfl⟩)

/-- A byte access that the Mapper stops is stopped by one of the checks of R33. -/
theorem byteFaults_of_target {s : State} {a : Word} {f : Fault} (h : s.byteTarget a = .error f) : ByteFaults s a f := by
  rcases byteAccess_cases s a with h' | ⟨k, i, h'⟩ | ⟨f', h'⟩
  · obtain ⟨_, _, _, -, -, -, ht⟩ := State.byteTarget_of_inStorage h'
    rw [ht] at h; cases h
  · rw [State.byteTarget_of_inOutput h'] at h; cases h
  · rw [State.byteTarget_of_faults h'] at h; cases h; exact h'

/-- Two addresses that go to one cell are the same address: a device index tells the addresses of its region apart. -/
theorem State.byteTarget_inj {s : State} {a b : Word} {n : Nat} (ha : s.byteTarget a = .ok (.cell n))
    (hb : s.byteTarget b = .ok (.cell n)) : a = b := by
  obtain ⟨k, r, hl, ⟨len, -, -, e⟩ | ⟨-, e⟩⟩ := State.byteTarget_ok ha <;> cases e
  obtain ⟨k', r', hl', ⟨len', -, -, e'⟩ | ⟨-, e'⟩⟩ := State.byteTarget_ok hb
  · have ha0 := deviceIndex_le r a
    have hb0 := deviceIndex_le r' b
    have hs := State.lookup_some hl
    have hs' := State.lookup_some hl'
    simp only [Target.cell.injEq] at e'
    obtain ⟨rfl, hi⟩ := cellNumber_inj (by have := a.isLt; omega) (by have := b.isLt; omega) e'
    obtain rfl : r = r' := by have e := hs'.1; rw [hs.1] at e; exact Option.some.inj e
    have := (deviceIndex_add (n := 0) hs.2.1 hs'.2.1).1 hi.symm
    exact (BitVec.eq_of_toNat_eq this).symm
  · cases e'

/-- A byte outside a written byte of a cell reads as before. -/
theorem State.byteRead_writeTarget_other {s : State} {a b : Word} {n : Nat} (ha : s.byteTarget a = .ok (.cell n))
    (h : b ≠ a) (v : Byte) : (s.writeTarget (.cell n) v).byteRead b = s.byteRead b := by
  simp only [State.byteRead]
  rw [State.byteTarget_congr (s := s) (by simp)]
  rcases hb : s.byteTarget b with f | ⟨n'⟩ | ⟨k, i⟩
  · rfl
  · simp only [State.readTarget, State.writeTarget_cell_mem, Except.ok.injEq]
    exact Memory.read_write_other _ _ (by rintro rfl; exact h (State.byteTarget_inj hb ha))
  · rfl

/-- The two bytes of a word in storage are what byte accesses read, the second one unless another region shares its
address (R34). -/
theorem State.byteRead_of_wordInStorage {s : State} {a : Word} (h : WordInStorage s a) :
    ∃ b c, s.wordRead a = .ok (joinBytes b c) ∧ s.byteRead a = .ok b ∧
      (s.lookup (a + 1) = s.lookup a → s.byteRead (a + 1) = .ok c) := by
  obtain ⟨k, r, len, hl, hd, hle, hlt, ht⟩ := State.wordTarget_of_inStorage h
  refine ⟨_, _, by simp only [State.wordRead, ht]; exact rfl, ?_, fun hl' => ?_⟩
  · simp only [State.byteRead, State.byteTarget, hl, hd]
    rw [if_neg (by omega)]
  · have hs := (State.lookup_some hl).2
    have hlast := r.last.isLt
    have ha : (a + 1).toNat = a.toNat + 1 := by
      rw [BitVec.toNat_add]
      show (a.toNat + 1) % 65536 = _
      omega
    have hi : deviceIndex r (a + 1) = deviceIndex r a + 1 := (deviceIndex_add hs.1 (by omega)).2 ha
    simp only [State.byteRead, State.byteTarget, hl', hl, hd, hi]
    rw [if_neg (by omega), cellNumber_add]
    rfl

/-! ## Word reads and writes -/

/-- The bytes of a word and the word of its bytes. -/
@[simp] theorem joinBytes_hi_lo (v : Word) : joinBytes (hiByte v) (loByte v) = v := by
  simp only [joinBytes, hiByte, loByte]
  ext i hi
  simp only [BitVec.getElem_append, BitVec.getElem_extractLsb']
  split
  · simp; rfl
  · simp
    have : 8 + (i - 8) = i := by omega
    rw [this]; rfl

@[simp] theorem hiByte_joinBytes (h l : Byte) : hiByte (joinBytes h l) = h := by
  simp only [joinBytes, hiByte]
  ext i hi
  have := BitVec.getLsbD_append (x := h) (y := l) (i := 8 + i)
  simp only [BitVec.getElem_extractLsb']
  exact this.trans (by simp [← BitVec.getLsbD_eq_getElem])

@[simp] theorem loByte_joinBytes (h l : Byte) : loByte (joinBytes h l) = l := by
  simp only [joinBytes, loByte]
  ext i hi
  have := BitVec.getLsbD_append (x := h) (y := l) (i := 0 + i)
  simp only [BitVec.getElem_extractLsb']
  exact this.trans (by simp [← BitVec.getLsbD_eq_getElem, hi])

/-- A word access that the Mapper routes to a cell falls in a storage device. -/
theorem wordInStorage_of_target {s : State} {a : Word} {n : Nat} (h : s.wordTarget a = .ok (.cell n)) :
    WordInStorage s a := by
  obtain ⟨k, r, hl, hle, ⟨len, hd, hlt, -⟩ | ⟨-, e⟩⟩ := State.wordTarget_ok h
  · exact ⟨k, r, len, hl, hd, hle, hlt⟩
  · cases e

/-- A word access that the Mapper routes to an output device falls in it. -/
theorem wordInOutput_of_target {s : State} {a : Word} {k i : Nat} (h : s.wordTarget a = .ok (.output k i)) :
    WordInOutput s a k i := by
  obtain ⟨k', r, hl, hle, ⟨-, -, -, e⟩ | ⟨hd, e⟩⟩ := State.wordTarget_ok h
  · cases e
  · cases e
    exact ⟨r, hl, hd, hle, rfl⟩

/-- A word access that the Mapper stops is stopped by one of the checks of R34. -/
theorem wordFaults_of_target {s : State} {a : Word} {f : Fault} (h : s.wordTarget a = .error f) :
    WordFaults s a f := by
  rcases wordAccess_cases s a with h' | ⟨k, i, h'⟩ | ⟨f', h'⟩
  · obtain ⟨_, _, _, -, -, -, -, ht⟩ := State.wordTarget_of_inStorage h'
    rw [ht] at h; cases h
  · rw [State.wordTarget_of_inOutput h'] at h; cases h
  · rw [State.wordTarget_of_faults h'] at h; cases h; exact h'

/-- What a completed word write can be: two cells of one storage device, or two output events (R34, R32). -/
theorem State.wordWrite_ok {s t : State} {a v : Word} (h : s.wordWrite a v = .ok t) :
    ∃ g, s.wordTarget a = .ok g ∧ t = (s.writeTarget g (hiByte v)).writeTarget g.succ (loByte v) := by
  simp only [State.wordWrite] at h
  split at h
  · cases h
  · next g hg => cases h; exact ⟨g, hg, rfl⟩

/-- A word write touches neither registers nor counters nor the map. -/
theorem State.wordWrite_frame {s t : State} {a v : Word} (h : s.wordWrite a v = .ok t) :
    t.cfg = s.cfg ∧ t.regions = s.regions ∧ t.regs = s.regs ∧ t.fs = s.fs ∧ t.status = s.status := by
  obtain ⟨g, -, rfl⟩ := State.wordWrite_ok h
  simp

theorem State.wordWrite_started {s t : State} {a v : Word} (h : s.wordWrite a v = .ok t) : t.started = s.started := by
  obtain ⟨g, -, rfl⟩ := State.wordWrite_ok h
  simp

/-- A read of the word just written to a storage device gives it back (R37). -/
theorem State.wordRead_wordWrite_same {s : State} {a v : Word} (hm : Memory.wf s.mem) (h : WordInStorage s a) :
    ∃ t, s.wordWrite a v = .ok t ∧ t.wordRead a = .ok v ∧ t.out = s.out ∧ Memory.wf t.mem := by
  obtain ⟨k, r, len, -, -, -, -, ht⟩ := State.wordTarget_of_inStorage h
  refine ⟨(s.writeTarget (.cell (cellNumber k (deviceIndex r a))) (hiByte v)).writeTarget
    (.cell (cellNumber k (deviceIndex r a) + 1)) (loByte v), by simp only [State.wordWrite, ht, Target.succ], ?_,
        rfl, ?_⟩
  · simp only [State.wordRead]
    rw [State.wordTarget_congr (s := s) (by simp), ht]
    simp only [State.readTarget, Target.succ, State.writeTarget_cell_mem, Except.ok.injEq]
    rw [Memory.read_write_same _ _ (Memory.write_wf _ _ hm), Memory.read_write_other _ _ (by omega),
      Memory.read_write_same _ _ hm, joinBytes_hi_lo]
  · exact Memory.write_wf _ _ (Memory.write_wf _ _ hm)

/-- Addresses of which no byte is one of the two at `a`. -/
theorem word_ne_iff {a b : Word} : (b ≠ a ∧ b ≠ a + 1) → a.toNat + 1 < 0x10000 →
    b.toNat ≠ a.toNat ∧ b.toNat ≠ a.toNat + 1 := by
  intro ⟨h1, h2⟩ h
  refine ⟨fun e => h1 (BitVec.eq_of_toNat_eq e), fun e => h2 (BitVec.eq_of_toNat_eq ?_)⟩
  rw [BitVec.toNat_add, e]
  show _ = (a.toNat + 1) % 65536
  omega

/-- A byte outside a written word reads as before. -/
theorem State.byteRead_wordWrite_other {s t : State} {a v b : Word} (h : s.wordWrite a v = .ok t) (h1 : b ≠ a)
    (h2 : b ≠ a + 1) : t.byteRead b = s.byteRead b := by
  obtain ⟨g, hg, rfl⟩ := State.wordWrite_ok h
  obtain ⟨k, r, hl, hle, hcase⟩ := State.wordTarget_ok hg
  have hlast := r.last.isLt
  have hb := word_ne_iff ⟨h1, h2⟩ (by omega)
  simp only [State.byteRead]
  rw [State.byteTarget_congr (s := s) (by simp)]
  rcases hb' : s.byteTarget b with f | g'
  · rfl
  · simp only [Except.ok.injEq]
    rcases hcase with ⟨len, hd, hlt, rfl⟩ | ⟨hd, rfl⟩
    · obtain ⟨k', r', hl', ⟨len', hd', hlt', rfl⟩ | ⟨hd', rfl⟩⟩ := State.byteTarget_ok hb'
      · have ha0 := deviceIndex_le r a
        have hb0 := deviceIndex_le r' b
        have hbl := b.isLt
        have hs := (State.lookup_some hl).2
        have hs' := (State.lookup_some hl').2
        have key : ∀ n ≤ 1, cellNumber k' (deviceIndex r' b) ≠ cellNumber k (deviceIndex r a) + n := by
          intro n hn he
          have he' : cellNumber k' (deviceIndex r' b) = cellNumber k (deviceIndex r a + n) := by
            rw [he, cellNumber_add]
          obtain ⟨rfl, hi⟩ := cellNumber_inj (by omega) (by omega) he'
          have hrr : r' = r := by
            have e1 := (State.lookup_some hl).1
            have e2 := (State.lookup_some hl').1
            rw [e1] at e2; exact (Option.some.inj e2).symm
          subst hrr
          rw [deviceIndex_add hs.1 hs'.1] at hi
          omega
        have k0 := key 0 (by omega)
        have k1 := key 1 (by omega)
        simp only [State.readTarget, State.writeTarget_cell_mem, Target.succ]
        rw [Memory.read_write_other _ _ k1, Memory.read_write_other _ _ (by omega)]
      · rfl
    · cases g' <;> rfl

/-- A word at an address two or more away from a written word reads as before. -/
theorem State.wordRead_wordWrite_other {s t : State} {a v b : Word} (h : s.wordWrite a v = .ok t)
    (h0 : b ≠ a) (h1 : b ≠ a + 1) (h2 : a ≠ b + 1) : t.wordRead b = s.wordRead b := by
  obtain ⟨g, hg, rfl⟩ := State.wordWrite_ok h
  obtain ⟨k, r, hl, hle, hcase⟩ := State.wordTarget_ok hg
  have hlast := r.last.isLt
  have hb := word_ne_iff ⟨h0, h1⟩ (by omega)
  simp only [State.wordRead]
  rw [State.wordTarget_congr (s := s) (by simp)]
  rcases hb' : s.wordTarget b with f | g'
  · rfl
  · simp only [Except.ok.injEq]
    rcases hcase with ⟨len, hd, hlt, rfl⟩ | ⟨hd, rfl⟩
    · obtain ⟨k', r', hl', hle', ⟨len', hd', hlt', rfl⟩ | ⟨hd', rfl⟩⟩ := State.wordTarget_ok hb'
      · have ha0 := deviceIndex_le r a
        have hb0 := deviceIndex_le r' b
        have hlast' := r'.last.isLt
        have ha' := word_ne_iff ⟨Ne.symm h0, h2⟩ (by omega)
        have hs := (State.lookup_some hl).2
        have hs' := (State.lookup_some hl').2
        have key : ∀ n ≤ 1, ∀ n' ≤ 1,
            cellNumber k' (deviceIndex r' b) + n' ≠ cellNumber k (deviceIndex r a) + n := by
          intro n hn n' hn' he
          have he' : cellNumber k' (deviceIndex r' b + n') = cellNumber k (deviceIndex r a + n) := by
            rw [cellNumber_add, cellNumber_add, he]
          obtain ⟨rfl, hi⟩ := cellNumber_inj (by omega) (by omega) he'
          have hrr : r' = r := by
            have e1 := (State.lookup_some hl).1
            have e2 := (State.lookup_some hl').1
            rw [e1] at e2; exact (Option.some.inj e2).symm
          subst hrr
          have := (deviceIndex_add (n := 0) hs.1 hs'.1)
          have := (deviceIndex_add (n := 1) hs.1 hs'.1)
          have := (deviceIndex_add (n := 1) hs'.1 hs.1)
          omega
        have k00 : cellNumber k' (deviceIndex r' b) ≠ cellNumber k (deviceIndex r a) := by
          simpa using key 0 (by omega) 0 (by omega)
        have k01 := key 0 (by omega) 1 (by omega)
        have k10 : cellNumber k' (deviceIndex r' b) ≠ cellNumber k (deviceIndex r a) + 1 := by
          simpa using key 1 (by omega) 0 (by omega)
        have k11 := key 1 (by omega) 1 (by omega)
        simp only [State.readTarget, State.writeTarget_cell_mem, Target.succ]
        rw [Memory.read_write_other _ _ k10, Memory.read_write_other _ _ (by omega),
          Memory.read_write_other _ _ k11, Memory.read_write_other _ _ (by omega)]
      · rfl
    · cases g' <;> rfl

end Sys2Proof.Machine
end

