-- ==== Sys2Proof/Laws/Ops.lean ====
section
/-! SUPPORT. For each shared operation, once, everything it can do: completed, or raised with the state it leaves.
A proof cites these and does not unfold the operation. -/

namespace Sys2Proof.Machine

open Sys2Proof.Safety

/-- A register write changes that register alone. -/
theorem sameExceptRegs_setReg (s : State) (r : Reg) (v : Word) : SameExceptRegs [r] s (s.setReg r v) :=
  ⟨fun _ h => State.getReg_setReg_other _ _ (by simpa using h), rfl, rfl, rfl, rfl, rfl, rfl, fun a => by simp⟩

/-! ## Data accesses -/

theorem readWord_eq_ok {a w : Word} {s t : State} : readWord a s = .ok w t ↔ s.wordRead a = .ok w ∧ t = s := by
  unfold readWord
  grind

theorem readWord_eq_raised {a : Word} {f : Fault} {s t : State} :
    readWord a s = .raised f t ↔ s.wordRead a = .error f ∧ t = s := by
  unfold readWord
  grind

theorem writeWord_eq_ok {a v : Word} {u : Unit} {s t : State} :
    writeWord a v s = .ok u t ↔ s.wordWrite a v = .ok t := by
  unfold writeWord
  split <;> simp_all

theorem writeWord_eq_raised {a v : Word} {f : Fault} {s t : State} :
    writeWord a v s = .raised f t ↔ s.wordWrite a v = .error f ∧ t = s := by
  unfold writeWord
  grind

theorem loadWord_eq_ok {a : Word} {rd : Reg} {u : Unit} {s t : State} :
    loadWord a rd s = .ok u t ↔ ∃ w, s.wordRead a = .ok w ∧ t = s.setReg rd w := by
  simp only [loadWord, Result.andThen_eq_ok, readWord_eq_ok]
  constructor
  · rintro ⟨w, _, ⟨h, rfl⟩, h'⟩
    cases h'; exact ⟨w, h, rfl⟩
  · rintro ⟨w, h, rfl⟩
    exact ⟨w, s, ⟨h, rfl⟩, rfl⟩

theorem loadWord_eq_raised {a : Word} {rd : Reg} {f : Fault} {s t : State} :
    loadWord a rd s = .raised f t ↔ s.wordRead a = .error f ∧ t = s := by
  simp [loadWord, Result.andThen_eq_raised, readWord_eq_raised]

/-- A read that the checks of R34 stop. -/
theorem State.wordRead_of_faults {s : State} {a : Word} {f : Fault} (h : WordFaults s a f) :
    s.wordRead a = .error f := by
  simp only [State.wordRead, State.wordTarget_of_faults h]

/-- A write that the checks of R34 stop. -/
theorem State.wordWrite_of_faults {s : State} {a : Word} {f : Fault} (h : WordFaults s a f) (v : Word) :
    s.wordWrite a v = .error f := by
  simp only [State.wordWrite, State.wordTarget_of_faults h]

/-- A read of an output device gives zero (R32). -/
theorem State.wordRead_of_inOutput {s : State} {a : Word} {k i : Nat} (h : WordInOutput s a k i) :
    s.wordRead a = .ok 0 := by
  simp only [State.wordRead, State.wordTarget_of_inOutput h, State.readTarget, Target.succ]
  rfl

/-- A write to an output device appends two events, the high byte first, and nothing else (R32, R34). -/
theorem State.wordWrite_of_inOutput {s : State} {a : Word} {k i : Nat} (h : WordInOutput s a k i) (v : Word) :
    s.wordWrite a v = .ok { s with out := s.out ++ [⟨k, i, hiByte v⟩, ⟨k, i + 1, loByte v⟩] } := by
  simp only [State.wordWrite, State.wordTarget_of_inOutput h, State.writeTarget, Target.succ, List.append_assoc,
    List.cons_append, List.nil_append]

/-- A word of a storage device can be read. -/
theorem State.wordRead_of_inStorage {s : State} {a : Word} (h : WordInStorage s a) : ∃ w, s.wordRead a = .ok w := by
  obtain ⟨k, r, len, -, -, -, -, ht⟩ := State.wordTarget_of_inStorage h
  simp only [State.wordRead, ht]
  exact ⟨_, rfl⟩

/-- Whether a word is in storage depends on the map alone. -/
theorem wordInStorage_congr {s t : State} (h : t.regions = s.regions) {a : Word} :
    WordInStorage t a ↔ WordInStorage s a := by
  simp only [WordInStorage, State.lookup_congr h]

/-! ## Stack primitives -/

/-- A push writes the word at `sp`, then lowers `sp` and raises `fs` by 2 (R116). -/
theorem push_eq_ok {v : Word} {u : Unit} {s t : State} :
    push v s = .ok u t ↔ ∃ s1, s.wordWrite (s.getReg .sp) v = .ok s1 ∧
      t = (s1.setReg .sp (s.getReg .sp - 2)).setFs (s.fs + 2) := by
  simp only [push, Result.andThen_eq_ok, writeWord_eq_ok]
  constructor
  · rintro ⟨_, s1, h, h'⟩
    cases h'
    obtain ⟨-, -, h2, h3, -⟩ := State.wordWrite_frame h
    exact ⟨s1, h, by simp only [State.getReg, h2, h3]⟩
  · rintro ⟨s1, h, rfl⟩
    obtain ⟨-, -, h2, h3, -⟩ := State.wordWrite_frame h
    exact ⟨(), s1, h, by simp only [State.getReg, h2, h3]⟩

/-- A faulting push changes nothing (R116). -/
theorem push_eq_raised {v : Word} {f : Fault} {s t : State} :
    push v s = .raised f t ↔ s.wordWrite (s.getReg .sp) v = .error f ∧ t = s := by
  simp [push, Result.andThen_eq_raised, writeWord_eq_raised]

/-- A pop raises `sp` by 2, reads the word there and lowers `fs` by 2 (R117). -/
theorem pop_eq_ok {w : Word} {s t : State} :
    pop s = .ok w t ↔ s.wordRead (s.getReg .sp + 2) = .ok w ∧
      t = (s.setReg .sp (s.getReg .sp + 2)).setFs (s.fs - 2) := by
  simp only [pop, Result.andThen_eq_ok, readWord_eq_ok, State.getReg_setReg_same, State.wordRead_setReg]
  constructor
  · rintro ⟨_, _, ⟨h, rfl⟩, h'⟩
    cases h'; exact ⟨h, rfl⟩
  · rintro ⟨h, rfl⟩
    exact ⟨w, _, ⟨h, rfl⟩, rfl⟩

/-- A faulting pop has raised `sp` and changed nothing else (R117). -/
theorem pop_eq_raised {f : Fault} {s t : State} :
    pop s = .raised f t ↔ s.wordRead (s.getReg .sp + 2) = .error f ∧ t = s.setReg .sp (s.getReg .sp + 2) := by
  simp [pop, Result.andThen_eq_raised, readWord_eq_raised]

/-! ## Shifts -/

theorem shiftReg_eq_ok {d : ShiftDir} {rd : Reg} {n : Word} {u : Unit} {s t : State} :
    shiftReg d rd n s = .ok u t ↔
      ∃ v, shiftWord s.cfg.shiftOverflow d (s.getReg rd) n = .ok v ∧ t = s.setReg rd v := by
  unfold shiftReg
  grind

/-- A shift's fault leaves the destination unwritten (R89). -/
theorem shiftReg_eq_raised {d : ShiftDir} {rd : Reg} {n : Word} {f : Fault} {s t : State} :
    shiftReg d rd n s = .raised f t ↔
      shiftWord s.cfg.shiftOverflow d (s.getReg rd) n = .error f ∧ t = s := by
  unfold shiftReg
  grind

/-- When a shift faults: an amount of 16 or more under `SHIFT_OVERFLOW = Fault`, and never else (R89). -/
theorem shiftWord_eq_error {o : ShiftOverflow} {d : ShiftDir} {v n : Word} {f : Fault} :
    shiftWord o d v n = .error f ↔ 16 ≤ n.toNat ∧ o = .fault ∧ f = .shiftOutOfRange n := by
  unfold shiftWord
  split
  · simp only [reduceCtorEq, false_iff]
    omega
  · split <;> grind

/-! ## Fetch primitives -/

/-- `fetch8` reads the byte at `ip` and advances `ip` by 1 (R58). -/
theorem fetch8_eq_ok {b : Byte} {s t : State} :
    fetch8 s = .ok b t ↔ s.byteRead (s.getReg .ip) = .ok b ∧ t = s.setReg .ip (s.getReg .ip + 1) := by
  unfold fetch8
  grind

theorem fetch8_eq_raised {f : Fault} {s t : State} :
    fetch8 s = .raised f t ↔ s.byteRead (s.getReg .ip) = .error f ∧ t = s := by
  unfold fetch8
  grind

/-- `fetch16` reads the word at `ip` and advances `ip` by 2 (R59). -/
theorem fetch16_eq_ok {w : Word} {s t : State} :
    fetch16 s = .ok w t ↔ s.wordRead (s.getReg .ip) = .ok w ∧ t = s.setReg .ip (s.getReg .ip + 2) := by
  unfold fetch16
  grind

theorem fetch16_eq_raised {f : Fault} {s t : State} :
    fetch16 s = .raised f t ↔ s.wordRead (s.getReg .ip) = .error f ∧ t = s := by
  unfold fetch16
  grind

end Sys2Proof.Machine
end

