-- ==== Sys2Proof/Laws/Fetch.lean ====
section
/-! SUPPORT. What fetching an instruction can do, and what its decoder answers. -/

namespace Sys2Proof

/-- The decoder answers an instruction of the mnemonic it was given. -/
theorem decodeFields_mnemonic (cfg : Config) (m : Mnemonic) (bs : List Byte) : (decodeFields cfg m bs).mnemonic =
    m := by
  cases m <;> rfl

/-- An opcode that selects a mnemonic is its byte in the map, and the mnemonic exists under `REG_CONFIG` (R20, R62). -/
theorem mnemonicOf_supports {cfg : Config} {op : Byte} {m : Mnemonic} (h : cfg.mnemonicOf op = some m) :
    cfg.supports m = true ∧ (m, op) ∈ cfg.opcodeMap := by
  simp only [Config.mnemonicOf, Option.map_eq_some_iff] at h
  obtain ⟨⟨m', b⟩, h, rfl⟩ := h
  have h1 := List.find?_some h
  have h2 := List.mem_of_find?_eq_some h
  simp only [Bool.and_eq_true, beq_iff_eq] at h1
  obtain ⟨rfl, h1⟩ := h1
  exact ⟨h1, h2⟩

theorem regOfId_present {n : Nat} (h : n < 10) : regOfId n ≠ .sp ∧ regOfId n ≠ .fp := by
  interval_cases n <;> decide

/-- A register byte never selects a register that the Register File does not have (R60). -/
theorem regOfByte_present (cfg : Config) (b : Byte) : (regOfByte cfg b).present cfg.regConfig = true := by
  unfold regOfByte Config.regCount
  cases hc : cfg.regConfig
  · cases regOfId _ <;> rfl
  · obtain ⟨h1, h2⟩ := regOfId_present (n := b.toNat % 10) (by omega)
    revert h1 h2
    cases regOfId _ <;> simp [Reg.present]

theorem supported_eq (cfg : Config) (i : Instr) : i.supported cfg = cfg.supports i.mnemonic := by
  cases i <;> rfl

theorem decodeFields_registersPresent (cfg : Config) (m : Mnemonic) (bs : List Byte) :
    (decodeFields cfg m bs).registersPresent cfg = true := by
  have hp := regOfByte_present cfg
  cases m <;> simp only [decodeFields, Instr.registersPresent, Instr.registers, List.all_cons, List.all_nil, hp,
      Bool.and_true]

theorem decodeFields_literalFits (cfg : Config) (m : Mnemonic) (bs : List Byte) :
    (decodeFields cfg m bs).literalFits cfg = true := by
  have hlit : ∀ b2 b3, (cfg.shiftLitWidth == .bits16 || decide ((shiftLiteral cfg b2 b3).toNat < 256)) = true := by
    intro b2 b3
    cases hw : cfg.shiftLitWidth
    · simp only [shiftLiteral, hw]
      have := b2.isLt
      simp; omega
    · rfl
  cases m
  case lsfRegLit => exact hlit _ _
  case rsfRegLit => exact hlit _ _
  all_goals rfl

/-- Whatever decodes is an instruction of the machine. -/
theorem decodeFields_wf {cfg : Config} {m : Mnemonic} (h : cfg.supports m = true) (bs : List Byte) :
    (decodeFields cfg m bs).wf cfg = true := by
  simp only [Instr.wf, decodeFields_registersPresent, decodeFields_literalFits, supported_eq,
      decodeFields_mnemonic, h, Bool.and_true]

/-- No instruction has more than four operand bytes (R54). -/
theorem operandSize_le (cfg : Config) (m : Mnemonic) : m.operandSize cfg ≤ 4 := by
  unfold Mnemonic.operandSize
  cases m <;> first | decide | (unfold Mnemonic.kinds; cases cfg.shiftLitWidth <;> decide)

namespace Machine

open Sys2Proof.Safety

theorem State.setReg_setReg (s : State) (r : Reg) (v w : Word) : (s.setReg r v).setReg r w = s.setReg r w := by
  cases r <;> rfl

theorem State.setReg_getReg (s : State) (r : Reg) : s.setReg r (s.getReg r) = s := by
  cases r <;> rfl

/-- A fetched operand: `ip` moves past its bytes. -/
theorem fetchOperand_eq_ok {k : OperandKind} {bs : List Byte} {s t : State} (h : fetchOperand k s = .ok bs t) :
    t = s.setReg .ip (s.getReg .ip + BitVec.ofNat 16 k.size) ∧ bs.length = k.size := by
  cases k <;> simp only [fetchOperand, Result.andThen_eq_ok, fetch8_eq_ok, fetch16_eq_ok] at h <;>
    obtain ⟨_, _, ⟨-, rfl⟩, h'⟩ := h <;> cases h' <;> exact ⟨rfl, rfl⟩

/-- An operand cannot be fetched exactly where its access faults, and leaves the state (R58, R59). -/
theorem fetchOperand_eq_raised {k : OperandKind} {f : Fault} {s t : State} :
    fetchOperand k s = .raised f t ↔ OperandFaults s (s.getReg .ip) k f ∧ t = s := by
  cases k <;> simp [fetchOperand, OperandFaults, Result.andThen_eq_raised, fetch8_eq_raised, fetch16_eq_raised]

/-- Fetched operands: `ip` moves past their bytes and nothing else changes. -/
theorem fetchOperands_eq_ok {ks : List OperandKind} {bs : List Byte} {s t : State}
    (h : fetchOperands ks s = .ok bs t) :
    t = s.setReg .ip (s.getReg .ip + BitVec.ofNat 16 (ks.map OperandKind.size).sum) ∧
      bs.length = (ks.map OperandKind.size).sum := by
  induction ks generalizing s bs t with
  | nil => cases h; simp [State.setReg_getReg]
  | cons k ks ih =>
    simp only [fetchOperands, Result.andThen_eq_ok] at h
    obtain ⟨b1, s1, h1, b2, s2, h2, h3⟩ := h
    cases h3
    obtain ⟨rfl, e1⟩ := fetchOperand_eq_ok h1
    obtain ⟨rfl, e2⟩ := ih h2
    simp only [State.setReg_setReg, State.getReg_setReg_same, List.map_cons, List.sum_cons, List.length_append, e1,
        e2, and_true]
    rw [BitVec.ofNat_add, BitVec.add_assoc]

/-- A fetched instruction (R64, R65): its opcode, its operand bytes, and `ip` past them. -/
theorem fetchInstr_eq_ok {i : Instr} {s t : State} (h : fetchInstr s = .ok i t) :
    ∃ op m bs, s.byteRead (s.getReg .ip) = .ok op ∧ s.cfg.mnemonicOf op = some m ∧
      bs.length = m.operandSize s.cfg ∧ i = decodeFields s.cfg m bs ∧
      t = s.setReg .ip (s.getReg .ip + BitVec.ofNat 16 (m.length s.cfg)) := by
  simp only [fetchInstr, Result.andThen_eq_ok] at h
  obtain ⟨op, s1, h1, h⟩ := h
  obtain ⟨hop, rfl⟩ := fetch8_eq_ok.1 h1
  split at h
  · cases h
  · next m hm =>
    obtain ⟨bs, s2, h2, h3⟩ := Result.andThen_eq_ok.1 h
    cases h3
    obtain ⟨rfl, hl⟩ := fetchOperands_eq_ok h2
    refine ⟨op, m, bs, hop, hm, hl, rfl, ?_⟩
    simp only [State.setReg_setReg, State.getReg_setReg_same, Mnemonic.length, Mnemonic.operandSize,
        State.setReg_cfg, BitVec.ofNat_add, BitVec.add_assoc]
    rfl

/-- Which bytes stand in memory depends on the regions and the memory alone. -/
theorem operandsAt_congr {s t : State} (hr : t.regions = s.regions) (hm : t.mem = s.mem) (ks : List OperandKind) :
    ∀ a bs, OperandsAt t a ks bs ↔ OperandsAt s a ks bs := by
  induction ks with
  | nil => intro a bs; rfl
  | cons k ks ih =>
    intro a bs
    cases k with
    | reg => cases bs <;> simp [OperandsAt, State.byteRead_congr hr hm, ih]
    | lit8 => cases bs <;> simp [OperandsAt, State.byteRead_congr hr hm, ih]
    | lit16 =>
      match bs with
      | [] => simp [OperandsAt]
      | [b] => simp [OperandsAt]
      | h :: l :: bs => simp [OperandsAt, State.wordRead_congr hr hm, ih]

/-- Operand bytes that stand at `ip` are fetched. -/
theorem fetchOperands_of_at {ks : List OperandKind} {bs : List Byte} {s : State}
    (h : OperandsAt s (s.getReg .ip) ks bs) :
    fetchOperands ks s = .ok bs (s.setReg .ip (s.getReg .ip + BitVec.ofNat 16 bs.length)) := by
  induction ks generalizing s bs with
  | nil => simp only [OperandsAt] at h; subst h; simp [fetchOperands, State.setReg_getReg]
  | cons k ks ih =>
    have key : ∀ n, OperandsAt s (s.getReg .ip + n) ks =
        OperandsAt (s.setReg .ip (s.getReg .ip + n)) ((s.setReg .ip (s.getReg .ip + n)).getReg .ip) ks := by
      intro n; funext bs
      rw [State.getReg_setReg_same]
      exact propext (operandsAt_congr (s := s) (t := s.setReg .ip (s.getReg .ip + n)) rfl rfl ks _ _).symm
    cases k with
    | reg =>
      match bs with
      | [] => simp [OperandsAt] at h
      | b :: bs =>
        simp only [OperandsAt] at h
        rw [key] at h
        simp only [fetchOperands, fetchOperand, fetch8_eq_ok.2 ⟨h.1, rfl⟩, Result.andThen_ok, ih h.2,
            State.setReg_setReg, State.getReg_setReg_same]
        simp only [List.cons_append, List.nil_append, List.length_cons, Nat.add_comm bs.length 1, BitVec.ofNat_add,
            BitVec.add_assoc]
        rfl
    | lit8 =>
      match bs with
      | [] => simp [OperandsAt] at h
      | b :: bs =>
        simp only [OperandsAt] at h
        rw [key] at h
        simp only [fetchOperands, fetchOperand, fetch8_eq_ok.2 ⟨h.1, rfl⟩, Result.andThen_ok, ih h.2,
            State.setReg_setReg, State.getReg_setReg_same]
        simp only [List.cons_append, List.nil_append, List.length_cons, Nat.add_comm bs.length 1, BitVec.ofNat_add,
            BitVec.add_assoc]
        rfl
    | lit16 =>
      match bs with
      | [] => simp [OperandsAt] at h
      | [b] => simp [OperandsAt] at h
      | b :: c :: bs =>
        simp only [OperandsAt] at h
        rw [key] at h
        simp only [fetchOperands, fetchOperand, fetch16_eq_ok.2 ⟨h.1, rfl⟩, Result.andThen_ok, ih h.2,
            State.setReg_setReg, State.getReg_setReg_same, hiByte_joinBytes, loByte_joinBytes]
        have : bs.length + 1 + 1 = 2 + bs.length := by omega
        simp only [List.cons_append, List.nil_append, List.length_cons, this, BitVec.ofNat_add, BitVec.add_assoc]
        rfl

/-- An operand that is fetched stands at `ip`. -/
theorem fetchOperand_at {k : OperandKind} {bs : List Byte} {s t : State} (h : fetchOperand k s = .ok bs t) :
    OperandsAt s (s.getReg .ip) [k] bs := by
  cases k <;> simp only [fetchOperand, Result.andThen_eq_ok, fetch8_eq_ok, fetch16_eq_ok] at h <;>
    obtain ⟨_, _, ⟨h, rfl⟩, h'⟩ := h <;> cases h' <;> simp [OperandsAt, h]

/-- Operands one after the other. -/
theorem operandsAt_append {ks ks' : List OperandKind} {bs bs' : List Byte} {s : State} {a : Word}
    (h : OperandsAt s a ks bs) (h' : OperandsAt s (a + BitVec.ofNat 16 bs.length) ks' bs') :
    OperandsAt s a (ks ++ ks') (bs ++ bs') := by
  induction ks generalizing a bs with
  | nil => simp only [OperandsAt] at h; subst h; simpa using h'
  | cons k ks ih =>
    cases k with
    | reg | lit8 =>
      match bs with
      | [] => simp [OperandsAt] at h
      | b :: bs =>
        simp only [OperandsAt, List.cons_append] at h ⊢
        refine ⟨h.1, ih h.2 ?_⟩
        rwa [List.length_cons, Nat.add_comm, BitVec.ofNat_add, ← BitVec.add_assoc] at h'
    | lit16 =>
      match bs with
      | [] => simp [OperandsAt] at h
      | [b] => simp [OperandsAt] at h
      | b :: c :: bs =>
        simp only [OperandsAt, List.cons_append] at h ⊢
        refine ⟨h.1, ih h.2 ?_⟩
        rwa [List.length_cons, List.length_cons, show bs.length + 1 + 1 = 2 + bs.length by omega, BitVec.ofNat_add,
          ← BitVec.add_assoc] at h'

/-- Whether an operand's access faults depends on the regions and the memory alone. -/
theorem operandFaults_congr {s t : State} (hr : t.regions = s.regions) (hm : t.mem = s.mem) {a : Word} {k : OperandKind}
    {f : Fault} : OperandFaults t a k f ↔ OperandFaults s a k f := by
  cases k <;> simp [OperandFaults, State.byteRead_congr hr hm, State.wordRead_congr hr hm]

@[simp] theorem operandsAt_setReg (s : State) (r : Reg) (v a : Word) (ks : List OperandKind) (bs : List Byte) :
    OperandsAt (s.setReg r v) a ks bs ↔ OperandsAt s a ks bs :=
  operandsAt_congr (s := s) (t := s.setReg r v) rfl rfl ks a bs
@[simp] theorem operandsAt_start (s : State) (a : Word) (ks : List OperandKind) (bs : List Byte) :
    OperandsAt s.start a ks bs ↔ OperandsAt s a ks bs := operandsAt_congr (s := s) (t := s.start) rfl rfl ks a bs
@[simp] theorem operandFaults_setReg (s : State) (r : Reg) (v a : Word) (k : OperandKind) (f : Fault) :
    OperandFaults (s.setReg r v) a k f ↔ OperandFaults s a k f := operandFaults_congr (s := s) rfl rfl
@[simp] theorem operandFaults_start (s : State) (a : Word) (k : OperandKind) (f : Fault) :
    OperandFaults s.start a k f ↔ OperandFaults s a k f := operandFaults_congr (s := s) rfl rfl

/-- A run of operand fetches, cut in two. -/
theorem fetchOperands_append (ks ks' : List OperandKind) (s : State) :
    fetchOperands (ks ++ ks') s = (fetchOperands ks s).andThen fun bs s =>
      (fetchOperands ks' s).andThen fun bs' s => .ok (bs ++ bs') s := by
  induction ks generalizing s with
  | nil => cases h : fetchOperands ks' s <;> simp [fetchOperands, h]
  | cons k ks ih =>
    simp only [List.cons_append, fetchOperands]
    cases fetchOperand k s with
    | raised f s => rfl
    | ok b s =>
      simp only [Result.andThen_ok, ih]
      cases fetchOperands ks s with
      | raised f s => rfl
      | ok bs s =>
        simp only [Result.andThen_ok]
        cases fetchOperands ks' s <;> simp

/-- Operands cannot be fetched exactly where one of them faults after those before it have been read; `ip` has moved
past those (R67, R135). -/
theorem fetchOperands_eq_raised {ks : List OperandKind} {f : Fault} {s t : State} :
    fetchOperands ks s = .raised f t ↔
      ∃ done k rest bs, ks = done ++ k :: rest ∧ OperandsAt s (s.getReg .ip) done bs ∧
        OperandFaults s (s.getReg .ip + BitVec.ofNat 16 bs.length) k f ∧
        t = s.setReg .ip (s.getReg .ip + BitVec.ofNat 16 bs.length) := by
  constructor
  · intro h
    induction ks generalizing s with
    | nil => cases h
    | cons k ks ih =>
      simp only [fetchOperands, Result.andThen_eq_raised] at h
      rcases h with h | ⟨b1, s1, h1, h | ⟨_, _, _, h⟩⟩
      · obtain ⟨h, rfl⟩ := fetchOperand_eq_raised.1 h
        exact ⟨[], k, ks, [], rfl, rfl, by simpa using h, by simp [State.setReg_getReg]⟩
      · have hat := fetchOperand_at h1
        obtain ⟨rfl, hl⟩ := fetchOperand_eq_ok h1
        obtain ⟨done, k', rest, bs, rfl, i1, i2, rfl⟩ := ih h
        rw [← hl] at i1 i2 ⊢
        rw [State.getReg_setReg_same, operandsAt_setReg] at i1
        rw [State.getReg_setReg_same, operandFaults_setReg] at i2
        refine ⟨k :: done, k', rest, b1 ++ bs, rfl, operandsAt_append hat i1, ?_, ?_⟩
        · rwa [List.length_append, BitVec.ofNat_add, ← BitVec.add_assoc]
        · simp only [State.setReg_setReg, State.getReg_setReg_same, List.length_append, BitVec.ofNat_add,
            BitVec.add_assoc]
      · cases h
  · rintro ⟨done, k, rest, bs, rfl, h1, h2, rfl⟩
    have hk : fetchOperand k (s.setReg .ip (s.getReg .ip + BitVec.ofNat 16 bs.length)) =
        .raised f (s.setReg .ip (s.getReg .ip + BitVec.ofNat 16 bs.length)) := by
      refine fetchOperand_eq_raised.2 ⟨?_, rfl⟩
      rwa [State.getReg_setReg_same, operandFaults_setReg]
    simp only [fetchOperands_append, fetchOperands_of_at h1, Result.andThen_ok, fetchOperands, hk,
      Result.andThen_raised]

end Machine

end Sys2Proof
end

