-- ==== Sys2Proof/Laws/Frame.lean ====
section
/-! SUPPORT. Runs of pushes and of pops (R118), and the two halves of the call-frame protocol as such runs (R122,
R123). -/

namespace Sys2Proof.Machine

open Sys2Proof.Safety

/-! ## Addresses -/

theorem frameSlot_zero (s : State) : frameSlot s 0 = s.getReg .sp := by
  simp [frameSlot]

/-- A slot of the state after one push is the next slot of the state before it. -/
theorem frameSlot_of_sp {s t : State} (h : t.getReg .sp = s.getReg .sp - 2) (j : Nat) :
    frameSlot t j = frameSlot s (j + 1) := by
  simp only [frameSlot, h]
  rw [show 2 * (j + 1) = 2 + 2 * j by omega, BitVec.ofNat_add]
  bv_omega

/-- Of fewer than 32768 slots, no two share a byte. -/
theorem frameSlot_apart (s : State) {i j : Nat} (hij : i < j) (hj : j < 32768) :
    frameSlot s i ≠ frameSlot s j ∧ frameSlot s i ≠ frameSlot s j + 1 ∧ frameSlot s j ≠ frameSlot s i + 1 := by
  simp only [frameSlot]
  generalize s.getReg .sp = a
  refine ⟨?_, ?_, ?_⟩ <;> bv_omega

/-! ## Pushes -/

/-- A push onto storage: the word at the old `sp`, `sp` down and `fs` up by 2, and nothing else (R116). -/
theorem push_storage {s : State} (v : Word) (hm : Memory.wf s.mem) (h : WordInStorage s (s.getReg .sp)) :
    ∃ t, push v s = .ok () t ∧ t.wordRead (s.getReg .sp) = .ok v ∧ t.getReg .sp = s.getReg .sp - 2 ∧
      t.fs = s.fs + 2 ∧ SameExceptWord [.sp] (s.getReg .sp) s t ∧ Memory.wf t.mem ∧
      ∀ b, b ≠ s.getReg .sp → b ≠ s.getReg .sp + 1 → s.getReg .sp ≠ b + 1 → t.wordRead b = s.wordRead b := by
  obtain ⟨t, ht, hr, ho, hm'⟩ := State.wordRead_wordWrite_same (v := v) hm h
  obtain ⟨h1, h2, h3, h4, h5⟩ := State.wordWrite_frame ht
  refine ⟨_, push_eq_ok.2 ⟨t, ht, rfl⟩, by simpa using hr, by simp, rfl,
    ⟨?_, h5, h1, h2, (State.wordWrite_started ht :), ho, ?_⟩, hm', ?_⟩
  · intro r hr
    rw [State.setFs_getReg, State.getReg_setReg_other _ _ (by simpa using hr)]
    simp only [State.getReg, h3]
  · intro b hb hb'
    simpa using State.byteRead_wordWrite_other ht hb hb'
  · intro b hb hb' hb''
    simpa using State.wordRead_wordWrite_other ht hb hb' hb''

/-- A completed run of pushes, wherever the words went: `sp` and `fs` move by 2 a word and no other register changes. -/
theorem pushWords_ok {ws : List Word} {s t : State} (h : pushWords ws s = .ok () t) :
    t.getReg .sp = frameSlot s ws.length ∧ t.fs = s.fs + BitVec.ofNat 16 (2 * ws.length) ∧
      (∀ r, r ≠ .sp → t.getReg r = s.getReg r) ∧ t.status = s.status ∧ t.cfg = s.cfg ∧ t.regions = s.regions ∧
      t.started = s.started := by
  induction ws generalizing s with
  | nil => cases h; simp [frameSlot]
  | cons v ws ih =>
    obtain ⟨_, s1, h1, h2⟩ := Result.andThen_eq_ok.1 h
    obtain ⟨s0, h0, rfl⟩ := push_eq_ok.1 h1
    obtain ⟨e1, e2, e3, e4, e5⟩ := State.wordWrite_frame h0
    obtain ⟨i1, i2, i3, i4, i5, i6, i7⟩ := ih h2
    refine ⟨?_, ?_, fun r hr => ?_, i4.trans e5, i5.trans e1, i6.trans e2, i7.trans (State.wordWrite_started h0 :)⟩
    · rw [i1, frameSlot_of_sp (s := s) (by simp), List.length_cons]
    · rw [i2, State.setFs_fs, List.length_cons, show 2 * (ws.length + 1) = 2 + 2 * ws.length by omega,
        BitVec.ofNat_add, ← BitVec.add_assoc]
      rfl
    · rw [i3 r hr, State.setFs_getReg, State.getReg_setReg_other _ _ hr]
      simp only [State.getReg, e3]

/-- A run of pushes onto storage stores every word in its slot and changes no byte outside the slots. -/
theorem pushWords_storage {ws : List Word} {s : State} (hm : Memory.wf s.mem) (hn : ws.length ≤ 32768)
    (h : ∀ j < ws.length, WordInStorage s (frameSlot s j)) :
    ∃ t, pushWords ws s = .ok () t ∧ (∀ j v, ws[j]? = some v → t.wordRead (frameSlot s j) = .ok v) ∧
      t.out = s.out ∧ Memory.wf t.mem ∧
      (∀ b, (∀ j < ws.length, b ≠ frameSlot s j ∧ b ≠ frameSlot s j + 1) → t.byteRead b = s.byteRead b) ∧
      ∀ b, (∀ j < ws.length, b ≠ frameSlot s j ∧ b ≠ frameSlot s j + 1 ∧ frameSlot s j ≠ b + 1) →
        t.wordRead b = s.wordRead b := by
  induction ws generalizing s with
  | nil => exact ⟨s, rfl, by simp, rfl, hm, fun _ _ => rfl, fun _ _ => rfl⟩
  | cons v ws ih =>
    have h0 := h 0 (by simp)
    rw [frameSlot_zero] at h0
    obtain ⟨s1, p1, p2, p3, -, ⟨-, -, -, p5, -, p6, p7⟩, p8, p9⟩ := push_storage v hm h0
    have hs : ∀ j, frameSlot s1 j = frameSlot s (j + 1) := frameSlot_of_sp p3
    simp only [List.length_cons] at hn
    obtain ⟨t, q1, q2, q3, q4, q5, q6⟩ := ih (s := s1) p8 (by omega) fun j hj => by
      rw [hs, wordInStorage_congr p5]
      exact h (j + 1) (by simpa using hj)
    simp only [hs] at q2 q5 q6
    have z := frameSlot_zero s
    refine ⟨t, by simp only [pushWords, p1, Result.andThen_ok, q1], ?_, q3.trans p6, q4, ?_, ?_⟩
    · intro j w hw
      cases j with
      | zero =>
        rw [q6 _ fun j hj => frameSlot_apart s (by omega) (by omega), z, p2]
        simpa using hw
      | succ j => exact q2 j w (by simpa using hw)
    · intro b hb
      have hb0 := hb 0 (by simp)
      rw [z] at hb0
      rw [q5 b fun j hj => hb (j + 1) (by simpa using hj), p7 b hb0.1 hb0.2]
    · intro b hb
      have hb0 := hb 0 (by simp)
      rw [z] at hb0
      rw [q6 b fun j hj => hb (j + 1) (by simpa using hj), p9 b hb0.1 hb0.2.1 hb0.2.2]

/-- A run of pushes completes when no slot's write is stopped, whatever devices the slots are in. -/
theorem pushWords_completes {ws : List Word} {s : State}
    (h : ∀ j < ws.length, ∀ f, ¬ WordFaults s (frameSlot s j) f) : ∃ t, pushWords ws s = .ok () t := by
  induction ws generalizing s with
  | nil => exact ⟨s, rfl⟩
  | cons v ws ih =>
    have h0 := h 0 (by simp)
    rw [frameSlot_zero] at h0
    obtain ⟨g, hg⟩ : ∃ g, s.wordTarget (s.getReg .sp) = .ok g := by
      rcases wordAccess_cases s (s.getReg .sp) with h' | ⟨k, i, h'⟩ | ⟨f, h'⟩
      · obtain ⟨_, _, _, -, -, -, -, ht⟩ := State.wordTarget_of_inStorage h'; exact ⟨_, ht⟩
      · exact ⟨_, State.wordTarget_of_inOutput h'⟩
      · exact absurd h' (h0 f)
    obtain ⟨s0, hs0⟩ : ∃ s0, s.wordWrite (s.getReg .sp) v = .ok s0 := by
      simp only [State.wordWrite, hg]; exact ⟨_, rfl⟩
    obtain ⟨-, hr, -, -, -⟩ := State.wordWrite_frame hs0
    have hp := (push_eq_ok (u := ())).2 ⟨s0, hs0, rfl⟩
    obtain ⟨t, ht⟩ := ih (s := (s0.setReg .sp (s.getReg .sp - 2)).setFs (s.fs + 2)) fun j hj f hf => by
      rw [frameSlot_of_sp (s := s) (by simp)] at hf
      refine h (j + 1) (by simpa using hj) f ?_
      simpa only [WordFaults, State.lookup_congr (t := (s0.setReg .sp (s.getReg .sp - 2)).setFs (s.fs + 2)) (s := s) hr]
        using hf
    exact ⟨t, by simp only [pushWords, hp, Result.andThen_ok, ht]⟩

/-- A run of pushes onto output devices appends two events a word, the high byte first, and keeps memory (R32). -/
theorem pushWords_output {ws : List Word} {s : State} {k i : Nat → Nat}
    (h : ∀ j < ws.length, WordInOutput s (frameSlot s j) (k j) (i j)) :
    ∃ t, pushWords ws s = .ok () t ∧ t.mem = s.mem ∧
      t.out = s.out ++ (List.range ws.length).flatMap (fun j =>
        [⟨k j, i j, hiByte (ws.getD j 0)⟩, ⟨k j, i j + 1, loByte (ws.getD j 0)⟩]) := by
  induction ws generalizing s k i with
  | nil => exact ⟨s, rfl, rfl, by simp⟩
  | cons v ws ih =>
    have h0 := h 0 (by simp)
    rw [frameSlot_zero] at h0
    have hp := (push_eq_ok (u := ())).2 ⟨_, State.wordWrite_of_inOutput h0 v, rfl⟩
    obtain ⟨t, ht, hm, ho⟩ := ih (k := fun j => k (j + 1)) (i := fun j => i (j + 1))
      (s := ({ s with out := s.out ++ [OutEvent.mk (k 0) (i 0) (hiByte v),
          OutEvent.mk (k 0) (i 0 + 1) (loByte v)] }.setReg .sp
        (s.getReg .sp - 2)).setFs (s.fs + 2)) fun j hj => by
        rw [frameSlot_of_sp (s := s) (by simp)]
        exact h (j + 1) (by simpa using hj)
    refine ⟨t, by simp only [pushWords, hp, Result.andThen_ok]; exact ht, hm, ?_⟩
    rw [ho, List.length_cons, List.range_succ_eq_map]
    simp [List.flatMap_map]

/-- A write of a word that completes is stored or emitted (R32, R34). -/
theorem State.wordWrite_events {s t : State} {a v : Word} (hm : Memory.wf s.mem) (h : s.wordWrite a v = .ok t) :
    Memory.wf t.mem ∧ (∃ ev, WriteEvents s a v ev ∧ t.out = s.out ++ ev) ∧
      (WordInStorage s a → t.wordRead a = .ok v) ∧ (¬ WordInStorage s a → t.mem = s.mem) := by
  rcases wordAccess_cases s a with hs | ⟨k, i, ho⟩ | ⟨f, hf⟩
  · obtain ⟨t', ht, hr, hout, hm'⟩ := State.wordRead_wordWrite_same (v := v) hm hs
    obtain rfl := Except.ok.inj (h.symm.trans ht)
    exact ⟨hm', ⟨[], .inl ⟨hs, rfl⟩, by simpa using hout⟩, fun _ => hr, fun hn => absurd hs hn⟩
  · have ht := State.wordWrite_of_inOutput ho v
    obtain rfl := Except.ok.inj (h.symm.trans ht)
    refine ⟨hm, ⟨_, .inr ⟨k, i, ho, rfl⟩, rfl⟩, fun hs => ?_, fun _ => rfl⟩
    obtain ⟨_, _, _, -, -, -, -, e⟩ := State.wordTarget_of_inStorage hs
    rw [State.wordTarget_of_inOutput ho] at e; cases e
  · rw [State.wordWrite_of_faults hf] at h; cases h

/-- Where a written word goes depends on the map alone. -/
theorem writeEvents_congr {s t : State} (h : t.regions = s.regions) {a v : Word} {ev : List OutEvent} :
    WriteEvents t a v ev ↔ WriteEvents s a v ev := by
  simp only [WriteEvents, WordInStorage, WordInOutput, State.lookup_congr h]

/-- A completed run of pushes, wherever the words went: each is stored or emitted, in push order, and no other byte
changes (R32, R47, R116). -/
theorem pushWords_pushed {ws : List Word} {s t : State} (hm : Memory.wf s.mem) (hn : ws.length ≤ 32768)
    (h : pushWords ws s = .ok () t) :
    WordsPushed s ws t ∧
      ∀ b, (∀ j < ws.length, b ≠ frameSlot s j ∧ b ≠ frameSlot s j + 1 ∧ frameSlot s j ≠ b + 1) →
        t.wordRead b = s.wordRead b := by
  induction ws generalizing s with
  | nil => cases h; exact ⟨⟨⟨fun _ => [], by simp, by simp⟩, by simp, fun _ _ => rfl⟩, fun _ _ => rfl⟩
  | cons v ws ih =>
    obtain ⟨_, s1, h1, h2⟩ := Result.andThen_eq_ok.1 h
    obtain ⟨s0, h0, e⟩ := push_eq_ok.1 h1
    obtain ⟨w1, ⟨ev0, w2, w3⟩, w4, w5⟩ := State.wordWrite_events hm h0
    have hreg : s1.regions = s.regions := by rw [e]; exact (State.wordWrite_frame h0).2.1
    have hs : ∀ j, frameSlot s1 j = frameSlot s (j + 1) := frameSlot_of_sp (by simp [e])
    have hbyte : ∀ b, s1.byteRead b = s0.byteRead b := fun b => by simp [e]
    have hword : ∀ b, s1.wordRead b = s0.wordRead b := fun b => by simp [e]
    simp only [List.length_cons] at hn
    obtain ⟨⟨⟨events, i1, i2⟩, i3, i4⟩, i5⟩ := ih (s := s1) (by rw [e]; exact w1) (by omega) h2
    simp only [hs, writeEvents_congr hreg, wordInStorage_congr hreg] at i1 i3 i4 i5
    have z := frameSlot_zero s
    refine ⟨⟨⟨fun j => if j = 0 then ev0 else events (j - 1), ?_, ?_⟩, ?_, ?_⟩, ?_⟩
    · intro j w hw
      cases j with
      | zero =>
        obtain rfl : v = w := by simpa using hw
        simpa [z] using w2
      | succ j => simpa using i1 j w (by simpa using hw)
    · rw [i2, List.length_cons, List.range_succ_eq_map, show s1.out = s.out ++ ev0 by rw [e]; exact w3]
      simp [List.flatMap_map]
    · intro j w hw hst
      cases j with
      | zero =>
        obtain rfl : v = w := by simpa using hw
        rw [i5 _ fun j hj => frameSlot_apart s (by omega) (by omega), hword, z, w4 (by rwa [← z])]
      | succ j => exact i3 j w (by simpa using hw) hst
    · intro b hb
      rw [i4 b fun j hj => hb (j + 1) (by simpa using hj), hbyte]
      by_cases hst : WordInStorage s (s.getReg .sp)
      · have hb0 := hb 0 (by simp) (by rwa [z])
        rw [z] at hb0
        exact State.byteRead_wordWrite_other h0 hb0.1 hb0.2
      · exact State.byteRead_congr (State.wordWrite_frame h0).2.1 (w5 hst) b
    · intro b hb
      have hb0 := hb 0 (by simp)
      rw [z] at hb0
      rw [i5 b fun j hj => hb (j + 1) (by simpa using hj), hword]
      exact State.wordRead_wordWrite_other h0 hb0.1 hb0.2.1 hb0.2.2

/-- A run of pushes, cut in two. -/
theorem pushWords_append (ws ws' : List Word) (s : State) :
    pushWords (ws ++ ws') s = (pushWords ws s).andThen fun _ s => pushWords ws' s := by
  induction ws generalizing s with
  | nil => rfl
  | cons v ws ih =>
    simp only [List.cons_append, pushWords]
    cases push v s with
    | ok _ s1 => simp [ih]
    | raised f s1 => rfl

/-- Pushing registers other than `sp` is pushing the words they hold. -/
theorem pushRegs_eq_pushWords {rs : List Reg} (h : .sp ∉ rs) (s : State) :
    pushRegs rs s = pushWords (rs.map s.getReg) s := by
  induction rs generalizing s with
  | nil => rfl
  | cons r rs ih =>
    simp only [List.mem_cons, not_or] at h
    simp only [pushRegs, List.map_cons, pushWords]
    rcases hp : push (s.getReg r) s with ⟨_, s1⟩ | ⟨f, s1⟩
    · simp only [Result.andThen_ok]
      rw [ih h.2]
      obtain ⟨s0, h0, rfl⟩ := push_eq_ok.1 hp
      obtain ⟨-, -, e3, -, -⟩ := State.wordWrite_frame h0
      congr 1
      refine List.map_congr_left fun r' hr' => ?_
      rw [State.setFs_getReg, State.getReg_setReg_other _ _ (by rintro rfl; exact h.2 hr')]
      simp only [State.getReg, e3]
    · rfl

theorem callWords_eq (s : State) : callWords s = frameRegs.map s.getReg ++ [s.fs + 20] := rfl

theorem callWords_length (s : State) : (callWords s).length = 10 := rfl

/-- `push_state()` pushes ten words, then clears `fs` and sets `fp` to `sp` (R122). -/
theorem pushState_eq (s : State) :
    pushState s = (pushWords (callWords s) s).andThen fun _ s => .ok () ((s.setFs 0).setReg .fp (s.getReg .sp)) := by
  simp only [pushState, callWords_eq, pushWords_append, pushRegs_eq_pushWords (rs := frameRegs) (by decide)]
  rcases hp : pushWords (frameRegs.map s.getReg) s with ⟨_, s1⟩ | ⟨f, s1⟩
  · simp only [Result.andThen_ok, pushWords]
    have : s1.fs + 2 = s.fs + 20 := by
      rw [(pushWords_ok hp).2.1, BitVec.add_assoc]; rfl
    rw [this]
    cases push (s.fs + 20) s1 <;> rfl
  · rfl

/-! ## Pops -/

/-- What a run of pops keeps: everything but the registers and `fs`. -/
def SameButRegsAndFs (s t : State) : Prop :=
  t.status = s.status ∧ t.cfg = s.cfg ∧ t.regions = s.regions ∧ t.started = s.started ∧ t.out = s.out ∧ t.mem = s.mem

theorem SameButRegsAndFs.trans {s t u : State} (h : SameButRegsAndFs s t) (h' : SameButRegsAndFs t u) :
    SameButRegsAndFs s u :=
  ⟨h'.1.trans h.1, h'.2.1.trans h.2.1, h'.2.2.1.trans h.2.2.1, h'.2.2.2.1.trans h.2.2.2.1,
    h'.2.2.2.2.1.trans h.2.2.2.2.1, h'.2.2.2.2.2.trans h.2.2.2.2.2⟩

theorem SameButRegsAndFs.wordRead {s t : State} (h : SameButRegsAndFs s t) (a : Word) :
    t.wordRead a = s.wordRead a := State.wordRead_congr h.2.2.1 h.2.2.2.2.2 a

theorem SameButRegsAndFs.byteRead {s t : State} (h : SameButRegsAndFs s t) (a : Word) :
    t.byteRead a = s.byteRead a := State.byteRead_congr h.2.2.1 h.2.2.2.2.2 a

theorem wordAbove_zero (a : Word) : wordAbove a 0 = a + 2 := rfl

theorem wordAbove_add (a : Word) (i j : Nat) : wordAbove (a + BitVec.ofNat 16 (2 * i)) j = wordAbove a (i + j) := by
  simp only [wordAbove]
  rw [show 2 * (i + j + 1) = 2 * i + 2 * (j + 1) by omega, BitVec.ofNat_add, BitVec.add_assoc]

/-- Registers popped off readable words (R117, R123): register `i` gets word `i`. -/
theorem popRegs_ok {rs : List Reg} {s : State} {w : Nat → Word} (hsp : .sp ∉ rs) (hd : rs.Nodup)
    (h : ∀ i < rs.length, s.wordRead (wordAbove (s.getReg .sp) i) = .ok (w i)) :
    ∃ t, popRegs rs s = .ok () t ∧ t.getReg .sp = s.getReg .sp + BitVec.ofNat 16 (2 * rs.length) ∧
      t.fs = s.fs - BitVec.ofNat 16 (2 * rs.length) ∧ (∀ (i : Nat) r, rs[i]? = some r → t.getReg r = w i) ∧
      (∀ r, r ∉ rs → r ≠ .sp → t.getReg r = s.getReg r) ∧ SameButRegsAndFs s t := by
  induction rs generalizing s w with
  | nil => exact ⟨s, rfl, by simp, by simp, by simp, fun _ _ _ => rfl, rfl, rfl, rfl, rfl, rfl, rfl⟩
  | cons r rs ih =>
    simp only [List.mem_cons, not_or, List.nodup_cons] at hsp hd
    have h0 : s.wordRead (s.getReg .sp + 2) = .ok (w 0) := h 0 (by simp)
    have hp := pop_eq_ok.2 ⟨h0, rfl⟩
    let s1 := ((s.setReg .sp (s.getReg .sp + 2)).setFs (s.fs - 2)).setReg r (w 0)
    have hs1 : s1.getReg .sp = s.getReg .sp + BitVec.ofNat 16 (2 * 1) := by
      simp only [s1, State.getReg_setReg_other _ _ hsp.1, State.setFs_getReg, State.getReg_setReg_same]
      rfl
    obtain ⟨t, q1, q2, q3, q4, q5, q6⟩ := ih (s := s1) (w := fun i => w (i + 1)) hsp.2 hd.2 fun i hi => by
      rw [hs1, wordAbove_add, Nat.add_comm]
      simp only [s1, State.wordRead_setReg, State.wordRead_setFs]
      exact h (i + 1) (by simpa using hi)
    refine ⟨t, by simp only [popRegs, hp, Result.andThen_ok]; exact q1, ?_, ?_, ?_, ?_, q6⟩
    · rw [q2, hs1, List.length_cons, BitVec.add_assoc, ← BitVec.ofNat_add]
      congr 2; omega
    · rw [q3, List.length_cons, show 2 * (rs.length + 1) = 2 + 2 * rs.length by omega, BitVec.ofNat_add]
      show s.fs - 2 - _ = _
      bv_omega
    · intro i r' hr'
      cases i with
      | zero =>
        obtain rfl : r = r' := by simpa using hr'
        rw [q5 r hd.1 (Ne.symm hsp.1)]
        exact State.getReg_setReg_same _ _ _
      | succ i => exact q4 i r' (by simpa using hr')
    · intro r' hr' hr''
      simp only [List.mem_cons, not_or] at hr'
      rw [q5 r' hr'.2 hr'']
      simp only [s1, State.getReg_setReg_other _ _ hr'.1, State.setFs_getReg, State.getReg_setReg_other _ _ hr'']

/-- Words popped and discarded (R123): only `sp` and `fs` move. -/
theorem popDiscard_ok {n : Nat} {s : State}
    (h : ∀ i < n, ∃ x, s.wordRead (wordAbove (s.getReg .sp) i) = .ok x) :
    popDiscard n s =
      .ok () ((s.setReg .sp (s.getReg .sp + BitVec.ofNat 16 (2 * n))).setFs (s.fs - BitVec.ofNat 16 (2 * n))) := by
  induction n generalizing s with
  | zero =>
    have : (s.setReg .sp (s.getReg .sp)) = s := rfl
    simp only [popDiscard, Nat.mul_zero, BitVec.add_zero, BitVec.sub_zero, this]
    rfl
  | succ n ih =>
    obtain ⟨x, hx⟩ := h 0 (by omega)
    have hp := pop_eq_ok.2 ⟨hx, rfl⟩
    simp only [popDiscard, hp, Result.andThen_ok]
    rw [ih fun i hi => by
      rw [State.setFs_getReg, State.getReg_setReg_same]
      simp only [State.wordRead_setReg, State.wordRead_setFs]
      have := h (i + 1) (by omega)
      rwa [Nat.add_comm, ← wordAbove_add] at this]
    rw [State.setFs_getReg, State.getReg_setReg_same, show 2 * (n + 1) = 2 + 2 * n by omega, BitVec.ofNat_add,
      ← BitVec.add_assoc, State.setFs_fs]
    have : s.fs - 2 - BitVec.ofNat 16 (2 * n) = s.fs - (BitVec.ofNat 16 2 + BitVec.ofNat 16 (2 * n)) := by bv_omega
    rw [this]
    rfl

/-- A run of discarding pops, cut in two. -/
theorem popDiscard_add (m n : Nat) (s : State) :
    popDiscard (m + n) s = (popDiscard m s).andThen fun _ s => popDiscard n s := by
  induction m generalizing s with
  | zero => simp [popDiscard]
  | succ m ih =>
    rw [show m + 1 + n = m + n + 1 by omega]
    simp only [popDiscard]
    cases pop s with
    | ok _ s1 => simp [ih]
    | raised f s1 => rfl

/-- A run of pops into registers, cut in two. -/
theorem popRegs_append (rs rs' : List Reg) (s : State) :
    popRegs (rs ++ rs') s = (popRegs rs s).andThen fun _ s => popRegs rs' s := by
  induction rs generalizing s with
  | nil => rfl
  | cons r rs ih =>
    simp only [List.cons_append, popRegs]
    cases pop s with
    | ok _ s1 => simp [ih]
    | raised f s1 => rfl

end Sys2Proof.Machine
end

