-- ==== Sys2Proof/Laws/Invariant.lean ====
section
/-! SUPPORT. The induction over everything a step can do, once: a property that each of the machine's four updates
keeps (a register, the counter, the status, a completed word write) is kept by every instruction and every step. -/

namespace Sys2Proof.Machine

/-- The property is kept by every update an instruction can make. -/
structure KeptByUpdates (P : State → Prop) : Prop where
  setReg : ∀ s r v, P s → P (s.setReg r v)
  setFs : ∀ s v, P s → P (s.setFs v)
  setStatus : ∀ s st, P s → P (s.setStatus st)
  wordWrite : ∀ s a v t, P s → s.wordWrite a v = .ok t → P t

variable {P : State → Prop}

theorem KeptByUpdates.readWord (_ : KeptByUpdates P) {a : Word} {s : State} (h : P s) : P (readWord a s).state := by
  unfold Machine.readWord
  split <;> exact h

theorem KeptByUpdates.writeWord (hP : KeptByUpdates P) {a v : Word} {s : State} (h : P s) :
    P (writeWord a v s).state := by
  unfold Machine.writeWord
  split
  · exact h
  · next t ht => exact hP.wordWrite _ _ _ _ h ht

theorem KeptByUpdates.loadWord (hP : KeptByUpdates P) {a : Word} {rd : Reg} {s : State} (h : P s) :
    P (loadWord a rd s).state :=
  Result.andThen_keeps (hP.readWord h) fun _ _ h => hP.setReg _ _ _ h

theorem KeptByUpdates.push (hP : KeptByUpdates P) {v : Word} {s : State} (h : P s) : P (push v s).state :=
  Result.andThen_keeps (hP.writeWord h) fun _ _ h => hP.setFs _ _ (hP.setReg _ _ _ h)

theorem KeptByUpdates.pop (hP : KeptByUpdates P) {s : State} (h : P s) : P (pop s).state :=
  Result.andThen_keeps (hP.readWord (hP.setReg _ _ _ h)) fun _ _ h => hP.setFs _ _ h

theorem KeptByUpdates.pushRegs (hP : KeptByUpdates P) {rs : List Reg} {s : State} (h : P s) :
    P (pushRegs rs s).state := by
  induction rs generalizing s with
  | nil => exact h
  | cons r rs ih => exact Result.andThen_keeps (hP.push h) fun _ _ h => ih h

theorem KeptByUpdates.popRegs (hP : KeptByUpdates P) {rs : List Reg} {s : State} (h : P s) :
    P (popRegs rs s).state := by
  induction rs generalizing s with
  | nil => exact h
  | cons r rs ih => exact Result.andThen_keeps (hP.pop h) fun _ _ h => ih (hP.setReg _ _ _ h)

theorem KeptByUpdates.popDiscard (hP : KeptByUpdates P) {n : Nat} {s : State} (h : P s) :
    P (popDiscard n s).state := by
  induction n generalizing s with
  | zero => exact h
  | succ n ih => exact Result.andThen_keeps (hP.pop h) fun _ _ h => ih h

theorem KeptByUpdates.pushState (hP : KeptByUpdates P) {s : State} (h : P s) : P (pushState s).state :=
  Result.andThen_keeps (hP.pushRegs h) fun _ _ h =>
    Result.andThen_keeps (hP.push h) fun _ _ h => hP.setReg _ _ _ (hP.setFs _ _ h)

theorem KeptByUpdates.popState (hP : KeptByUpdates P) {s : State} (h : P s) : P (popState s).state :=
  Result.andThen_keeps (hP.pop (hP.setReg _ _ _ h)) fun _ _ h =>
    Result.andThen_keeps (hP.popRegs (hP.setFs _ _ h)) fun _ _ h =>
      Result.andThen_keeps (hP.pop h) fun _ _ h =>
        Result.andThen_keeps (hP.popDiscard h) fun _ _ h => hP.setReg _ _ _ h

theorem KeptByUpdates.callTo (hP : KeptByUpdates P) {t : Word} {s : State} (h : P s) : P (callTo t s).state :=
  Result.andThen_keeps (hP.pushState h) fun _ _ h => hP.setReg _ _ _ h

theorem KeptByUpdates.shiftReg (hP : KeptByUpdates P) {d : ShiftDir} {rd : Reg} {n : Word} {s : State} (h : P s) :
    P (shiftReg d rd n s).state := by
  unfold Machine.shiftReg
  split
  · exact h
  · exact hP.setReg _ _ _ h

theorem KeptByUpdates.branch (hP : KeptByUpdates P) {op : Relation} {v addr : Word} {s : State} (h : P s) :
    P (branch op v addr s) := by
  unfold Machine.branch
  split
  · exact hP.setReg _ _ _ h
  · exact h

theorem KeptByUpdates.finish (hP : KeptByUpdates P) {r : Result Unit} {t : State} (h : P r.state)
    (ht : r.finish = .next t) : P t := by
  cases r with
  | ok u s => cases ht; exact h
  | raised f s => cases ht; exact hP.setStatus _ _ h

/-- Every instruction keeps what the updates keep. -/
theorem KeptByUpdates.exec (hP : KeptByUpdates P) {i : Instr} {s t : State} (h : P s)
    (ht : exec i s = .next t) : P t := by
  cases i
  case movRegMem => exact hP.finish (hP.writeWord h) ht
  case movLitMem => exact hP.finish (hP.writeWord h) ht
  case movMemReg => exact hP.finish (hP.loadWord h) ht
  case movRegPtrReg => exact hP.finish (hP.loadWord h) ht
  case movLitOffReg => exact hP.finish (hP.loadWord h) ht
  case lsfRegLit => exact hP.finish (hP.shiftReg h) ht
  case lsfRegReg => exact hP.finish (hP.shiftReg h) ht
  case rsfRegLit => exact hP.finish (hP.shiftReg h) ht
  case rsfRegReg => exact hP.finish (hP.shiftReg h) ht
  case pshLit => exact hP.finish (hP.push h) ht
  case pshReg => exact hP.finish (hP.push h) ht
  case pop rd =>
    exact hP.finish (r := (Machine.pop s).andThen fun w s => .ok () (s.setReg rd w))
      (Result.andThen_keeps (hP.pop h) fun _ _ h => hP.setReg _ _ _ h) ht
  case calLit => exact hP.finish (hP.callTo h) ht
  case calReg => exact hP.finish (hP.callTo h) ht
  case ret => exact hP.finish (hP.popState h) ht
  all_goals
    cases ht
    first
      | exact hP.branch h
      | exact hP.setReg _ _ _ h
      | exact hP.setStatus _ _ h

theorem KeptByUpdates.fetch8 (hP : KeptByUpdates P) {s : State} (h : P s) : P (fetch8 s).state := by
  unfold Machine.fetch8
  split
  · exact h
  · exact hP.setReg _ _ _ h

theorem KeptByUpdates.fetch16 (hP : KeptByUpdates P) {s : State} (h : P s) : P (fetch16 s).state := by
  unfold Machine.fetch16
  split
  · exact h
  · exact hP.setReg _ _ _ h

theorem KeptByUpdates.fetchOperand (hP : KeptByUpdates P) {k : OperandKind} {s : State} (h : P s) :
    P (fetchOperand k s).state := by
  cases k
  · exact Result.andThen_keeps (hP.fetch8 h) fun _ _ h => h
  · exact Result.andThen_keeps (hP.fetch8 h) fun _ _ h => h
  · exact Result.andThen_keeps (hP.fetch16 h) fun _ _ h => h

theorem KeptByUpdates.fetchOperands (hP : KeptByUpdates P) {ks : List OperandKind} {s : State} (h : P s) :
    P (fetchOperands ks s).state := by
  induction ks generalizing s with
  | nil => exact h
  | cons k ks ih =>
    exact Result.andThen_keeps (hP.fetchOperand h) fun _ _ h => Result.andThen_keeps (ih h) fun _ _ h => h

theorem KeptByUpdates.fetchInstr (hP : KeptByUpdates P) {s : State} (h : P s) : P (fetchInstr s).state := by
  refine Result.andThen_keeps (hP.fetch8 h) fun op s h => ?_
  split
  · exact h
  · exact Result.andThen_keeps (hP.fetchOperands h) fun _ _ h => h

/-- Every step keeps what the updates and the making of a step keep. -/
theorem KeptByUpdates.step (hP : KeptByUpdates P) {s t : State} (hs : P s → P s.start) (h : P s)
    (ht : step s = .next t) : P t := by
  unfold Machine.step at ht
  split at ht
  · cases ht; exact hs h
  · cases ht
  · have hf := hP.fetchInstr (hs h)
    split at ht
    · next f s' hr => cases ht; rw [hr] at hf; exact hP.setStatus _ _ hf
    · next i s' hr => rw [hr] at hf; exact hP.exec hf ht

/-- Whatever a step answers has made a step (R148, D28). -/
theorem step_started {s t : State} (ht : step s = .next t) : t.started = true := by
  have hP : KeptByUpdates (fun u => u.started = true) :=
    ⟨fun _ _ _ h => h, fun _ _ h => h, fun _ _ h => h, fun _ _ _ _ h ht => (State.wordWrite_started ht).trans h⟩
  unfold Machine.step at ht
  split at ht
  · cases ht; rfl
  · cases ht
  · have hf := hP.fetchInstr (s := s.start) rfl
    split at ht
    · next f s' hr => cases ht; rw [hr] at hf; exact hf
    · next i s' hr => rw [hr] at hf; exact hP.exec hf ht

end Sys2Proof.Machine
end

