-- ==== Sys2Proof/Laws/PerInstr.lean ====
section
/-! SUPPORT. For every instruction, by its constructor: the fields its encoding's operand bytes hold are read back as
the instruction's own, and there are as many bytes as its format says (R56, R57). -/

namespace Sys2Proof.Laws

/-- The register that the canonical byte of a present register selects is that register (R60). -/
theorem regOfByte_regByte {cfg : Config} {r : Reg} (h : r.present cfg.regConfig = true) :
    regOfByte cfg (regByte r) = r := by
  unfold regOfByte Config.regCount
  cases hc : cfg.regConfig <;> rw [hc] at h <;> cases r <;> first | rfl | exact absurd h (by decide)

/-- An 8-bit literal that fits is read back (R55, R90). -/
theorem setWidth_loByte {n : Word} (h : n.toNat < 256) : (loByte n).setWidth 16 = n := by
  apply BitVec.eq_of_toNat_eq
  simp only [loByte, BitVec.toNat_setWidth, BitVec.extractLsb'_toNat, Nat.shiftRight_zero]
  omega

/-- What decoding an instruction's own operand bytes gives, and how many there are. -/
def FieldsRoundTrip.Statement (i : Instr) : Prop :=
  ∀ cfg : Config, i.wf cfg = true →
    decodeFields cfg i.mnemonic (i.operandBytes cfg) = i ∧
    (i.operandBytes cfg).length = i.mnemonic.operandSize cfg

theorem FieldsRoundTrip.movLitReg (lit : Word) (rd : Reg) : FieldsRoundTrip.Statement (.movLitReg lit rd) := by
  intro cfg h
  simp only [Instr.wf, Instr.registersPresent, Instr.registers, List.all_cons, List.all_nil, Bool.and_true,
    Bool.and_eq_true] at h
  exact ⟨by simp [decodeFields, Instr.mnemonic, Instr.operandBytes, wordBytes, regOfByte_regByte, h], rfl⟩

theorem FieldsRoundTrip.movRegReg (ra rd : Reg) : FieldsRoundTrip.Statement (.movRegReg ra rd) := by
  intro cfg h
  simp only [Instr.wf, Instr.registersPresent, Instr.registers, List.all_cons, List.all_nil, Bool.and_true,
    Bool.and_eq_true] at h
  exact ⟨by simp [decodeFields, Instr.mnemonic, Instr.operandBytes, regOfByte_regByte, h], rfl⟩

theorem FieldsRoundTrip.movRegMem (ra : Reg) (addr : Word) : FieldsRoundTrip.Statement (.movRegMem ra addr) := by
  intro cfg h
  simp only [Instr.wf, Instr.registersPresent, Instr.registers, List.all_cons, List.all_nil, Bool.and_true,
    Bool.and_eq_true] at h
  exact ⟨by simp [decodeFields, Instr.mnemonic, Instr.operandBytes, wordBytes, regOfByte_regByte, h], rfl⟩

theorem FieldsRoundTrip.movMemReg (addr : Word) (rd : Reg) : FieldsRoundTrip.Statement (.movMemReg addr rd) := by
  intro cfg h
  simp only [Instr.wf, Instr.registersPresent, Instr.registers, List.all_cons, List.all_nil, Bool.and_true,
    Bool.and_eq_true] at h
  exact ⟨by simp [decodeFields, Instr.mnemonic, Instr.operandBytes, wordBytes, regOfByte_regByte, h], rfl⟩

theorem FieldsRoundTrip.movLitMem (lit addr : Word) : FieldsRoundTrip.Statement (.movLitMem lit addr) := by
  intro cfg _
  exact ⟨by simp [decodeFields, Instr.mnemonic, Instr.operandBytes, wordBytes], rfl⟩

theorem FieldsRoundTrip.movRegPtrReg (ra rd : Reg) : FieldsRoundTrip.Statement (.movRegPtrReg ra rd) := by
  intro cfg h
  simp only [Instr.wf, Instr.registersPresent, Instr.registers, List.all_cons, List.all_nil, Bool.and_true,
    Bool.and_eq_true] at h
  exact ⟨by simp [decodeFields, Instr.mnemonic, Instr.operandBytes, regOfByte_regByte, h], rfl⟩

theorem FieldsRoundTrip.movLitOffReg (lit : Word) (ra rd : Reg) :
    FieldsRoundTrip.Statement (.movLitOffReg lit ra rd) := by
  intro cfg h
  simp only [Instr.wf, Instr.registersPresent, Instr.registers, List.all_cons, List.all_nil, Bool.and_true,
    Bool.and_eq_true] at h
  exact ⟨by simp [decodeFields, Instr.mnemonic, Instr.operandBytes, wordBytes, regOfByte_regByte, h], rfl⟩

theorem FieldsRoundTrip.addRegReg (ra rb : Reg) : FieldsRoundTrip.Statement (.addRegReg ra rb) := by
  intro cfg h
  simp only [Instr.wf, Instr.registersPresent, Instr.registers, List.all_cons, List.all_nil, Bool.and_true,
    Bool.and_eq_true] at h
  exact ⟨by simp [decodeFields, Instr.mnemonic, Instr.operandBytes, regOfByte_regByte, h], rfl⟩

theorem FieldsRoundTrip.addLitReg (lit : Word) (ra : Reg) : FieldsRoundTrip.Statement (.addLitReg lit ra) := by
  intro cfg h
  simp only [Instr.wf, Instr.registersPresent, Instr.registers, List.all_cons, List.all_nil, Bool.and_true,
    Bool.and_eq_true] at h
  exact ⟨by simp [decodeFields, Instr.mnemonic, Instr.operandBytes, wordBytes, regOfByte_regByte, h], rfl⟩

theorem FieldsRoundTrip.addRegLit (ra : Reg) (lit : Word) : FieldsRoundTrip.Statement (.addRegLit ra lit) := by
  intro cfg h
  simp only [Instr.wf, Instr.registersPresent, Instr.registers, List.all_cons, List.all_nil, Bool.and_true,
    Bool.and_eq_true] at h
  exact ⟨by simp [decodeFields, Instr.mnemonic, Instr.operandBytes, wordBytes, regOfByte_regByte, h], rfl⟩

theorem FieldsRoundTrip.subRegReg (ra rb : Reg) : FieldsRoundTrip.Statement (.subRegReg ra rb) := by
  intro cfg h
  simp only [Instr.wf, Instr.registersPresent, Instr.registers, List.all_cons, List.all_nil, Bool.and_true,
    Bool.and_eq_true] at h
  exact ⟨by simp [decodeFields, Instr.mnemonic, Instr.operandBytes, regOfByte_regByte, h], rfl⟩

theorem FieldsRoundTrip.subLitReg (lit : Word) (ra : Reg) : FieldsRoundTrip.Statement (.subLitReg lit ra) := by
  intro cfg h
  simp only [Instr.wf, Instr.registersPresent, Instr.registers, List.all_cons, List.all_nil, Bool.and_true,
    Bool.and_eq_true] at h
  exact ⟨by simp [decodeFields, Instr.mnemonic, Instr.operandBytes, wordBytes, regOfByte_regByte, h], rfl⟩

theorem FieldsRoundTrip.subRegLit (ra : Reg) (lit : Word) : FieldsRoundTrip.Statement (.subRegLit ra lit) := by
  intro cfg h
  simp only [Instr.wf, Instr.registersPresent, Instr.registers, List.all_cons, List.all_nil, Bool.and_true,
    Bool.and_eq_true] at h
  exact ⟨by simp [decodeFields, Instr.mnemonic, Instr.operandBytes, wordBytes, regOfByte_regByte, h], rfl⟩

theorem FieldsRoundTrip.mulRegReg (ra rb : Reg) : FieldsRoundTrip.Statement (.mulRegReg ra rb) := by
  intro cfg h
  simp only [Instr.wf, Instr.registersPresent, Instr.registers, List.all_cons, List.all_nil, Bool.and_true,
    Bool.and_eq_true] at h
  exact ⟨by simp [decodeFields, Instr.mnemonic, Instr.operandBytes, regOfByte_regByte, h], rfl⟩

theorem FieldsRoundTrip.mulLitReg (lit : Word) (ra : Reg) : FieldsRoundTrip.Statement (.mulLitReg lit ra) := by
  intro cfg h
  simp only [Instr.wf, Instr.registersPresent, Instr.registers, List.all_cons, List.all_nil, Bool.and_true,
    Bool.and_eq_true] at h
  exact ⟨by simp [decodeFields, Instr.mnemonic, Instr.operandBytes, wordBytes, regOfByte_regByte, h], rfl⟩

theorem FieldsRoundTrip.mulRegLit (ra : Reg) (lit : Word) : FieldsRoundTrip.Statement (.mulRegLit ra lit) := by
  intro cfg h
  simp only [Instr.wf, Instr.registersPresent, Instr.registers, List.all_cons, List.all_nil, Bool.and_true,
    Bool.and_eq_true] at h
  exact ⟨by simp [decodeFields, Instr.mnemonic, Instr.operandBytes, wordBytes, regOfByte_regByte, h], rfl⟩

theorem FieldsRoundTrip.incReg (rd : Reg) : FieldsRoundTrip.Statement (.incReg rd) := by
  intro cfg h
  simp only [Instr.wf, Instr.registersPresent, Instr.registers, List.all_cons, List.all_nil, Bool.and_true,
    Bool.and_eq_true] at h
  exact ⟨by simp [decodeFields, Instr.mnemonic, Instr.operandBytes, regOfByte_regByte, h], rfl⟩

theorem FieldsRoundTrip.decReg (rd : Reg) : FieldsRoundTrip.Statement (.decReg rd) := by
  intro cfg h
  simp only [Instr.wf, Instr.registersPresent, Instr.registers, List.all_cons, List.all_nil, Bool.and_true,
    Bool.and_eq_true] at h
  exact ⟨by simp [decodeFields, Instr.mnemonic, Instr.operandBytes, regOfByte_regByte, h], rfl⟩

theorem FieldsRoundTrip.lsfRegLit (rd : Reg) (n : Word) : FieldsRoundTrip.Statement (.lsfRegLit rd n) := by
  intro cfg h
  simp only [Instr.wf, Instr.registersPresent, Instr.registers, Instr.literalFits, List.all_cons, List.all_nil,
    Bool.and_true, Bool.and_eq_true, Bool.or_eq_true, decide_eq_true_eq, beq_iff_eq] at h
  obtain ⟨⟨hr, -⟩, hn⟩ := h
  cases hw : cfg.shiftLitWidth with
  | bits8 =>
    have hn : n.toNat < 256 := by simpa [hw] using hn
    exact ⟨by simp [decodeFields, Instr.mnemonic, Instr.operandBytes, shiftLiteral, shiftLiteralBytes, hw,
      regOfByte_regByte hr, setWidth_loByte hn], by simp [Instr.mnemonic, Instr.operandBytes, Mnemonic.operandSize,
      Mnemonic.kinds, shiftLiteralBytes, hw, OperandKind.size]⟩
  | bits16 =>
    exact ⟨by simp [decodeFields, Instr.mnemonic, Instr.operandBytes, shiftLiteral, shiftLiteralBytes, wordBytes, hw,
      regOfByte_regByte hr], by simp [Instr.mnemonic, Instr.operandBytes, Mnemonic.operandSize,
      Mnemonic.kinds, shiftLiteralBytes, wordBytes, hw, OperandKind.size]⟩

theorem FieldsRoundTrip.lsfRegReg (rd rb : Reg) : FieldsRoundTrip.Statement (.lsfRegReg rd rb) := by
  intro cfg h
  simp only [Instr.wf, Instr.registersPresent, Instr.registers, List.all_cons, List.all_nil, Bool.and_true,
    Bool.and_eq_true] at h
  exact ⟨by simp [decodeFields, Instr.mnemonic, Instr.operandBytes, regOfByte_regByte, h], rfl⟩

theorem FieldsRoundTrip.rsfRegLit (rd : Reg) (n : Word) : FieldsRoundTrip.Statement (.rsfRegLit rd n) := by
  intro cfg h
  simp only [Instr.wf, Instr.registersPresent, Instr.registers, Instr.literalFits, List.all_cons, List.all_nil,
    Bool.and_true, Bool.and_eq_true, Bool.or_eq_true, decide_eq_true_eq, beq_iff_eq] at h
  obtain ⟨⟨hr, -⟩, hn⟩ := h
  cases hw : cfg.shiftLitWidth with
  | bits8 =>
    have hn : n.toNat < 256 := by simpa [hw] using hn
    exact ⟨by simp [decodeFields, Instr.mnemonic, Instr.operandBytes, shiftLiteral, shiftLiteralBytes, hw,
      regOfByte_regByte hr, setWidth_loByte hn], by simp [Instr.mnemonic, Instr.operandBytes, Mnemonic.operandSize,
      Mnemonic.kinds, shiftLiteralBytes, hw, OperandKind.size]⟩
  | bits16 =>
    exact ⟨by simp [decodeFields, Instr.mnemonic, Instr.operandBytes, shiftLiteral, shiftLiteralBytes, wordBytes, hw,
      regOfByte_regByte hr], by simp [Instr.mnemonic, Instr.operandBytes, Mnemonic.operandSize,
      Mnemonic.kinds, shiftLiteralBytes, wordBytes, hw, OperandKind.size]⟩

theorem FieldsRoundTrip.rsfRegReg (rd rb : Reg) : FieldsRoundTrip.Statement (.rsfRegReg rd rb) := by
  intro cfg h
  simp only [Instr.wf, Instr.registersPresent, Instr.registers, List.all_cons, List.all_nil, Bool.and_true,
    Bool.and_eq_true] at h
  exact ⟨by simp [decodeFields, Instr.mnemonic, Instr.operandBytes, regOfByte_regByte, h], rfl⟩

theorem FieldsRoundTrip.andRegLit (ra : Reg) (lit : Word) : FieldsRoundTrip.Statement (.andRegLit ra lit) := by
  intro cfg h
  simp only [Instr.wf, Instr.registersPresent, Instr.registers, List.all_cons, List.all_nil, Bool.and_true,
    Bool.and_eq_true] at h
  exact ⟨by simp [decodeFields, Instr.mnemonic, Instr.operandBytes, wordBytes, regOfByte_regByte, h], rfl⟩

theorem FieldsRoundTrip.andRegReg (ra rb : Reg) : FieldsRoundTrip.Statement (.andRegReg ra rb) := by
  intro cfg h
  simp only [Instr.wf, Instr.registersPresent, Instr.registers, List.all_cons, List.all_nil, Bool.and_true,
    Bool.and_eq_true] at h
  exact ⟨by simp [decodeFields, Instr.mnemonic, Instr.operandBytes, regOfByte_regByte, h], rfl⟩

theorem FieldsRoundTrip.orRegLit (ra : Reg) (lit : Word) : FieldsRoundTrip.Statement (.orRegLit ra lit) := by
  intro cfg h
  simp only [Instr.wf, Instr.registersPresent, Instr.registers, List.all_cons, List.all_nil, Bool.and_true,
    Bool.and_eq_true] at h
  exact ⟨by simp [decodeFields, Instr.mnemonic, Instr.operandBytes, wordBytes, regOfByte_regByte, h], rfl⟩

theorem FieldsRoundTrip.orRegReg (ra rb : Reg) : FieldsRoundTrip.Statement (.orRegReg ra rb) := by
  intro cfg h
  simp only [Instr.wf, Instr.registersPresent, Instr.registers, List.all_cons, List.all_nil, Bool.and_true,
    Bool.and_eq_true] at h
  exact ⟨by simp [decodeFields, Instr.mnemonic, Instr.operandBytes, regOfByte_regByte, h], rfl⟩

theorem FieldsRoundTrip.xorRegLit (ra : Reg) (lit : Word) : FieldsRoundTrip.Statement (.xorRegLit ra lit) := by
  intro cfg h
  simp only [Instr.wf, Instr.registersPresent, Instr.registers, List.all_cons, List.all_nil, Bool.and_true,
    Bool.and_eq_true] at h
  exact ⟨by simp [decodeFields, Instr.mnemonic, Instr.operandBytes, wordBytes, regOfByte_regByte, h], rfl⟩

theorem FieldsRoundTrip.xorRegReg (ra rb : Reg) : FieldsRoundTrip.Statement (.xorRegReg ra rb) := by
  intro cfg h
  simp only [Instr.wf, Instr.registersPresent, Instr.registers, List.all_cons, List.all_nil, Bool.and_true,
    Bool.and_eq_true] at h
  exact ⟨by simp [decodeFields, Instr.mnemonic, Instr.operandBytes, regOfByte_regByte, h], rfl⟩

theorem FieldsRoundTrip.notReg (ra : Reg) : FieldsRoundTrip.Statement (.notReg ra) := by
  intro cfg h
  simp only [Instr.wf, Instr.registersPresent, Instr.registers, List.all_cons, List.all_nil, Bool.and_true,
    Bool.and_eq_true] at h
  exact ⟨by simp [decodeFields, Instr.mnemonic, Instr.operandBytes, regOfByte_regByte, h], rfl⟩

theorem FieldsRoundTrip.jmpNotEq (lit addr : Word) : FieldsRoundTrip.Statement (.jmpNotEq lit addr) := by
  intro cfg _
  exact ⟨by simp [decodeFields, Instr.mnemonic, Instr.operandBytes, wordBytes], rfl⟩

theorem FieldsRoundTrip.jneReg (ra : Reg) (addr : Word) : FieldsRoundTrip.Statement (.jneReg ra addr) := by
  intro cfg h
  simp only [Instr.wf, Instr.registersPresent, Instr.registers, List.all_cons, List.all_nil, Bool.and_true,
    Bool.and_eq_true] at h
  exact ⟨by simp [decodeFields, Instr.mnemonic, Instr.operandBytes, wordBytes, regOfByte_regByte, h], rfl⟩

theorem FieldsRoundTrip.jeqLit (lit addr : Word) : FieldsRoundTrip.Statement (.jeqLit lit addr) := by
  intro cfg _
  exact ⟨by simp [decodeFields, Instr.mnemonic, Instr.operandBytes, wordBytes], rfl⟩

theorem FieldsRoundTrip.jeqReg (ra : Reg) (addr : Word) : FieldsRoundTrip.Statement (.jeqReg ra addr) := by
  intro cfg h
  simp only [Instr.wf, Instr.registersPresent, Instr.registers, List.all_cons, List.all_nil, Bool.and_true,
    Bool.and_eq_true] at h
  exact ⟨by simp [decodeFields, Instr.mnemonic, Instr.operandBytes, wordBytes, regOfByte_regByte, h], rfl⟩

theorem FieldsRoundTrip.jltLit (lit addr : Word) : FieldsRoundTrip.Statement (.jltLit lit addr) := by
  intro cfg _
  exact ⟨by simp [decodeFields, Instr.mnemonic, Instr.operandBytes, wordBytes], rfl⟩

theorem FieldsRoundTrip.jltReg (ra : Reg) (addr : Word) : FieldsRoundTrip.Statement (.jltReg ra addr) := by
  intro cfg h
  simp only [Instr.wf, Instr.registersPresent, Instr.registers, List.all_cons, List.all_nil, Bool.and_true,
    Bool.and_eq_true] at h
  exact ⟨by simp [decodeFields, Instr.mnemonic, Instr.operandBytes, wordBytes, regOfByte_regByte, h], rfl⟩

theorem FieldsRoundTrip.jgtLit (lit addr : Word) : FieldsRoundTrip.Statement (.jgtLit lit addr) := by
  intro cfg _
  exact ⟨by simp [decodeFields, Instr.mnemonic, Instr.operandBytes, wordBytes], rfl⟩

theorem FieldsRoundTrip.jgtReg (ra : Reg) (addr : Word) : FieldsRoundTrip.Statement (.jgtReg ra addr) := by
  intro cfg h
  simp only [Instr.wf, Instr.registersPresent, Instr.registers, List.all_cons, List.all_nil, Bool.and_true,
    Bool.and_eq_true] at h
  exact ⟨by simp [decodeFields, Instr.mnemonic, Instr.operandBytes, wordBytes, regOfByte_regByte, h], rfl⟩

theorem FieldsRoundTrip.jleLit (lit addr : Word) : FieldsRoundTrip.Statement (.jleLit lit addr) := by
  intro cfg _
  exact ⟨by simp [decodeFields, Instr.mnemonic, Instr.operandBytes, wordBytes], rfl⟩

theorem FieldsRoundTrip.jleReg (ra : Reg) (addr : Word) : FieldsRoundTrip.Statement (.jleReg ra addr) := by
  intro cfg h
  simp only [Instr.wf, Instr.registersPresent, Instr.registers, List.all_cons, List.all_nil, Bool.and_true,
    Bool.and_eq_true] at h
  exact ⟨by simp [decodeFields, Instr.mnemonic, Instr.operandBytes, wordBytes, regOfByte_regByte, h], rfl⟩

theorem FieldsRoundTrip.jgeLit (lit addr : Word) : FieldsRoundTrip.Statement (.jgeLit lit addr) := by
  intro cfg _
  exact ⟨by simp [decodeFields, Instr.mnemonic, Instr.operandBytes, wordBytes], rfl⟩

theorem FieldsRoundTrip.jgeReg (ra : Reg) (addr : Word) : FieldsRoundTrip.Statement (.jgeReg ra addr) := by
  intro cfg h
  simp only [Instr.wf, Instr.registersPresent, Instr.registers, List.all_cons, List.all_nil, Bool.and_true,
    Bool.and_eq_true] at h
  exact ⟨by simp [decodeFields, Instr.mnemonic, Instr.operandBytes, wordBytes, regOfByte_regByte, h], rfl⟩

theorem FieldsRoundTrip.pshLit (lit : Word) : FieldsRoundTrip.Statement (.pshLit lit) := by
  intro cfg _
  exact ⟨by simp [decodeFields, Instr.mnemonic, Instr.operandBytes, wordBytes], rfl⟩

theorem FieldsRoundTrip.pshReg (ra : Reg) : FieldsRoundTrip.Statement (.pshReg ra) := by
  intro cfg h
  simp only [Instr.wf, Instr.registersPresent, Instr.registers, List.all_cons, List.all_nil, Bool.and_true,
    Bool.and_eq_true] at h
  exact ⟨by simp [decodeFields, Instr.mnemonic, Instr.operandBytes, regOfByte_regByte, h], rfl⟩

theorem FieldsRoundTrip.pop (rd : Reg) : FieldsRoundTrip.Statement (.pop rd) := by
  intro cfg h
  simp only [Instr.wf, Instr.registersPresent, Instr.registers, List.all_cons, List.all_nil, Bool.and_true,
    Bool.and_eq_true] at h
  exact ⟨by simp [decodeFields, Instr.mnemonic, Instr.operandBytes, regOfByte_regByte, h], rfl⟩

theorem FieldsRoundTrip.calLit (addr : Word) : FieldsRoundTrip.Statement (.calLit addr) := by
  intro cfg _
  exact ⟨by simp [decodeFields, Instr.mnemonic, Instr.operandBytes, wordBytes], rfl⟩

theorem FieldsRoundTrip.calReg (ra : Reg) : FieldsRoundTrip.Statement (.calReg ra) := by
  intro cfg h
  simp only [Instr.wf, Instr.registersPresent, Instr.registers, List.all_cons, List.all_nil, Bool.and_true,
    Bool.and_eq_true] at h
  exact ⟨by simp [decodeFields, Instr.mnemonic, Instr.operandBytes, regOfByte_regByte, h], rfl⟩

theorem FieldsRoundTrip.ret : FieldsRoundTrip.Statement (.ret) :=
  fun _ _ => ⟨rfl, rfl⟩

theorem FieldsRoundTrip.hlt : FieldsRoundTrip.Statement (.hlt) :=
  fun _ _ => ⟨rfl, rfl⟩

end Sys2Proof.Laws
end

