-- ==== Sys2Proof/Tests/Slice0.lean ====
section
/-! SUPPORT. Tests. Bytes and expected values are the spec's own: the example of each instruction's rule, and the
vectors V1 to V51 of 95_test_vectors.md. After them, for each obligation with hypotheses, values that meet them. -/

namespace Sys2Proof.Tests

open Sys2Proof Sys2Proof.Machine Sys2Proof.Safety

/-! ## Helpers -/

/-- The reset machine with registers set and a program at 0x0000. -/
def start (sets : List (Reg × Word)) (bytes : List Byte) : State :=
  storeBytes (sets.foldl (fun s p => s.setReg p.1 p.2) State.reset) 0x0000 bytes

/-- The state after a step. -/
def after (s : State) : Option State :=
  match step s with
  | .next t => some t
  | _ => none

/-- Registers after a step. -/
def regs (s : State) (rs : List Reg) : Option (List Word) := (after s).map fun t => rs.map t.getReg

/-- Bytes of memory after a step, `none` for one that cannot be read. -/
def bytes (s : State) (addrs : List Word) : Option (List (Option Byte)) :=
  (after s).map fun t => addrs.map fun a => (t.byteRead a).toOption

/-- `sp`, `fp`, `fs` and `ip` after a step. -/
def frame (s : State) : Option (Word × Word × Word × Word) :=
  (after s).map fun t => (t.getReg .sp, t.getReg .fp, t.fs, t.getReg .ip)

/-- Status and `ip` after a step. -/
def stop (s : State) : Option (Status × Word) := (after s).map fun t => (t.status, t.getReg .ip)

/-- What decodes from bytes at the default parameters, if it uses them all. -/
def read (bs : List Byte) : Option Instr :=
  match decode Config.default bs with
  | .ok (i, []) => some i
  | _ => none

/-- Map M of 95_test_vectors.md. -/
def mapM : List Region :=
  [{ start := 0x0000, last := 0x00FF, remap := true, device := .storage 0x100 },
   { start := 0x0100, last := 0x01FF, remap := false, device := .storage 0x100 },
   { start := 0x0200, last := 0x020F, remap := true, device := .output }]

/-- The machine at reset but for map M, with registers set and a program. -/
def startM (sets : List (Reg × Word)) (a : Word) (bytes : List Byte) : State :=
  storeBytes (sets.foldl (fun s p => s.setReg p.1 p.2) { State.reset with regions := mapM }) a bytes

/-- The reset machine with one parameter changed. -/
def withCfg (f : Config → Config) (s : State) : State := { s with cfg := f s.cfg }

/-! ## Decoding: each instruction's word, written out from R57 and R62 -/

theorem test_decode_movLitReg : read [0x10, 0x12, 0x34, 0x02] = some (.movLitReg 0x1234 .r1) := by decide
theorem test_decode_movRegReg : read [0x11, 0x02, 0x03] = some (.movRegReg .r1 .r2) := by decide
theorem test_decode_movRegMem : read [0x12, 0x02, 0x01, 0x00] = some (.movRegMem .r1 0x0100) := by decide
theorem test_decode_movMemReg : read [0x13, 0x01, 0x00, 0x04] = some (.movMemReg 0x0100 .r3) := by decide
theorem test_decode_movLitMem : read [0x1B, 0xCA, 0xFE, 0x02, 0x00] = some (.movLitMem 0xCAFE 0x0200) := by decide
theorem test_decode_movRegPtrReg : read [0x1C, 0x02, 0x03] = some (.movRegPtrReg .r1 .r2) := by decide
theorem test_decode_movLitOffReg : read [0x1D, 0x01, 0x00, 0x02, 0x03] = some (.movLitOffReg 0x0100 .r1 .r2) :=
    by decide
theorem test_decode_addRegReg : read [0x14, 0x02, 0x03] = some (.addRegReg .r1 .r2) := by decide
theorem test_decode_addLitReg : read [0x3F, 0x00, 0x01, 0x02] = some (.addLitReg 0x0001 .r1) := by decide
theorem test_decode_addRegLit : read [0x50, 0x02, 0x00, 0x10] = some (.addRegLit .r1 0x0010) := by decide
theorem test_decode_subRegReg : read [0x1F, 0x02, 0x03] = some (.subRegReg .r1 .r2) := by decide
theorem test_decode_subLitReg : read [0x16, 0x00, 0x10, 0x02] = some (.subLitReg 0x0010 .r1) := by decide
theorem test_decode_subRegLit : read [0x1E, 0x02, 0x00, 0x10] = some (.subRegLit .r1 0x0010) := by decide
theorem test_decode_mulRegReg : read [0x21, 0x02, 0x03] = some (.mulRegReg .r1 .r2) := by decide
theorem test_decode_mulLitReg : read [0x20, 0x00, 0x03, 0x02] = some (.mulLitReg 0x0003 .r1) := by decide
theorem test_decode_mulRegLit : read [0x51, 0x02, 0x00, 0x02] = some (.mulRegLit .r1 0x0002) := by decide
theorem test_decode_incReg : read [0x35, 0x02] = some (.incReg .r1) := by decide
theorem test_decode_decReg : read [0x36, 0x0A] = some (.decReg .sp) := by decide
theorem test_decode_lsfRegLit : read [0x26, 0x02, 0x04] = some (.lsfRegLit .r1 0x0004) := by decide
theorem test_decode_lsfRegReg : read [0x27, 0x02, 0x03] = some (.lsfRegReg .r1 .r2) := by decide
theorem test_decode_rsfRegLit : read [0x2A, 0x02, 0xFF] = some (.rsfRegLit .r1 0x00FF) := by decide
theorem test_decode_rsfRegReg : read [0x2B, 0x02, 0x03] = some (.rsfRegReg .r1 .r2) := by decide
theorem test_decode_andRegLit : read [0x2E, 0x02, 0x00, 0xFF] = some (.andRegLit .r1 0x00FF) := by decide
theorem test_decode_andRegReg : read [0x2F, 0x02, 0x03] = some (.andRegReg .r1 .r2) := by decide
theorem test_decode_orRegLit : read [0x30, 0x02, 0xF0, 0x00] = some (.orRegLit .r1 0xF000) := by decide
theorem test_decode_orRegReg : read [0x31, 0x02, 0x03] = some (.orRegReg .r1 .r2) := by decide
theorem test_decode_xorRegLit : read [0x32, 0x02, 0xFF, 0xFF] = some (.xorRegLit .r1 0xFFFF) := by decide
theorem test_decode_xorRegReg : read [0x33, 0x02, 0x02] = some (.xorRegReg .r1 .r1) := by decide
theorem test_decode_notReg : read [0x34, 0x02] = some (.notReg .r1) := by decide
theorem test_decode_jmpNotEq : read [0x15, 0x00, 0x05, 0x00, 0x40] = some (.jmpNotEq 0x0005 0x0040) := by decide
theorem test_decode_jneReg : read [0x40, 0x02, 0x00, 0x40] = some (.jneReg .r1 0x0040) := by decide
theorem test_decode_jeqLit : read [0x41, 0x00, 0x05, 0x00, 0x40] = some (.jeqLit 0x0005 0x0040) := by decide
theorem test_decode_jeqReg : read [0x3E, 0x02, 0x00, 0x40] = some (.jeqReg .r1 0x0040) := by decide
theorem test_decode_jltLit : read [0x43, 0x00, 0x10, 0x00, 0x40] = some (.jltLit 0x0010 0x0040) := by decide
theorem test_decode_jltReg : read [0x42, 0x02, 0x00, 0x40] = some (.jltReg .r1 0x0040) := by decide
theorem test_decode_jgtLit : read [0x45, 0x7F, 0xFF, 0x00, 0x40] = some (.jgtLit 0x7FFF 0x0040) := by decide
theorem test_decode_jgtReg : read [0x44, 0x02, 0x00, 0x40] = some (.jgtReg .r1 0x0040) := by decide
theorem test_decode_jleLit : read [0x47, 0x00, 0x05, 0x00, 0x40] = some (.jleLit 0x0005 0x0040) := by decide
theorem test_decode_jleReg : read [0x46, 0x02, 0x00, 0x40] = some (.jleReg .r1 0x0040) := by decide
theorem test_decode_jgeLit : read [0x49, 0x00, 0x00, 0x00, 0x40] = some (.jgeLit 0x0000 0x0040) := by decide
theorem test_decode_jgeReg : read [0x48, 0x02, 0x00, 0x40] = some (.jgeReg .r1 0x0040) := by decide
theorem test_decode_pshLit : read [0x17, 0xAA, 0xAA] = some (.pshLit 0xAAAA) := by decide
theorem test_decode_pshReg : read [0x18, 0x0A] = some (.pshReg .sp) := by decide
theorem test_decode_pop : read [0x1A, 0x02] = some (.pop .r1) := by decide
theorem test_decode_calLit : read [0x5E, 0x00, 0x20] = some (.calLit 0x0020) := by decide
theorem test_decode_calReg : read [0x5F, 0x06] = some (.calReg .r5) := by decide
theorem test_decode_ret : read [0x60] = some .ret := by decide
theorem test_decode_hlt : read [0xFF] = some .hlt := by decide

/-- R90: the 16-bit form of a shift literal, which is one byte longer (V12). -/
theorem test_decode_wideShift :
    (decode { Config.default with shiftLitWidth := .bits16 } [0x26, 0x02, 0x00, 0x04]).toOption =
      some (.lsfRegLit .r1 0x0004, []) := by decide

/-- An unassigned opcode and a truncated instruction are rejected by name. -/
theorem test_decode_rejects :
    decode Config.default [0x19, 0x00] = .error (.unknownOpcode 0x19) ∧
      decode Config.default [0x10, 0x12] = .error (.truncated .movLitReg) ∧
      decode Config.default [] = .error .noOpcode := ⟨rfl, rfl, rfl⟩

/-- The encoder writes the canonical bytes (R56, R60). -/
theorem test_encode_movLitOffReg :
    encode Config.default (.movLitOffReg 0x0018 .fp .r1) = [0x1D, 0x00, 0x18, 0x0B, 0x02] := by decide

/-- The opcode table's numbering: bit 0 is the least significant bit of the first byte. -/
theorem test_decodeTableWord :
    decodeTableWord 8 0x10 = some (.movLitReg 0x0000 .ip) ∧ decodeTableWord 40 0x030200011D =
      some (.movLitOffReg 0x0100 .r1 .r2) ∧ decodeTableWord 8 0x19 = none := by decide

/-- The instruction placed where the next step fetches is the one that runs. -/
theorem test_withFetchWord :
    regs (State.reset.withFetchWord 16 0x0235) [.r1, .ip] = some [0x0001, 0x0002] ∧
      stop (State.reset.withFetchWord 8 0xFF) = some (.halted, 0x0001) := by decide

/-! ## Well-formedness: an ill-formed term for each check -/

theorem test_wf_absentRegister : (Instr.incReg .sp).wf { Config.default with regConfig := .reduced } = false ∧
    (Instr.incReg .sp).registersPresent { Config.default with regConfig := .reduced } = false ∧
    (Instr.incReg .sp).wf Config.default = true := by decide
theorem test_wf_unsupported : (Instr.pshLit 0x0001).wf { Config.default with regConfig := .reduced } = false ∧
    (Instr.pshLit 0x0001).supported { Config.default with regConfig := .reduced } = false ∧
    (Instr.pshLit 0x0001).wf Config.default = true := by decide
theorem test_wf_literalTooWide : (Instr.lsfRegLit .r1 0x0100).wf Config.default = false ∧
    (Instr.lsfRegLit .r1 0x0100).literalFits Config.default = false ∧
    (Instr.lsfRegLit .r1 0x0100).wf { Config.default with shiftLitWidth := .bits16 } = true := by decide

/-! ## One step of each instruction -/

theorem test_movLitReg : regs (start [] [0x10, 0x12, 0x34, 0x02]) [.r1, .ip] = some [0x1234, 0x0004] := by decide
/-- V4: register byte 0xFF selects `r2`. -/
theorem test_registerModulo : regs (start [] [0x10, 0x12, 0x34, 0xFF]) [.r2, .r1] = some [0x1234, 0x0000] := by decide
theorem test_movRegReg : regs (start [(.r1, 0xBEEF)] [0x11, 0x02, 0x03]) [.r2, .ip] = some [0xBEEF, 0x0003] := by decide
/-- V21: `ip` read as an operand is the address of the next instruction. -/
theorem test_movRegReg_ip : regs (start [] [0x11, 0x00, 0x02]) [.r1] = some [0x0003] := by decide
theorem test_movRegMem : bytes (start [(.r1, 0xBEEF)] [0x12, 0x02, 0x01, 0x00]) [0x0100, 0x0101] =
    some [some 0xBE, some 0xEF] := by decide
theorem test_movMemReg : regs (storeBytes (start [] [0x13, 0x01, 0x00, 0x04]) 0x0100 [0xBE, 0xEF]) [.r3, .ip] =
    some [0xBEEF, 0x0004] := by decide
/-- V13: a word across two regions. -/
theorem test_movMemReg_straddle : stop (start [] [0x13, 0x2F, 0xFF, 0x02]) =
    some (.faulted (.wordStraddle 0x2FFF), 0x0004) := by decide
theorem test_movLitMem : bytes (start [] [0x1B, 0xCA, 0xFE, 0x02, 0x00]) [0x0200, 0x0201] =
    some [some 0xCA, some 0xFE] := by decide
/-- V14: two events, the high byte first. -/
theorem test_movLitMem_output : (after (start [] [0x1B, 0x41, 0x42, 0x30, 0xFE])).map State.out =
    some [⟨1, 0xFE, 0x41⟩, ⟨1, 0xFF, 0x42⟩] := by decide
/-- V19: an odd address. -/
theorem test_movRegPtrReg : regs (storeBytes (start [(.r1, 0x0201)] [0x1C, 0x02, 0x03]) 0x0201 [0x12, 0x34]) [.r2] =
    some [0x1234] := by decide
/-- V20: the indexed address wraps, here to the instruction's own bytes. -/
theorem test_movLitOffReg : regs (start [(.r1, 0x0003)] [0x1D, 0xFF, 0xFF, 0x02, 0x03]) [.r2, .ip] =
    some [0xFF02, 0x0005] := by decide
theorem test_addRegReg : regs (start [(.r1, 3), (.r2, 4)] [0x14, 0x02, 0x03]) [.acc, .ip] = some [0x0007, 0x0003] := by
  decide
theorem test_addLitReg : regs (start [(.r1, 0xFFFF)] [0x3F, 0x00, 0x01, 0x02]) [.acc, .r1] = some [0x0000, 0xFFFF] := by
  decide
theorem test_addRegLit : regs (start [(.r1, 5)] [0x50, 0x02, 0x00, 0x10]) [.acc, .ip] = some [0x0015, 0x0004] :=
    by decide
theorem test_subRegReg : regs (start [(.r1, 5), (.r2, 7)] [0x1F, 0x02, 0x03]) [.acc] = some [0xFFFE] := by decide
theorem test_subLitReg : regs (start [(.r1, 3)] [0x16, 0x00, 0x10, 0x02]) [.acc] = some [0x000D] := by decide
/-- V26. -/
theorem test_subLitReg_lineage :
    regs (withCfg (fun c => { c with subOrder := .lineage }) (start [(.r1, 3)] [0x16, 0x00, 0x10, 0x02])) [.acc] =
      some [0xFFF3] := by decide
theorem test_subRegLit : regs (start [(.r1, 3)] [0x1E, 0x02, 0x00, 0x10]) [.acc] = some [0xFFF3] := by decide
theorem test_mulRegReg : regs (start [(.r1, 0xFFFF), (.r2, 0xFFFF)] [0x21, 0x02, 0x03]) [.acc] = some [0x0001] :=
    by decide
theorem test_mulLitReg : regs (start [(.r1, 0x5555)] [0x20, 0x00, 0x03, 0x02]) [.acc] = some [0xFFFF] := by decide
theorem test_mulRegLit : regs (start [(.r1, 0x8001)] [0x51, 0x02, 0x00, 0x02]) [.acc] = some [0x0002] := by decide
theorem test_incReg : regs (start [(.r1, 0xFFFF)] [0x35, 0x02]) [.r1, .acc] = some [0x0000, 0x0000] := by decide
/-- V6: the destination `ip` is written after the fetches. -/
theorem test_incReg_ip : regs (start [] [0x35, 0x00]) [.ip] = some [0x0003] := by decide
theorem test_decReg : regs (start [(.r1, 0)] [0x36, 0x02]) [.r1, .ip] = some [0xFFFF, 0x0002] := by decide
theorem test_lsfRegLit : regs (start [(.r1, 0x1234)] [0x26, 0x02, 0x04]) [.r1, .ip] = some [0x2340, 0x0003] := by decide
theorem test_lsfRegReg : regs (start [(.r1, 1), (.r2, 15)] [0x27, 0x02, 0x03]) [.r1, .r2] = some [0x8000, 0x000F] := by
  decide
/-- V29 under `Fault`. -/
theorem test_lsfRegReg_fault :
    stop (withCfg (fun c => { c with shiftOverflow := .fault }) (start [(.r1, 1), (.r2, 16)] [0x27, 0x02, 0x03])) =
      some (.faulted (.shiftOutOfRange 16), 0x0003) := by decide
theorem test_rsfRegLit : regs (start [(.r1, 0xABCD)] [0x2A, 0x02, 0x08]) [.r1] = some [0x00AB] := by decide
/-- V31: a logical shift. -/
theorem test_rsfRegReg : regs (start [(.r1, 0xFFFF), (.r2, 15)] [0x2B, 0x02, 0x03]) [.r1] = some [0x0001] := by decide
theorem test_andRegLit : regs (start [(.r1, 0x1234)] [0x2E, 0x02, 0x00, 0xFF]) [.acc, .r1] = some [0x0034, 0x1234] := by
  decide
theorem test_andRegReg : regs (start [(.r1, 0xFF00), (.r2, 0x0FF0)] [0x2F, 0x02, 0x03]) [.acc] = some [0x0F00] :=
    by decide
theorem test_orRegLit : regs (start [(.r1, 0x0234)] [0x30, 0x02, 0xF0, 0x00]) [.acc] = some [0xF234] := by decide
theorem test_orRegReg : regs (start [(.r1, 0xF000), (.r2, 0x000F)] [0x31, 0x02, 0x03]) [.acc] = some [0xF00F] :=
    by decide
theorem test_xorRegLit : regs (start [(.r1, 0x1234)] [0x32, 0x02, 0xFF, 0xFF]) [.acc] = some [0xEDCB] := by decide
theorem test_xorRegReg : regs (start [(.r1, 0x1234), (.acc, 1)] [0x33, 0x02, 0x02]) [.acc] = some [0x0000] := by decide
theorem test_notReg : regs (start [(.r1, 0x00FF)] [0x34, 0x02]) [.acc, .r1] = some [0xFF00, 0x00FF] := by decide
theorem test_jmpNotEq : regs (start [(.acc, 6)] [0x15, 0x00, 0x05, 0x00, 0x40]) [.ip] = some [0x0040] := by decide
theorem test_jmpNotEq_equal : regs (start [(.acc, 5)] [0x15, 0x00, 0x05, 0x00, 0x40]) [.ip] = some [0x0005] := by decide
theorem test_jneReg : regs (start [(.acc, 1), (.r1, 2)] [0x40, 0x02, 0x00, 0x40]) [.ip] = some [0x0040] := by decide
/-- V38. -/
theorem test_jneReg_acc : regs (start [(.acc, 5)] [0x40, 0x01, 0x00, 0x40]) [.ip] = some [0x0004] := by decide
theorem test_jeqLit : regs (start [(.acc, 5)] [0x41, 0x00, 0x05, 0x00, 0x40]) [.ip] = some [0x0040] := by decide
theorem test_jeqReg : regs (start [(.acc, 0x1234), (.r1, 0x1234)] [0x3E, 0x02, 0x00, 0x40]) [.ip] = some [0x0040] := by
  decide
/-- V37 under both orders. -/
theorem test_jltLit : regs (start [(.acc, 0xFFFF)] [0x43, 0x00, 0x00, 0x00, 0x40]) [.ip] = some [0x0005] ∧
    regs (withCfg (fun c => { c with cmpOrder := .valueFirst }) (start [(.acc, 0xFFFF)] [0x43, 0x00, 0x00, 0x00, 0x40]))
      [.ip] = some [0x0040] := by decide
theorem test_jltReg : regs (start [(.acc, 1), (.r1, 0x8000)] [0x42, 0x02, 0x00, 0x40]) [.ip] = some [0x0040] :=
    by decide
theorem test_jgtLit : regs (start [(.acc, 0x8000)] [0x45, 0x7F, 0xFF, 0x00, 0x40]) [.ip] = some [0x0040] := by decide
theorem test_jgtReg : regs (start [(.acc, 0x8000), (.r1, 0x7FFF)] [0x44, 0x02, 0x00, 0x40]) [.ip] = some [0x0040] := by
  decide
theorem test_jleLit : regs (start [(.acc, 5)] [0x47, 0x00, 0x05, 0x00, 0x40]) [.ip] = some [0x0040] := by decide
theorem test_jleReg : regs (start [(.acc, 7), (.r1, 3)] [0x46, 0x02, 0x00, 0x40]) [.ip] = some [0x0004] := by decide
theorem test_jgeLit : regs (start [] [0x49, 0x00, 0x00, 0x00, 0x40]) [.ip] = some [0x0040] := by decide
theorem test_jgeReg : regs (start [(.acc, 3), (.r1, 7)] [0x48, 0x02, 0x00, 0x40]) [.ip] = some [0x0004] := by decide
theorem test_pshLit : bytes (start [] [0x17, 0xAB, 0xCD]) [0xFFFE, 0xFFFF] = some [some 0xAB, some 0xCD] ∧
    frame (start [] [0x17, 0xAB, 0xCD]) = some (0xFFFC, 0xFFFE, 0x0002, 0x0003) := by decide
/-- V41: a push that straddles changes neither `sp` nor `fs`. -/
theorem test_pshLit_straddle : stop (start [(.sp, 0xFFFF)] [0x17, 0x12, 0x34]) =
      some (.faulted (.wordStraddle 0xFFFF), 0x0003) ∧
    frame (start [(.sp, 0xFFFF)] [0x17, 0x12, 0x34]) = some (0xFFFF, 0xFFFE, 0x0000, 0x0003) := by decide
/-- V44: the old `sp`. -/
theorem test_pshReg : bytes (start [] [0x18, 0x0A]) [0xFFFE, 0xFFFF] = some [some 0xFF, some 0xFE] := by decide
/-- V42: a pop with nothing pushed wraps. -/
theorem test_pop : regs (start [] [0x1A, 0x02]) [.r1, .sp] = some [0x1A02, 0x0000] ∧
    frame (start [] [0x1A, 0x02]) = some (0x0000, 0xFFFE, 0xFFFE, 0x0002) := by decide
/-- V43: `POP sp`. -/
theorem test_pop_sp : frame (storeBytes (start [(.sp, 0xFFFC)] [0x1A, 0x0A]) 0xFFFE [0x12, 0x34]) =
    some (0x1234, 0xFFFE, 0xFFFE, 0x0002) := by decide
/-- The example of R127, with the frame of V48. -/
theorem test_calLit :
    let s := (storeBytes (start [(.sp, 0xFFFC), (.r1, 0x1111), (.r2, 0x2222), (.ip, 0x000B)] []) 0x000B
      [0x5E, 0x00, 0x20]).setFs 2
    frame s = some (0xFFE8, 0xFFE8, 0x0000, 0x0020) ∧
      bytes s [0xFFEA, 0xFFEB, 0xFFEC, 0xFFED, 0xFFFA, 0xFFFB, 0xFFFC, 0xFFFD] =
        some [some 0x00, some 0x16, some 0x00, some 0x0E, some 0x22, some 0x22, some 0x11, some 0x11] := by decide
/-- V46: `CAL_REG ip`. -/
theorem test_calReg : frame (start [] [0x5F, 0x00]) = some (0xFFEA, 0xFFEA, 0x0000, 0x0002) ∧
    bytes (start [] [0x5F, 0x00]) [0xFFEC, 0xFFED, 0xFFEE, 0xFFEF] =
      some [some 0x00, some 0x14, some 0x00, some 0x02] := by decide
/-- V47: RET at top level. -/
theorem test_ret_topLevel : frame (start [] [0x60]) = some (0x0014, 0x5FFE, 0x5FEC, 0x0000) := by decide
/-- V49: a frame with two arguments. -/
theorem test_ret_arguments :
    frame (storeBytes (start [(.fp, 0x4000)] [0x60]) 0x4016 [0x00, 0x02]) =
      some (0x401A, 0x4000, 0x0000 - 24, 0x0000) := by decide
theorem test_hlt : stop (start [] [0xFF]) = some (.halted, 0x0001) := by decide
/-- V8: the fetch at 0xFFFF wraps `ip`. -/
theorem test_hlt_wrap : stop (storeBytes (start [(.ip, 0xFFFF)] []) 0xFFFF [0xFF]) = some (.halted, 0x0000) := by decide

/-! ## Faults, the map and the host -/

/-- V1 and V2: the fault is taken with `ip` past the opcode, and stays. -/
theorem test_unknownOpcode : stop State.reset = some (.faulted (.unknownOpcode 0x00), 0x0001) ∧
    (after State.reset).map step = some (.fault (.unknownOpcode 0x00)) := ⟨by decide, rfl⟩
/-- V7: a straddling operand fetch. -/
theorem test_fetchStraddle : stop (storeBytes (start [(.ip, 0xFFFE)] []) 0xFFFE [0x10, 0x00]) =
    some (.faulted (.wordStraddle 0xFFFF), 0xFFFF) := by decide
/-- V9 and V17: without remap the index is the address. -/
theorem test_deviceIndex : stop (startM [(.ip, 0x00FF)] 0x00FF [0x14]) =
      some (.faulted (.deviceIndexOutOfRange 0x0100), 0x0100) ∧
    stop (startM [] 0x0000 [0x13, 0x01, 0x00, 0x02]) = some (.faulted (.deviceIndexOutOfRange 0x0100), 0x0004) := by
  decide
/-- V16 and V45: unmapped addresses. -/
theorem test_outOfBounds : stop (startM [] 0x0000 [0x13, 0x03, 0x00, 0x02]) =
      some (.faulted (.addressOutOfBounds 0x0300), 0x0004) ∧
    stop (startM [] 0x0000 [0x17, 0x00, 0x01]) = some (.faulted (.addressOutOfBounds 0xFFFE), 0x0003) := by decide
/-- V10 and V11: the reduced Register File. -/
theorem test_reduced :
    regs (withCfg (fun c => { c with regConfig := .reduced }) (start [] [0x10, 0x12, 0x34, 0x0A])) [.ip] =
      some [0x1234] ∧
    stop (withCfg (fun c => { c with regConfig := .reduced }) (start [] [0x17, 0x12, 0x34])) =
      some (.faulted (.unknownOpcode 0x17), 0x0001) := by decide
/-- R45: the default platform maps, and its regions do not overlap (R28). -/
theorem test_setup : (setup Config.default defaultRegions).toOption = some State.reset ∧
    overlapError [] defaultRegions = none := by decide
/-- R148: the host loads before the first step and not after it, nor after the step that stopped the machine. -/
theorem test_load : ((load State.reset 0x0010 [0x12, 0x34]).map fun t => (t.byteRead 0x0011).toOption) =
      some (some 0x34) ∧
    (after (start [] [0x35, 0x02])).map (fun t => load t 0x0010 [0x12]) = some none ∧
    (after (start [] [0xFF])).map (fun t => load t 0x0010 [0x12]) = some none := by decide
/-- R148, R150, R154: an inspection that stops a machine before its first step leaves the host free to load; the step
that then reports the stop ends that. -/
theorem test_load_stopped :
    let s := (getRegister "pc" State.reset).state
    (load s 0x0010 [0x12]).isSome = true ∧ (hostStep s).2 = .fault (.unknownRegister "pc") ∧
      load (hostStep s).1 0x0010 [0x12] = none := by decide
/-- R150: an unknown name is fatal, and `view` reads an output region as zeros. -/
theorem test_inspection : (getRegister "pc" State.reset).state.status = .faulted (.unknownRegister "pc") ∧
    viewBytes State.reset 2 0x30FF = .ok [0x00, 0x00] := ⟨rfl, rfl⟩
/-- V51: a run ends at HLT. -/
theorem test_run : (hostRun 3 (start [] [0xFF, 0x00])).2 = some .done := by decide

/-! ## Witnesses: for each obligation with hypotheses, values that meet them -/

/-- A word access that falls in storage, as a check. -/
def inStorage (s : State) (a : Word) : Bool :=
  match s.wordTarget a with
  | .ok (.cell _) => true
  | _ => false

theorem inStorage_sound {s : State} {a : Word} (h : inStorage s a = true) : WordInStorage s a := by
  unfold inStorage at h
  split at h
  · next n hn => exact wordInStorage_of_target hn
  · cases h

/-- A word access that no check stops, as a check. -/
def noFault (s : State) (a : Word) : Bool :=
  match s.wordTarget a with
  | .ok _ => true
  | .error _ => false

theorem noFault_sound {s : State} {a : Word} (h : noFault s a = true) (f : Fault) : ¬ WordFaults s a f := by
  intro hf
  rw [noFault, State.wordTarget_of_faults hf] at h
  cases h

theorem reset_wellFormed : WellFormed State.reset :=
  ⟨⟨List.Pairwise.nil, fun _ h => absurd h List.not_mem_nil⟩, fun _ h => absurd h List.not_mem_nil⟩

theorem witness_ConstructedMachineHasResetValues :
    Config.default.regConfig = .full ∧ ∃ r, defaultRegions[Config.default.stackRegion]? = some r ∧ r.last = 0xFFFF :=
  ⟨rfl, _, rfl, rfl⟩
theorem witness_ConstructedMachineHasResetValues_byte : State.reset.byteRead 0xFFFF = .ok 0x00 := rfl

theorem witness_StepKeepsStateWellFormed : WellFormed State.reset ∧ ∃ t, step State.reset = .next t :=
  ⟨reset_wellFormed, _, rfl⟩
/-- V14 and E8: steps that emit events and that store. -/
theorem witness_StepKeepsMapAndParameters : ∃ t, step (start [] [0x17, 0xAA, 0xAA]) = .next t := ⟨_, rfl⟩
theorem witness_OutputLogOnlyGrows : ∃ t, step (start [] [0x1B, 0x41, 0x42, 0x30, 0xFE]) = .next t ∧ t.out ≠ [] :=
  ⟨_, rfl, by decide⟩
theorem witness_HaltedMachineNeverChanges : (State.reset.setStatus .halted).status = .halted ∧
    (State.reset.start.setStatus .halted).status = .halted ∧ (State.reset.start.setStatus .halted).started = true :=
  ⟨rfl, rfl, rfl⟩
theorem witness_OnlyHltHalts : (start [] [0xFF]).status = .running ∧
    ∃ t, step (start [] [0xFF]) = .next t ∧ t.status = .halted := ⟨rfl, _, rfl, rfl⟩
theorem witness_OnlyStackInstructionsWriteFrameCounter : (Instr.decReg .sp).needsStack = false ∧
    ∃ t, exec (.decReg .sp) State.reset = .next t := ⟨rfl, _, rfl⟩
theorem witness_ReducedMachineNeverTouchesStackState :
    (withCfg (fun c => { c with regConfig := .reduced }) (start [] [0x10, 0x12, 0x34, 0x0A])).cfg.regConfig = .reduced ∧
      ∃ t, step (withCfg (fun c => { c with regConfig := .reduced }) (start [] [0x10, 0x12, 0x34, 0x0A])) = .next t :=
  ⟨rfl, _, rfl⟩
theorem witness_ReducedMachineHasNoStackOpcodes :
    let s := withCfg (fun c => { c with regConfig := .reduced }) (start [] [0x17, 0x12, 0x34])
    s.cfg.wf ∧ s.cfg.regConfig = .reduced ∧ s.status = .running ∧
      Mnemonic.pshLit ∈ [Mnemonic.pshLit, .pshReg, .pop, .calLit, .calReg, .ret] ∧
      s.byteRead (s.getReg .ip) = .ok (s.cfg.opcodeByte .pshLit) :=
  ⟨by decide, rfl, rfl, by decide, rfl⟩
theorem witness_OnlyStoringInstructionsWriteMemory :
    Instr.ret.mnemonic ∉ [Mnemonic.movRegMem, .movLitMem, .pshLit, .pshReg, .calLit, .calReg] ∧
      ∃ t, exec .ret State.reset = .next t := ⟨by decide, _, rfl⟩
theorem witness_DecodeOfEncode : Config.default.wf ∧ (Instr.movLitOffReg 0xFFFF .ip .fp).wf Config.default = true ∧
    (Instr.lsfRegLit .r1 0x00FF).wf Config.default = true := by decide
theorem witness_DecodedInstructionIsWellFormed :
    decode Config.default [0x1D, 0xFF, 0xFF, 0x00, 0xFF, 0x60] = .ok (.movLitOffReg 0xFFFF .ip .r2, [0x60]) := rfl
theorem witness_RegisterByteIsReducedModuloCount : Config.default.regConfig = .full ∧
    { Config.default with regConfig := .reduced }.regConfig = .reduced := ⟨rfl, rfl⟩

/-- The last byte of the address space, and an instruction with operands of both kinds. -/
theorem witness_StepRunsDecodedInstruction :
    let s := start [] [0x1D, 0x01, 0x00, 0x02, 0x03]
    s.status = .running ∧ s.byteRead (s.getReg .ip) = .ok 0x1D ∧ s.cfg.mnemonicOf 0x1D = some .movLitOffReg ∧
      OperandsAt s (s.getReg .ip + 1) (Mnemonic.kinds s.cfg .movLitOffReg) [0x01, 0x00, 0x02, 0x03] ∧
      decode s.cfg [0x1D, 0x01, 0x00, 0x02, 0x03] = .ok (.movLitOffReg 0x0100 .r1 .r2, []) :=
  ⟨rfl, rfl, rfl, ⟨rfl, rfl, rfl, rfl⟩, rfl⟩
theorem witness_StepRunsDecodedInstruction_last :
    let s := storeBytes (start [(.ip, 0xFFFF)] []) 0xFFFF [0xFF]
    s.status = .running ∧ s.byteRead (s.getReg .ip) = .ok 0xFF ∧ s.cfg.mnemonicOf 0xFF = some .hlt ∧
      OperandsAt s (s.getReg .ip + 1) (Mnemonic.kinds s.cfg .hlt) [] ∧ decode s.cfg [0xFF] = .ok (.hlt, []) :=
  ⟨rfl, rfl, rfl, rfl, rfl⟩
theorem witness_OpcodeFetchFaults : (startM [(.ip, 0x0210)] 0x0000 []).status = .running ∧
    (startM [(.ip, 0x0210)] 0x0000 []).byteRead 0x0210 = .error (.addressOutOfBounds 0x0210) ∧
    State.reset.byteRead (State.reset.getReg .ip) = .ok 0x00 ∧ State.reset.cfg.mnemonicOf 0x00 = none :=
  ⟨rfl, rfl, rfl, rfl⟩
/-- V7, and a fault at each place: at the opcode, at an unassigned opcode, and at the last of four operand bytes. -/
theorem witness_FetchFaultMovesOnlyIp :
    (let s := storeBytes (start [(.ip, 0xFFFE)] []) 0xFFFE [0x10, 0x00]
     s.status = .running ∧ (∃ s', fetchInstr s = .raised (.wordStraddle 0xFFFF) s') ∧
       FetchFaults s (.wordStraddle 0xFFFF) 1) ∧
    FetchFaults (startM [(.ip, 0x0210)] 0 []) (.addressOutOfBounds 0x0210) 0 ∧
    FetchFaults State.reset (.unknownOpcode 0x00) 1 ∧
    FetchFaults (startM [(.ip, 0x00FC)] 0x00FC [0x1D, 0x01, 0x00, 0x02]) (.deviceIndexOutOfRange 0x0100) 4 :=
  ⟨⟨rfl, ⟨_, rfl⟩, .inr ⟨0x10, rfl, .inr ⟨.movLitReg, [], .lit16, [.reg], [], rfl, rfl, rfl, rfl, rfl⟩⟩⟩,
    .inl ⟨rfl, rfl⟩, .inr ⟨0x00, rfl, .inl ⟨rfl, rfl, rfl⟩⟩,
    .inr ⟨0x1D, rfl, .inr ⟨.movLitOffReg, [.lit16, .reg], .reg, [], [0x01, 0x00, 0x02], rfl, rfl, ⟨rfl, rfl, rfl⟩, rfl,
      rfl⟩⟩⟩
theorem witness_FetchPrimitivesAdvanceIp : (start [(.ip, 0xFFFF)] []).byteRead 0xFFFF = .ok 0x00 ∧
    (startM [(.ip, 0x0210)] 0 []).byteRead 0x0210 = .error (.addressOutOfBounds 0x0210) ∧
    (start [(.ip, 0xFFFF)] []).wordRead 0xFFFF = .error (.wordStraddle 0xFFFF) ∧
    (start [(.ip, 0xFFFE)] []).wordRead 0xFFFE = .ok 0x0000 := ⟨rfl, rfl, rfl, rfl⟩

/-! ### Mapper -/

theorem witness_LookupFindsFirstRegion : (∃ r, (startM [] 0 []).lookup 0x00FF = some (0, r)) ∧
    (∃ r, (startM [] 0 []).lookup 0x0100 = some (1, r)) ∧ (∃ r, (startM [] 0 []).lookup 0x020F = some (2, r)) ∧
    (startM [] 0 []).lookup 0x0210 = none := ⟨⟨_, rfl⟩, ⟨_, rfl⟩, ⟨_, rfl⟩, rfl⟩
/-- Each outcome of a byte access at a boundary of map M. -/
theorem witness_ByteAccessFaultsExactly : Memory.wf (startM [] 0 []).mem ∧
    ByteInStorage (startM [] 0 []) 0x00FF ∧ ByteInOutput (startM [] 0 []) 0x020F 2 0x0F ∧
      ByteFaults (startM [] 0 []) 0x0100 (.deviceIndexOutOfRange 0x0100) ∧
      ByteFaults (startM [] 0 []) 0x0210 (.addressOutOfBounds 0x0210) :=
  ⟨reset_wellFormed.1, ⟨_, _, _, rfl, rfl, by decide⟩, ⟨_, rfl, rfl, rfl⟩, byteFaults_of_target rfl,
    byteFaults_of_target rfl⟩
/-- Each outcome of a word access at a boundary of map M. -/
theorem witness_WordAccessFaultsExactly :
    WordInStorage (startM [] 0 []) 0x00FE ∧
      (startM [] 0 []).lookup (0x00FE + 1) = (startM [] 0 []).lookup 0x00FE ∧
      WordInOutput (startM [] 0 []) 0x020E 2 0x0E ∧
      WordFaults (startM [] 0 []) 0x00FF (.wordStraddle 0x00FF) ∧
      WordFaults (startM [] 0 []) 0x0100 (.deviceIndexOutOfRange 0x0100) ∧
      WordFaults (startM [] 0 []) 0x020F (.wordStraddle 0x020F) ∧
      WordFaults (startM [] 0 []) 0x0210 (.addressOutOfBounds 0x0210) :=
  ⟨inStorage_sound rfl, rfl, wordInOutput_of_target rfl, wordFaults_of_target rfl, wordFaults_of_target rfl,
    wordFaults_of_target rfl, wordFaults_of_target rfl⟩
theorem witness_WordWriteThenReadBack_storage : Memory.wf State.reset.mem ∧ ∃ r, (0x2FFE :
    Word).toNat + 1 ≤ r.last.toNat ∧
    State.reset.lookup 0x2FFE = some (0, r) ∧ State.reset.lookup (0x2FFE + 1) = some (0, r) ∧
    r.device = .storage 0x3000 ∧ deviceIndex r 0x2FFE + 1 < 0x3000 :=
  ⟨reset_wellFormed.1, _, by decide, rfl, rfl, rfl, by decide⟩
theorem witness_WordWriteThenReadBack_output : ∃ r, (0x30FE : Word).toNat + 1 ≤ r.last.toNat ∧
    State.reset.lookup 0x30FE = some (1, r) ∧ State.reset.lookup (0x30FE + 1) = some (1, r) ∧ r.device = .output :=
  ⟨_, by decide, rfl, rfl, rfl⟩

/-! ### Move -/

theorem witness_LoadsWriteDestinationOnly :
    let s := storeBytes (start [(.r1, 0x0101)] []) 0x0100 [0xBE, 0xEF]
    s.wordRead 0x0100 = .ok 0xBEEF ∧ (s.setReg .r1 0x0100).wordRead ((s.setReg .r1 0x0100).getReg .r1) = .ok 0xBEEF ∧
      s.wordRead (BitVec.ofNat 16 ((0xFFFF : Word).toNat + (s.getReg .r1).toNat)) = .ok 0xBEEF := ⟨rfl, rfl, rfl⟩
theorem witness_StoresWriteOneWord : Memory.wf State.reset.mem ∧ WordInStorage State.reset 0xFFFE ∧
    WordInStorage State.reset 0x0000 := ⟨reset_wellFormed.1, inStorage_sound rfl, inStorage_sound rfl⟩
theorem witness_StoresToOutputEmitTwoEvents : WordInOutput State.reset 0x3000 1 0x00 ∧
    WordInOutput State.reset 0x30FE 1 0xFE := ⟨wordInOutput_of_target rfl, wordInOutput_of_target rfl⟩
theorem witness_FaultingMovesChangeStatusOnly :
    let s := startM [(.r1, 0x0100)] 0 []
    WordFaults s 0x00FF (.wordStraddle 0x00FF) ∧ WordFaults s (s.getReg .r1) (.deviceIndexOutOfRange 0x0100) ∧
      WordFaults s (0x0110 + s.getReg .r1) (.addressOutOfBounds 0x0210) :=
  ⟨wordFaults_of_target rfl, wordFaults_of_target rfl, wordFaults_of_target rfl⟩

/-! ### Arithmetic and bitwise -/

theorem witness_SubtractionsWrapIntoAcc : State.reset.cfg.subOrder = .mnemonic ∧
    (withCfg (fun c => { c with subOrder := .lineage }) State.reset).cfg.subOrder = .lineage := ⟨rfl, rfl⟩
theorem witness_ShiftLaw : (15 : Word).toNat < 16 ∧ 16 ≤ (16 : Word).toNat ∧ 16 ≤ (0xFFFF : Word).toNat ∧
    (withCfg (fun c => { c with shiftOverflow := .fault }) State.reset).cfg.shiftOverflow = .fault := by decide
theorem witness_ShiftsWriteFirstOperandOnly : ((15 : Word).toNat < 16 ∨ State.reset.cfg.shiftOverflow ≠ .fault) ∧
    (((start [(.r2, 16)] []).getReg .r2).toNat < 16 ∨ (start [(.r2, 16)] []).cfg.shiftOverflow ≠ .fault) := by decide
theorem witness_OverlongShiftFaultsBeforeWrite :
    let s := withCfg (fun c => { c with shiftOverflow := .fault }) (start [(.r2, 16)] [])
    s.cfg.shiftOverflow = .fault ∧ 16 ≤ (0x00FF : Word).toNat ∧ 16 ≤ (s.getReg .r2).toNat := by decide

/-! ### Stack -/

theorem witness_PushesStoreOneWord : Memory.wf State.reset.mem ∧ WordInStorage State.reset (State.reset.getReg .sp) :=
  ⟨reset_wellFormed.1, inStorage_sound rfl⟩
theorem witness_PushesOntoOutputEmitEvents :
    WordInOutput (start [(.sp, 0x30FE)] []) ((start [(.sp, 0x30FE)] []).getReg .sp) 1 0xFE := wordInOutput_of_target rfl
/-- V42: the pop that wraps. -/
theorem witness_PopLoadsTopWord : (start [] [0x1A, 0x02]).wordRead ((start [] [0x1A, 0x02]).getReg .sp + 2) =
    .ok 0x1A02 :=
  rfl
theorem witness_FaultingPushAndPop :
    WordFaults (start [(.sp, 0xFFFF)] []) ((start [(.sp, 0xFFFF)] []).getReg .sp) (.wordStraddle 0xFFFF) ∧
      WordFaults (start [(.sp, 0xFFFD)] []) ((start [(.sp, 0xFFFD)] []).getReg .sp + 2) (.wordStraddle 0xFFFF) :=
  ⟨wordFaults_of_target rfl, wordFaults_of_target rfl⟩
/-- E4. -/
theorem witness_PopsReturnPushedWordsInReverse : Memory.wf State.reset.mem ∧ [1, 2, 3].length ≤ 32768 ∧
    ∀ j < 3, WordInStorage State.reset (frameSlot State.reset j) :=
  ⟨reset_wellFormed.1, by decide, fun j hj => inStorage_sound (by revert j; decide)⟩

/-! ### Subroutine -/

theorem witness_CallsOpenFrame : Memory.wf State.reset.mem ∧ ∀ j < 10,
    WordInStorage State.reset (frameSlot State.reset j) :=
  ⟨reset_wellFormed.1, fun j hj => inStorage_sound (by revert j; decide)⟩
/-- A frame half in storage and half in the output region, and one that runs out of the map. -/
theorem witness_CallsSetRegistersOnAnyDevice :
    (let s := start [(.sp, 0x3108)] []
     Memory.wf s.mem ∧ ∀ j < 10, ∀ f, ¬ WordFaults s (frameSlot s j) f) ∧
      let s := startM [(.sp, 0x0006)] 0 []
      Memory.wf s.mem ∧ (∀ i < 4, ∀ g, ¬ WordFaults s (frameSlot s i) g) ∧
        WordFaults s (frameSlot s 4) (.addressOutOfBounds 0xFFFE) :=
  ⟨⟨reset_wellFormed.1, fun j hj => noFault_sound (by revert j; decide)⟩, reset_wellFormed.1,
    fun i hi => noFault_sound (by revert i; decide), wordFaults_of_target rfl⟩
theorem witness_CallsOntoOutputEmitEvents : ∀ j < 10, WordInOutput (start [(.sp, 0x30FE)] [])
    (frameSlot (start [(.sp, 0x30FE)] []) j) 1 (0xFE - 2 * j) := by
  intro j hj
  refine wordInOutput_of_target ?_
  interval_cases j <;> rfl
/-- A call that faults after four pushes onto storage, one after two pushes onto an output device, one at once. -/
theorem witness_FaultingCallKeepsCompletedPushes :
    (let s := startM [(.sp, 0x0006)] 0 []
     Memory.wf s.mem ∧ (∀ i < 4, ∀ g, ¬ WordFaults s (frameSlot s i) g) ∧
       WordFaults s (frameSlot s 4) (.addressOutOfBounds 0xFFFE)) ∧
    (let s := startM [(.sp, 0x0202)] 0 []
     Memory.wf s.mem ∧ (∀ i < 2, ∀ g, ¬ WordFaults s (frameSlot s i) g) ∧ WordInOutput s (frameSlot s 0) 2 0x02 ∧
       WordFaults s (frameSlot s 2) (.deviceIndexOutOfRange 0x01FE)) ∧
    WordFaults (startM [] 0 []) (frameSlot (startM [] 0 []) 0) (.addressOutOfBounds 0xFFFE) :=
  ⟨⟨reset_wellFormed.1, fun i hi => noFault_sound (by revert i; decide), wordFaults_of_target rfl⟩,
    ⟨reset_wellFormed.1, fun i hi => noFault_sound (by revert i; decide), wordInOutput_of_target rfl,
      wordFaults_of_target rfl⟩, wordFaults_of_target rfl⟩

/-- V49: a frame of zeros with an argument count of 2. -/
def frameOfTwo : State := storeBytes (start [(.fp, 0x4000)] []) 0x4016 [0x00, 0x02]

theorem witness_ReturnRestoresFrame :
    (∀ j < 11, frameOfTwo.wordRead (wordAbove (frameOfTwo.getReg .fp) j) = .ok (if j = 10 then 2 else 0)) ∧
      ∀ j < (2 : Word).toNat, ∃ x, frameOfTwo.wordRead (wordAbove (frameOfTwo.getReg .fp) (11 + j)) = .ok x := by
  constructor
  · intro j hj; interval_cases j <;> rfl
  · intro j hj
    have hj : j < 2 := hj
    interval_cases j <;> exact ⟨_, rfl⟩
/-- A pop of the first word, of a register and of the second argument that cannot read. -/
theorem witness_FaultingReturnKeepsCompletedPops :
    (0 < 11 + (0 : Word).toNat ∧ WordFaults (startM [(.fp, 0x00FE)] 0 []) (wordAbove 0x00FE 0)
      (.deviceIndexOutOfRange 0x0100)) ∧
    ((∀ i < 5, (startM [(.fp, 0x00F4)] 0 []).wordRead (wordAbove 0x00F4 i) = .ok 0) ∧
      WordFaults (startM [(.fp, 0x00F4)] 0 []) (wordAbove 0x00F4 5) (.deviceIndexOutOfRange 0x0100)) ∧
    (12 < 11 + (2 : Word).toNat ∧
      (∀ i < 12, (startM [(.fp, 0x00E6)] 0x00FC [0x00, 0x02]).wordRead (wordAbove 0x00E6 i) =
        .ok (if i = 10 then 2 else 0)) ∧
      WordFaults (startM [(.fp, 0x00E6)] 0x00FC [0x00,
          0x02]) (wordAbove 0x00E6 12) (.deviceIndexOutOfRange 0x0100)) := by
  refine ⟨⟨by decide, wordFaults_of_target rfl⟩, ⟨?_, wordFaults_of_target rfl⟩, by decide, ?_,
      wordFaults_of_target rfl⟩
  · intro i hi; interval_cases i <;> rfl
  · intro i hi; interval_cases i <;> rfl

/-- A caller that has pushed one argument and the count (program P4). -/
def callerOfOne : State := (storeBytes (start [(.sp, 0xFFFA)] []) 0xFFFC [0x00, 0x01, 0x00, 0x05]).setFs 4

theorem witness_CallThenReturnRestoresCaller :
    Memory.wf callerOfOne.mem ∧ (1 : Nat) < 65536 ∧ (∀ j < 10, WordInStorage callerOfOne (frameSlot callerOfOne j)) ∧
      callerOfOne.getReg .sp = 0xFFFE - BitVec.ofNat 16 (2 * (1 + 1)) ∧
      callerOfOne.fs = 0 + BitVec.ofNat 16 (2 * (1 + 1)) ∧
      callerOfOne.wordRead (wordAbove (callerOfOne.getReg .sp) 0) = .ok (BitVec.ofNat 16 1) ∧
      (∀ j < 1, ∃ x, callerOfOne.wordRead (wordAbove (callerOfOne.getReg .sp) (j + 1)) = .ok x) ∧
      (∃ addr ra, Instr.calLit 0x0040 = .calLit addr ∨ Instr.calLit 0x0040 = .calReg ra) ∧
      ∃ c u : State, exec (.calLit 0x0040) callerOfOne = .next c ∧ u.getReg .fp = c.getReg .fp ∧
        ∀ j < 11 + 1, u.wordRead (wordAbove (c.getReg .fp) j) = c.wordRead (wordAbove (c.getReg .fp) j) := by
  refine ⟨by decide, by decide, fun j hj => inStorage_sound (by revert j; decide), by decide, by decide, rfl, ?_,
    ⟨0x0040, .r1, .inl rfl⟩, _, _, rfl, rfl, fun _ _ => rfl⟩
  intro j hj
  interval_cases j
  exact ⟨_, rfl⟩

/-- A caller that has pushed no argument but the count (R130). -/
def callerOfNone : State := (start [(.sp, 0xFFFC)] []).setFs 2

theorem witness_CallThenReturnRestoresCaller_noArguments :
    Memory.wf callerOfNone.mem ∧ (0 : Nat) < 65536 ∧
      (∀ j < 10, WordInStorage callerOfNone (frameSlot callerOfNone j)) ∧
      callerOfNone.getReg .sp = 0xFFFE - BitVec.ofNat 16 (2 * (0 + 1)) ∧
      callerOfNone.fs = 0 + BitVec.ofNat 16 (2 * (0 + 1)) ∧
      callerOfNone.wordRead (wordAbove (callerOfNone.getReg .sp) 0) = .ok (BitVec.ofNat 16 0) ∧
      (∀ j < 0, ∃ x, callerOfNone.wordRead (wordAbove (callerOfNone.getReg .sp) (j + 1)) = .ok x) ∧
      (∃ addr ra, Instr.calReg .r5 = .calLit addr ∨ Instr.calReg .r5 = .calReg ra) ∧
      ∃ c u : State, exec (.calReg .r5) callerOfNone = .next c ∧ u.getReg .fp = c.getReg .fp ∧
        ∀ j < 11 + 0, u.wordRead (wordAbove (c.getReg .fp) j) = c.wordRead (wordAbove (c.getReg .fp) j) :=
  ⟨reset_wellFormed.1, by decide, fun j hj => inStorage_sound (by revert j; decide), by decide, by decide, rfl,
    fun j hj => absurd hj (Nat.not_lt_zero j), ⟨0x0040, .r5, .inr rfl⟩, _, _, rfl, rfl, fun _ _ => rfl⟩

/-! ### Host -/

theorem witness_HostStepReportsStatus : (∃ t, hostStep (start [] [0x35, 0x02]) = (t, .continued)) ∧
    (∃ t, hostStep (start [] [0xFF]) = (t, .done)) ∧
    (∃ t, hostStep State.reset = (t, .fault (.unknownOpcode 0x00))) ∧
    (State.reset.start.setStatus .halted).status ≠ .running ∧ (State.reset.start.setStatus .halted).started = true :=
  ⟨⟨_, rfl⟩, ⟨_, rfl⟩, ⟨_, rfl⟩, by decide, rfl⟩
theorem witness_RunEndsOnlyHaltedOrFaulted : (∃ t, hostRun 1 (start [] [0xFF]) = (t, some .done)) ∧
    ∃ t, hostRun 1 State.reset = (t, some (.fault (.unknownOpcode 0x00))) := ⟨⟨_, rfl⟩, ⟨_, rfl⟩⟩
theorem witness_LoadedBytesReadBack : Memory.wf State.reset.mem ∧ [0x12, 0x34].length ≤ 65536 ∧
    (∃ t, load State.reset 0xFFFF [0x12, 0x34] = some t) ∧
    (∃ t, step State.reset = .next t) ∧ ∃ t, step (State.reset.setStatus .halted) = .next t :=
  ⟨reset_wellFormed.1, by decide, ⟨_, rfl⟩, ⟨_, rfl⟩, _, rfl⟩
/-- A reversed range; a device one byte too short; one that just fits. -/
theorem witness_MapFailsExactly :
    (0x0FFF : Word).toNat < (0x1000 : Word).toNat ∧
      deviceLength Config.default (.storage 0xFF) < (0x00FF : Word).toNat - (0x0000 : Word).toNat + 1 ∧
      (0x00FF : Word).toNat - (0x0000 : Word).toNat + 1 ≤ deviceLength Config.default .output := by decide
theorem witness_GetRegisterReadsByName : State.reset.cfg.regConfig = .full ∧
    "pc" ∉ ["ip", "acc", "r1", "r2", "r3", "r4", "r5", "r6", "r7", "r8", "sp", "fp"] ∧
    (withCfg (fun c => { c with regConfig := .reduced }) State.reset).cfg.regConfig = .reduced ∧
    State.reset.status = .running := ⟨rfl, by decide, rfl, rfl⟩
theorem witness_ViewReadsRange : (0xFFFE : Word).toNat ≤ (0xFFFF : Word).toNat ∧
    ∀ j, (0xFFFE : Word).toNat + j ≤ (0xFFFF : Word).toNat →
      State.reset.byteRead (0xFFFE + BitVec.ofNat 16 j) = .ok 0x00 := by
  refine ⟨by decide, fun j hj => ?_⟩
  have : j < 2 := by
    change 65534 + j ≤ 65535 at hj
    omega
  interval_cases j <;> rfl
/-- The last byte of the output region and the first unmapped address of map M. -/
theorem witness_ViewReadsRange_fault : (0x020F : Word).toNat + 1 ≤ (0x0210 : Word).toNat ∧
    (∀ j < 1, ∃ b, (startM [] 0 []).byteRead (0x020F + BitVec.ofNat 16 j) = .ok b) ∧
    ByteFaults (startM [] 0 []) (0x020F + BitVec.ofNat 16 1) (.addressOutOfBounds 0x0210) ∧
    (startM [] 0 []).status = .running := by
  refine ⟨by decide, fun j hj => ?_, byteFaults_of_target rfl, rfl⟩
  interval_cases j
  exact ⟨_, rfl⟩
theorem witness_RegisterFileBufferLayout : State.reset.cfg.regConfig = .full := rfl

end Sys2Proof.Tests
end

section
/-! SUPPORT. The proof about the scope of a machine: its region list and its parameters are fixed after setup (R7,
R12). -/

namespace Sys2Proof.Machine

/-- `s` has the region list and the parameters of `s₀`: what setup fixes (R12). -/
def HasSetupOf (s₀ s : State) : Prop := s.regions = s₀.regions ∧ s.cfg = s₀.cfg

/-- The four updates write registers, the counter, the status, memory and the log: none of them the setup. -/
theorem keptByUpdates_hasSetupOf (s₀ : State) : KeptByUpdates (HasSetupOf s₀) where
  setReg _ _ _ h := h
  setFs _ _ h := h
  setStatus _ _ h := h
  wordWrite _ _ _ _ h ht := by
    obtain ⟨hregions, hcfg⟩ := h
    obtain ⟨hcfg', hregions', -⟩ := State.wordWrite_frame ht
    exact ⟨hregions'.trans hregions, hcfg'.trans hcfg⟩

/-- Settles O4: every step is made of the four updates and the mark of a made step, and each keeps the setup. -/
theorem stepKeepsMapAndParameters : Obligations.StepKeepsMapAndParameters := by
  intro s t ht
  have hstart : HasSetupOf s s → HasSetupOf s s.start := id
  exact (keptByUpdates_hasSetupOf s).step hstart ⟨rfl, rfl⟩ ht

end Sys2Proof.Machine
end

section
/-! SUPPORT. What a step is made of: the equations of `step` by the fetch before it, and the one way a machine that
runs reaches its next state (R65). -/

namespace Sys2Proof.Machine

theorem step_of_halted {s : State} (h : s.status = .halted) : step s = .next s.start := by
  simp only [step, h]

theorem step_of_faulted {s : State} {f : Fault} (h : s.status = .faulted f) : step s = .fault f := by
  simp only [step, h]

/-- A running machine whose fetch completes executes the instruction fetched. -/
theorem step_of_fetch_ok {s s' : State} {i : Instr} (h : s.status = .running)
    (hf : fetchInstr s.start = .ok i s') : step s = exec i s' := by
  simp only [step, h, hf]

/-- A running machine whose fetch raises a fault takes it (R136). -/
theorem step_of_fetch_raised {s s' : State} {f : Fault} (h : s.status = .running)
    (hf : fetchInstr s.start = .raised f s') : step s = .next (s'.takeFault f) := by
  simp only [step, h, hf]

/-- The next state of a running machine: the fetch's fault taken, or the fetched instruction executed. -/
theorem step_running_cases {s t : State} (h : s.status = .running) (ht : step s = .next t) :
    (∃ f s', fetchInstr s.start = .raised f s' ∧ t = s'.takeFault f) ∨
      ∃ i s', fetchInstr s.start = .ok i s' ∧ exec i s' = .next t := by
  cases hf : fetchInstr s.start with
  | ok i s' => exact .inr ⟨i, s', rfl, (step_of_fetch_ok h hf).symm.trans ht⟩
  | raised f s' =>
    rw [step_of_fetch_raised h hf] at ht
    cases ht
    exact .inl ⟨f, s', rfl, rfl⟩

/-- A fetch that raises a fault has moved `ip` and nothing else (R67). -/
theorem fetchInstr_raised_moves_ip {s t : State} {f : Fault} (h : fetchInstr s = .raised f t) :
    ∃ v, t = s.setReg .ip v := by
  rcases Result.andThen_eq_raised.1 h with h | ⟨op, s1, h1, h⟩
  · obtain ⟨-, rfl⟩ := fetch8_eq_raised.1 h
    exact ⟨_, (State.setReg_getReg t .ip).symm⟩
  · obtain ⟨-, rfl⟩ := fetch8_eq_ok.1 h1
    split at h
    · cases h
      exact ⟨_, rfl⟩
    · rcases Result.andThen_eq_raised.1 h with h | ⟨bs, s2, -, h⟩
      · obtain ⟨_, _, _, _, -, -, -, rfl⟩ := fetchOperands_eq_raised.1 h
        exact ⟨_, State.setReg_setReg ..⟩
      · cases h

end Sys2Proof.Machine
end

section
/-! SUPPORT. What one instruction can do, once: for the instructions that neither push nor pop, each of their effects;
for every instruction, that its meaning answers a next state and what becomes of the run status. -/

namespace Sys2Proof.Machine

/-! ## Instructions that neither push nor pop -/

/-- The effects of an instruction that neither pushes nor pops: one register written, which is `acc`, `ip` or an
operand; one word stored; nothing, for a branch that is not taken; a fault taken; or the machine halted, by HLT. -/
inductive PlainEffect (i : Instr) (s : State) : State → Prop where
  | wrote (r : Reg) (v : Word) (hr : r ∈ .acc :: .ip :: i.registers) : PlainEffect i s (s.setReg r v)
  | stored {t : State} (a v : Word) (ht : s.wordWrite a v = .ok t) : PlainEffect i s t
  | kept : PlainEffect i s s
  | faulted (f : Fault) : PlainEffect i s (s.takeFault f)
  | halted (hi : i = .hlt) : PlainEffect i s (s.setStatus .halted)

theorem PlainEffect.of_writeWord {i : Instr} {a v : Word} {s t : State}
    (ht : (writeWord a v s).finish = .next t) : PlainEffect i s t := by
  cases hr : writeWord a v s with
  | ok u s' =>
    rw [hr] at ht
    cases ht
    exact .stored a v (writeWord_eq_ok.1 hr)
  | raised f s' =>
    obtain ⟨-, rfl⟩ := writeWord_eq_raised.1 hr
    rw [hr] at ht
    cases ht
    exact .faulted f

theorem PlainEffect.of_loadWord {i : Instr} {a : Word} {rd : Reg} {s t : State} (hrd : rd ∈ i.registers)
    (ht : (loadWord a rd s).finish = .next t) : PlainEffect i s t := by
  cases hr : loadWord a rd s with
  | ok u s' =>
    obtain ⟨w, -, rfl⟩ := loadWord_eq_ok.1 hr
    rw [hr] at ht
    cases ht
    exact .wrote rd w (by simp [hrd])
  | raised f s' =>
    obtain ⟨-, rfl⟩ := loadWord_eq_raised.1 hr
    rw [hr] at ht
    cases ht
    exact .faulted f

theorem PlainEffect.of_shiftReg {i : Instr} {d : ShiftDir} {rd : Reg} {n : Word} {s t : State}
    (hrd : rd ∈ i.registers) (ht : (shiftReg d rd n s).finish = .next t) : PlainEffect i s t := by
  cases hr : shiftReg d rd n s with
  | ok u s' =>
    obtain ⟨v, -, rfl⟩ := shiftReg_eq_ok.1 hr
    rw [hr] at ht
    cases ht
    exact .wrote rd v (by simp [hrd])
  | raised f s' =>
    obtain ⟨-, rfl⟩ := shiftReg_eq_raised.1 hr
    rw [hr] at ht
    cases ht
    exact .faulted f

theorem PlainEffect.of_branch {i : Instr} (op : Relation) (v addr : Word) (s : State) :
    PlainEffect i s (branch op v addr s) := by
  unfold branch
  split
  · exact .wrote .ip addr (by simp)
  · exact .kept

/-- An instruction that neither pushes nor pops has one of the plain effects. -/
theorem exec_plainEffect {i : Instr} {s t : State} (hi : i.needsStack = false) (ht : exec i s = .next t) :
    PlainEffect i s t := by
  cases i
  case movRegMem | movLitMem => exact .of_writeWord ht
  case movMemReg | movRegPtrReg | movLitOffReg => exact .of_loadWord (by simp [Instr.registers]) ht
  case lsfRegLit | lsfRegReg | rsfRegLit | rsfRegReg => exact .of_shiftReg (by simp [Instr.registers]) ht
  case pshLit | pshReg | pop | calLit | calReg | ret => cases hi
  case hlt => cases ht; exact .halted rfl
  case jmpNotEq | jneReg | jeqLit | jeqReg | jltLit | jltReg | jgtLit | jgtReg | jleLit | jleReg | jgeLit | jgeReg =>
    cases ht; exact .of_branch ..
  case movLitReg | movRegReg | incReg | decReg => cases ht; exact .wrote _ _ (by simp [Instr.registers])
  all_goals cases ht; exact .wrote .acc _ (by simp)

/-! ## Every instruction -/

/-- Every instruction's meaning answers a next state: none faults beside it and none is refused (R136). -/
theorem exec_next (i : Instr) (s : State) : ∃ t, exec i s = .next t := by
  cases i
  case movRegMem | movLitMem | movMemReg | movRegPtrReg | movLitOffReg => exact Result.finish_next _
  case lsfRegLit | lsfRegReg | rsfRegLit | rsfRegReg => exact Result.finish_next _
  case pshLit | pshReg | pop | calLit | calReg | ret => exact Result.finish_next _
  all_goals exact ⟨_, rfl⟩

/-- A step of a running machine answers a next state, also when it raises a fault (R136). -/
theorem step_running_next {s : State} (h : s.status = .running) : ∃ t, step s = .next t := by
  cases hf : fetchInstr s.start with
  | ok i s' => exact step_of_fetch_ok h hf ▸ exec_next i s'
  | raised f s' => exact ⟨_, step_of_fetch_raised h hf⟩

/-! ## What becomes of the run status -/

theorem pop_sameButRegsAndFs {s₀ s : State} (h : SameButRegsAndFs s₀ s) : SameButRegsAndFs s₀ (pop s).state := by
  cases hp : pop s with
  | ok w t => obtain ⟨-, rfl⟩ := pop_eq_ok.1 hp; exact h
  | raised f t => obtain ⟨-, rfl⟩ := pop_eq_raised.1 hp; exact h

theorem popRegs_sameButRegsAndFs {rs : List Reg} {s₀ s : State} (h : SameButRegsAndFs s₀ s) :
    SameButRegsAndFs s₀ (popRegs rs s).state := by
  induction rs generalizing s with
  | nil => exact h
  | cons r rs ih => exact Result.andThen_keeps (pop_sameButRegsAndFs h) fun _ _ h => ih h

theorem popDiscard_sameButRegsAndFs {n : Nat} {s₀ s : State} (h : SameButRegsAndFs s₀ s) :
    SameButRegsAndFs s₀ (popDiscard n s).state := by
  induction n generalizing s with
  | zero => exact h
  | succ n ih => exact Result.andThen_keeps (pop_sameButRegsAndFs h) fun _ _ h => ih h

/-- `pop_state()` writes registers and `fs` only, completed or not (R123). -/
theorem popState_sameButRegsAndFs (s : State) : SameButRegsAndFs s (popState s).state := by
  have h : SameButRegsAndFs s (s.setReg .sp (s.getReg .fp)) := ⟨rfl, rfl, rfl, rfl, rfl, rfl⟩
  exact Result.andThen_keeps (pop_sameButRegsAndFs h) fun _ _ h =>
    Result.andThen_keeps (popRegs_sameButRegsAndFs h) fun _ _ h =>
      Result.andThen_keeps (pop_sameButRegsAndFs h) fun _ _ h =>
        Result.andThen_keeps (popDiscard_sameButRegsAndFs h) fun _ _ h => h

theorem push_ok_status {v : Word} {u : Unit} {s t : State} (h : push v s = .ok u t) : t.status = s.status := by
  obtain ⟨s1, h1, rfl⟩ := push_eq_ok.1 h
  obtain ⟨-, -, -, -, hst⟩ := State.wordWrite_frame h1
  exact hst

theorem callTo_ok_status {a : Word} {u : Unit} {s t : State} (h : callTo a s = .ok u t) : t.status = s.status := by
  obtain ⟨_, s1, h1, h2⟩ := Result.andThen_eq_ok.1 h
  cases h2
  rw [pushState_eq] at h1
  obtain ⟨_, s2, h2, h3⟩ := Result.andThen_eq_ok.1 h1
  cases h3
  obtain ⟨-, -, -, hst, -⟩ := pushWords_ok h2
  exact hst

/-- An operation that keeps the status when it completes leaves the status or the fault it raised. -/
theorem status_of_finish {r : Result Unit} {s t : State} (hr : ∀ u s', r = .ok u s' → s'.status = s.status)
    (ht : r.finish = .next t) : t.status = s.status ∨ ∃ f, t.status = .faulted f := by
  cases r with
  | ok u s' => cases ht; exact .inl (hr u _ rfl)
  | raised f s' => cases ht; exact .inr ⟨f, rfl⟩

theorem PlainEffect.status {i : Instr} {s t : State} (h : PlainEffect i s t) :
    (t.status = s.status ∨ ∃ f, t.status = .faulted f) ∨ i = .hlt := by
  cases h with
  | wrote | kept => exact .inl (.inl rfl)
  | stored a v ht =>
    obtain ⟨-, -, -, -, hst⟩ := State.wordWrite_frame ht
    exact .inl (.inl hst)
  | faulted f => exact .inl (.inr ⟨f, rfl⟩)
  | halted hi => exact .inr hi

/-- An instruction keeps the run status or takes a fault, except HLT (R24). -/
theorem exec_status {i : Instr} {s t : State} (ht : exec i s = .next t) :
    (t.status = s.status ∨ ∃ f, t.status = .faulted f) ∨ i = .hlt := by
  cases hi : i.needsStack with
  | false => exact (exec_plainEffect hi ht).status
  | true =>
    left
    cases i
    case pshLit | pshReg => exact status_of_finish (fun _ _ => push_ok_status) ht
    case calLit | calReg => exact status_of_finish (fun _ _ => callTo_ok_status) ht
    case pop rd =>
      refine status_of_finish (r := (pop s).andThen fun w s => .ok () (s.setReg rd w)) (fun _ s' h => ?_) ht
      obtain ⟨w, s1, h1, h2⟩ := Result.andThen_eq_ok.1 h
      obtain ⟨-, rfl⟩ := pop_eq_ok.1 h1
      cases h2
      rfl
    case ret =>
      refine status_of_finish (fun _ s' h => ?_) ht
      obtain ⟨hst, -⟩ := h ▸ popState_sameButRegsAndFs s
      exact hst
    all_goals cases hi

end Sys2Proof.Machine
end

section
/-! SUPPORT. The proofs about the state of a machine (10_state.md): its reset values, its Register File, its run status
and what every step keeps of it. -/

namespace Sys2Proof.Machine

open Sys2Proof.Safety

/-! ## The memory stays canonical and inside the storage devices -/

/-- The number `n` is that of a byte of a storage device of the map (R27, R31). -/
def IsStorageCell (s : State) (n : Nat) : Prop :=
  ∃ k r len i, s.regions[k]? = some r ∧ r.device = .storage len ∧ i < len ∧ i < 0x10000 ∧ n = cellNumber k i

theorem cellsInStorage_iff (s : State) : CellsInStorage s ↔ ∀ x ∈ s.mem, IsStorageCell s x.1 := Iff.rfl

/-- The byte `j` after an address of a storage region, where region and device reach so far. -/
theorem isStorageCell_of_lookup {s : State} {a : Word} {k len j : Nat} {r : Region} (hl : s.lookup a = some (k, r))
    (hd : r.device = .storage len) (hj : deviceIndex r a + j < len) (hlast : a.toNat + j ≤ r.last.toNat) :
    IsStorageCell s (cellNumber k (deviceIndex r a) + j) := by
  have hle := deviceIndex_le r a
  have hr := r.last.isLt
  exact ⟨k, r, len, deviceIndex r a + j, (State.lookup_some hl).1, hd, hj, by omega, (cellNumber_add ..).symm⟩

/-- What a completed word write lists: what was listed, and two bytes of a storage device (R31, R34). -/
theorem State.mem_wordWrite {s t : State} {a v : Word} (ht : s.wordWrite a v = .ok t) {x : Host.Cell}
    (hx : x ∈ t.mem) : x ∈ s.mem ∨ IsStorageCell s x.1 := by
  obtain ⟨g, hg, rfl⟩ := State.wordWrite_ok ht
  obtain ⟨k, r, hl, hlast, ⟨len, hd, hlen, rfl⟩ | ⟨-, rfl⟩⟩ := State.wordTarget_ok hg
  · rcases Memory.mem_write hx with hx | ⟨rfl, -⟩
    · rcases Memory.mem_write hx with hx | ⟨rfl, -⟩
      · exact .inl hx
      · exact .inr (by simpa using isStorageCell_of_lookup (j := 0) hl hd (by omega) (by omega))
    · exact .inr (isStorageCell_of_lookup (j := 1) hl hd hlen hlast)
  · exact .inl hx

theorem wordWrite_cellsInStorage {s t : State} {a v : Word} (h : CellsInStorage s) (ht : s.wordWrite a v = .ok t) :
    CellsInStorage t := by
  obtain ⟨-, hregions, -⟩ := State.wordWrite_frame ht
  rw [cellsInStorage_iff] at h ⊢
  intro x hx
  have hcell : IsStorageCell s x.1 := (State.mem_wordWrite ht hx).elim (h x) id
  simpa only [IsStorageCell, hregions] using hcell

/-- Of the four updates only a word write touches the memory; it writes bytes of a storage device in canonical form. -/
theorem keptByUpdates_wellFormed : KeptByUpdates WellFormed where
  setReg _ _ _ h := h
  setFs _ _ h := h
  setStatus _ _ h := h
  wordWrite _ _ _ _ h ht := by
    obtain ⟨hwf, hcells⟩ := h
    exact ⟨(State.wordWrite_events hwf ht).1, wordWrite_cellsInStorage hcells ht⟩

/-- Settles O3: well-formedness is kept by the four updates that every step is made of. -/
theorem stepKeepsStateWellFormed : Obligations.StepKeepsStateWellFormed := by
  intro s t h ht
  exact keptByUpdates_wellFormed.step (fun h => h) h ht

/-! ## The output log grows -/

/-- A routed write of a byte appends to the log or leaves it (R31, R32). -/
theorem State.out_prefix_writeTarget (s : State) (g : Target) (b : Byte) : s.out <+: (s.writeTarget g b).out := by
  cases g with
  | cell n => exact List.prefix_rfl
  | output k i => exact List.prefix_append ..

/-- The four updates only append to the log. -/
theorem keptByUpdates_out_prefix (l : List OutEvent) : KeptByUpdates (fun s => l <+: s.out) where
  setReg _ _ _ h := h
  setFs _ _ h := h
  setStatus _ _ h := h
  wordWrite _ _ _ _ h ht := by
    obtain ⟨g, -, rfl⟩ := State.wordWrite_ok ht
    exact (h.trans (State.out_prefix_writeTarget ..)).trans (State.out_prefix_writeTarget ..)

/-- Settles O5: each of the four updates of a step keeps the log before it at the front of the log after it. -/
theorem outputLogOnlyGrows : Obligations.OutputLogOnlyGrows := by
  intro s t ht
  obtain ⟨events, h⟩ := (keptByUpdates_out_prefix s.out).step (fun h => h) List.prefix_rfl ht
  exact ⟨events, h.symm⟩

/-! ## The run status -/

/-- Settles O8: a fetch's fault leaves `Faulted`, and every instruction but HLT keeps the status or takes a fault. -/
theorem onlyHltHalts : Obligations.OnlyHltHalts := by
  intro s t hrun ht hhalt
  rcases step_running_cases hrun ht with ⟨f, s', -, rfl⟩ | ⟨i, s', hf, he⟩
  · cases hhalt
  · obtain ⟨op, m, bs, -, -, -, hi, hs'⟩ := fetchInstr_eq_ok hf
    rcases exec_status he with (hst | ⟨f, hst⟩) | rfl
    · rw [hhalt, hs', State.setReg_status, State.start_status, hrun] at hst
      cases hst
    · rw [hhalt] at hst
      cases hst
    · obtain rfl : m = .hlt := (decodeFields_mnemonic ..).symm.trans (congrArg Instr.mnemonic hi.symm)
      obtain rfl : s' = s.start.setReg .ip (s.getReg .ip + 1) := hs'
      cases he
      exact ⟨hf, rfl⟩

theorem stepResult_eq_continued (s : State) : stepResult s = .continued ↔ s.status = .running := by
  cases h : s.status <;> simp [stepResult, h]

theorem stepResult_eq_done (s : State) : stepResult s = .done ↔ s.status = .halted := by
  cases h : s.status <;> simp [stepResult, h]

theorem stepResult_eq_fault (s : State) (f : Fault) : stepResult s = .fault f ↔ s.status = .faulted f := by
  cases h : s.status <;> simp [stepResult, h]

theorem hostStep_of_next {s t : State} (h : step s = .next t) : hostStep s = (t, stepResult t) := by
  simp only [hostStep, h]

/-- The host's step of a stopped machine sets the mark of a made step and reports the status (R137, R144). -/
theorem hostStep_of_stopped {s : State} (h : s.status ≠ .running) : hostStep s = (s.start, stepResult s.start) := by
  cases hs : s.status with
  | running => exact absurd hs h
  | halted => exact hostStep_of_next (step_of_halted hs)
  | faulted f => simp only [hostStep, step_of_faulted hs, (stepResult_eq_fault s.start f).2 hs]

/-- What the host's step reports is the status of the state it answers. -/
theorem hostStep_result (s : State) : (hostStep s).2 = stepResult (hostStep s).1 := by
  by_cases h : s.status = .running
  · obtain ⟨t, ht⟩ := step_running_next h
    rw [hostStep_of_next ht]
  · rw [hostStep_of_stopped h]

/-- Settles O54: the host's result is read off the status after the step, and a stopped machine is only marked. -/
theorem hostStepReportsStatus : Obligations.HostStepReportsStatus := by
  intro s t r h
  have hr : r = stepResult t := by simpa only [h] using hostStep_result s
  have hstop : s.status ≠ .running → t = s.start := fun hs =>
    congrArg Prod.fst (h.symm.trans (hostStep_of_stopped hs))
  refine ⟨?_, ?_, fun f => ?_, hstop, fun hs hstart => (hstop hs).trans (State.start_of_started hstart)⟩
  · rw [hr, stepResult_eq_continued]
  · rw [hr, stepResult_eq_done]
  · rw [hr, stepResult_eq_fault]

/-! ## The frame-size counter, and the state of the stack on a reduced machine -/

theorem PlainEffect.fs {i : Instr} {s t : State} (h : PlainEffect i s t) : t.fs = s.fs := by
  cases h with
  | wrote | kept | faulted | halted => rfl
  | stored a v ht =>
    obtain ⟨-, -, -, hfs, -⟩ := State.wordWrite_frame ht
    exact hfs

/-- Settles O9: none of the plain effects touches `fs`. -/
theorem onlyStackInstructionsWriteFrameCounter : Obligations.OnlyStackInstructionsWriteFrameCounter := by
  intro i s t hi ht
  exact (exec_plainEffect hi ht).fs

/-- A plain effect leaves every register but `acc`, `ip` and the instruction's operands. -/
theorem PlainEffect.getReg_other {i : Instr} {s t : State} (h : PlainEffect i s t) {r : Reg}
    (hr : r ∉ Reg.acc :: .ip :: i.registers) : t.getReg r = s.getReg r := by
  cases h with
  | wrote r' v hr' => exact State.getReg_setReg_other s v fun h => hr (h ▸ hr')
  | stored a v ht =>
    obtain ⟨-, -, hregs, -⟩ := State.wordWrite_frame ht
    exact congrArg (RegisterFile.get · r) hregs
  | kept | faulted | halted => rfl

/-- What a machine fetches is well formed under its parameters (R20, R60). -/
theorem fetchInstr_wf {i : Instr} {s t : State} (h : fetchInstr s = .ok i t) : i.wf s.cfg = true := by
  obtain ⟨op, m, bs, -, hm, -, rfl, -⟩ := fetchInstr_eq_ok h
  exact decodeFields_wf (mnemonicOf_supports hm).1 bs

/-- A well-formed instruction of a reduced machine neither pushes nor pops (R20). -/
theorem needsStack_of_reduced {cfg : Config} {i : Instr} (hc : cfg.regConfig = .reduced)
    (h : i.wf cfg = true) : i.needsStack = false := by
  simp only [Instr.wf, Instr.supported, hc, Bool.and_eq_true] at h
  obtain ⟨⟨-, h⟩, -⟩ := h
  simpa using h

/-- A register that the Register File lacks is no operand of a well-formed instruction (R20, R60). -/
theorem not_mem_registers_of_absent {cfg : Config} {i : Instr} {r : Reg} (hr : r.present cfg.regConfig = false)
    (h : i.wf cfg = true) : r ∉ i.registers := by
  simp only [Instr.wf, Instr.registersPresent, Bool.and_eq_true, List.all_eq_true] at h
  obtain ⟨⟨hregs, -⟩, -⟩ := h
  intro hmem
  rw [hregs r hmem] at hr
  cases hr

/-- The three fields that stand for what a reduced machine does not have hold the same in both states (R20). -/
def SameStackState (s t : State) : Prop :=
  t.getReg .sp = s.getReg .sp ∧ t.getReg .fp = s.getReg .fp ∧ t.fs = s.fs

/-- A fetched instruction of a reduced machine leaves `sp`, `fp` and `fs` (R20). -/
theorem exec_sameStackState_of_reduced {cfg : Config} {i : Instr} {s t : State} (hc : cfg.regConfig = .reduced)
    (hi : i.wf cfg = true) (ht : exec i s = .next t) : SameStackState s t := by
  have heff := exec_plainEffect (needsStack_of_reduced hc hi) ht
  have hsp := not_mem_registers_of_absent (r := .sp) (by rw [hc]; rfl) hi
  have hfp := not_mem_registers_of_absent (r := .fp) (by rw [hc]; rfl) hi
  exact ⟨heff.getReg_other (by simp [hsp]), heff.getReg_other (by simp [hfp]), heff.fs⟩

/-- Settles O10: the fetch moves `ip` alone, and what a reduced machine fetches has no part in the stack. -/
theorem reducedMachineNeverTouchesStackState : Obligations.ReducedMachineNeverTouchesStackState := by
  intro s t hc ht
  cases hs : s.status with
  | halted =>
    rw [step_of_halted hs] at ht
    cases ht
    exact ⟨rfl, rfl, rfl⟩
  | faulted f =>
    rw [step_of_faulted hs] at ht
    cases ht
  | running =>
    rcases step_running_cases hs ht with ⟨f, s', hf, rfl⟩ | ⟨i, s', hf, he⟩
    · obtain ⟨v, rfl⟩ := fetchInstr_raised_moves_ip hf
      exact ⟨rfl, rfl, rfl⟩
    · have hwf := fetchInstr_wf hf
      obtain ⟨_, _, _, -, -, -, -, rfl⟩ := fetchInstr_eq_ok hf
      have hsame := exec_sameStackState_of_reduced hc hwf he
      exact hsame

/-! ## Opcodes and the decoder -/

theorem mem_mnemonic_all (m : Mnemonic) : m ∈ Mnemonic.all := by
  cases m <;> decide

/-- A map of all 48 mnemonics holds each with its opcode byte (R62). -/
theorem opcodeByte_mem {cfg : Config} (h : cfg.wf) (m : Mnemonic) : (m, cfg.opcodeByte m) ∈ cfg.opcodeMap := by
  obtain ⟨hall, -, -⟩ := h
  obtain ⟨row, hrow, hm⟩ := List.mem_map.1 (hall m (mem_mnemonic_all m))
  cases hfind : cfg.opcodeMap.find? (fun e => e.1 == m) with
  | none =>
    have hne := List.find?_eq_none.1 hfind row hrow
    simp [hm] at hne
  | some found =>
    have hfst : found.1 = m := by simpa using List.find?_some hfind
    have hbyte : cfg.opcodeByte m = found.2 := by simp [Config.opcodeByte, hfind]
    rw [hbyte, ← hfst]
    exact List.mem_of_find?_eq_some hfind

/-- A mnemonic that `REG_CONFIG` does not support has no opcode: its byte in an injective map is unassigned (R20,
R63). -/
theorem mnemonicOf_opcodeByte_unsupported {cfg : Config} {m : Mnemonic} (h : cfg.wf) (hm : cfg.supports m = false) :
    cfg.mnemonicOf (cfg.opcodeByte m) = none := by
  cases hop : cfg.mnemonicOf (cfg.opcodeByte m) with
  | none => rfl
  | some m' =>
    obtain ⟨hsupports, hmem⟩ := mnemonicOf_supports hop
    have ⟨_, _, hinj⟩ := h
    have hsame := List.inj_on_of_nodup_map hinj hmem (opcodeByte_mem h m) rfl
    cases hsame
    rw [hm] at hsupports
    cases hsupports

/-- An unassigned opcode is raised after the opcode fetch, before any operand is fetched (R63). -/
theorem fetchInstr_of_unassigned {s : State} {op : Byte} (hop : s.byteRead (s.getReg .ip) = .ok op)
    (hm : s.cfg.mnemonicOf op = none) :
    fetchInstr s = .raised (.unknownOpcode op) (s.setReg .ip (s.getReg .ip + 1)) := by
  simp only [fetchInstr, fetch8_eq_ok.2 ⟨hop, rfl⟩, Result.andThen_ok, State.setReg_cfg, hm]

/-- Settles O11: a stack mnemonic is unsupported under `Reduced`, so its byte is unassigned and the fetch raises. -/
theorem reducedMachineHasNoStackOpcodes : Obligations.ReducedMachineHasNoStackOpcodes := by
  intro s m hwf hc hrun hm hop
  have hstack : m.needsStack = true := by fin_cases hm <;> rfl
  have hsupports : s.cfg.supports m = false := by simp [Config.supports, hstack, hc]
  exact step_of_fetch_raised hrun
    (fetchInstr_of_unassigned (s := s.start) (by simpa using hop) (mnemonicOf_opcodeByte_unsupported hwf hsupports))

/-- What the decoder answers: the instruction of the opcode's mnemonic, read from the operand bytes, and the bytes
past them (R54, R57). -/
theorem decode_eq_ok {cfg : Config} {op : Byte} {bytes rest : List Byte} {i : Instr}
    (h : decode cfg (op :: bytes) = .ok (i, rest)) :
    ∃ m, cfg.mnemonicOf op = some m ∧ m.operandSize cfg ≤ bytes.length ∧
      i = decodeFields cfg m (bytes.take (m.operandSize cfg)) ∧ rest = bytes.drop (m.operandSize cfg) := by
  simp only [decode] at h
  split at h
  · cases h
  · next m hm =>
    split at h
    · cases h
    · next hlen =>
      cases h
      exact ⟨m, hm, by omega, rfl, rfl⟩

theorem length_bounds (cfg : Config) (m : Mnemonic) : 1 ≤ m.length cfg ∧ m.length cfg ≤ 5 := by
  have := operandSize_le cfg m
  unfold Mnemonic.length
  omega

/-- Settles O14: the decoder takes one opcode byte and the operand bytes that the mnemonic's format has. -/
theorem decodedInstructionIsWellFormed : Obligations.DecodedInstructionIsWellFormed := by
  intro cfg bytes rest i h
  cases bytes with
  | nil => cases h
  | cons op bytes =>
    obtain ⟨m, hm, hlen, rfl, rfl⟩ := decode_eq_ok h
    refine ⟨decodeFields_wf (mnemonicOf_supports hm).1 _, ?_, ?_⟩
    · simp only [decodeFields_mnemonic, Mnemonic.length, List.length_cons, List.length_drop]
      omega
    · rw [decodeFields_mnemonic]
      exact length_bounds cfg m

/-- The twelve ids name twelve registers, each with its own id (R13). -/
theorem id_regOfId {n : Nat} (h : n < 12) : (regOfId n).id = n := by
  interval_cases n <;> rfl

theorem regOfId_id (r : Reg) : regOfId r.id = r := by
  cases r <;> rfl

theorem id_regOfByte (cfg : Config) (b : Byte) : (regOfByte cfg b).id = b.toNat % cfg.regCount := by
  apply id_regOfId
  unfold Config.regCount
  cases cfg.regConfig <;> simp only <;> omega

/-- Settles O15: the id selected is the byte modulo the number of slots, which is 12 or 10. -/
theorem registerByteIsReducedModuloCount : Obligations.RegisterByteIsReducedModuloCount := by
  intro cfg b
  refine ⟨fun hc => ?_, fun hc => ?_⟩ <;> rw [id_regOfByte, Config.regCount, hc]

/-- An instruction whose opcode and operands can be read is fetched, with `ip` past its bytes (R17, R64). -/
theorem fetchInstr_of_at {s : State} {op : Byte} {m : Mnemonic} {bytes : List Byte}
    (hop : s.byteRead (s.getReg .ip) = .ok op) (hm : s.cfg.mnemonicOf op = some m)
    (hat : OperandsAt s (s.getReg .ip + 1) (m.kinds s.cfg) bytes) :
    fetchInstr s = .ok (decodeFields s.cfg m bytes)
      (s.setReg .ip (s.getReg .ip + BitVec.ofNat 16 (1 + bytes.length))) := by
  have hoperands := fetchOperands_of_at (s := s.setReg .ip (s.getReg .ip + 1)) (ks := m.kinds s.cfg) (bs := bytes)
    (by simpa using hat)
  simp only [State.getReg_setReg_same, State.setReg_setReg, BitVec.add_assoc] at hoperands
  simp only [fetchInstr, fetch8_eq_ok.2 ⟨hop, rfl⟩, Result.andThen_ok, State.setReg_cfg, hm, hoperands,
    BitVec.ofNat_add]
  rfl

/-- Settles O18: the fetch reads the bytes that decode, and the step executes what it read. -/
theorem stepRunsDecodedInstruction : Obligations.StepRunsDecodedInstruction := by
  intro s op m bytes i hrun hop hm hat hdecode
  obtain ⟨m', hm', -, rfl, hrest⟩ := decode_eq_ok hdecode
  obtain rfl : m = m' := Option.some.inj (hm.symm.trans hm')
  rw [List.take_of_length_le (List.drop_eq_nil_iff.1 hrest.symm)]
  exact step_of_fetch_ok hrun (fetchInstr_of_at (s := s.start) (by simpa using hop) hm (by simpa using hat))

/-! ## Reset values and the Register File -/

/-- Nothing listed, every byte that can be read is zero, from storage and from an output device (R25, R32). -/
theorem byteRead_of_mem_nil {s : State} {a : Word} {b : Byte} (h : s.mem = []) (hb : s.byteRead a = .ok b) :
    b = 0x00 := by
  simp only [State.byteRead] at hb
  split at hb
  · cases hb
  · next g _ =>
    cases hb
    cases g with
    | cell n => simp only [State.readTarget, h, Memory.read, Memory.unlisted]
    | output k i => rfl

/-- Under `Full` with a stack region in the map, `sp` and `fp` start at its last word (R25). -/
theorem construct_stack {cfg : Config} {regions : List Region} {stack : Region} (hc : cfg.regConfig = .full)
    (hstack : regions[cfg.stackRegion]? = some stack) :
    (State.construct cfg regions).getReg .sp = stack.last - 1 ∧
      (State.construct cfg regions).getReg .fp = stack.last - 1 := by
  simp [State.getReg, RegisterFile.get, State.construct, hc, spInit, hstack]

/-- Settles O1: each row of R25's table, read off the constructed state. -/
theorem constructedMachineHasResetValues : Obligations.ConstructedMachineHasResetValues := by
  refine ⟨fun cfg regions => ?_, rfl, rfl, rfl⟩
  refine ⟨rfl, rfl, fun r hr => ?_, fun _ => construct_stack, rfl, rfl, fun a b => byteRead_of_mem_nil rfl,
    rfl, rfl⟩
  fin_cases hr <;> rfl

/-- A list laid out flat in pairs: the pair of element `k` is at `2k` and `2k + 1`. -/
theorem getElem?_flatMap_pair {α β : Type} (f g : α → β) (l : List α) (k : Nat) :
    (l.flatMap fun x => [f x, g x])[2 * k]? = l[k]?.map f ∧
      (l.flatMap fun x => [f x, g x])[2 * k + 1]? = l[k]?.map g := by
  induction l generalizing k with
  | nil => exact ⟨rfl, rfl⟩
  | cons x l ih =>
    cases k with
    | zero => exact ⟨rfl, rfl⟩
    | succ k => exact ih k

theorem id_lt (r : Reg) : r.id < 12 := by
  cases r <;> decide

/-- The Register File's buffer under `Full`: the high and the low byte of each of the twelve slots (R14). -/
theorem registerBuffer_of_full {s : State} (hc : s.cfg.regConfig = .full) :
    registerBuffer s = (List.range 12).flatMap fun k =>
      [hiByte (s.getReg (regOfId k)), loByte (s.getReg (regOfId k))] := by
  simp only [registerBuffer, Config.regCount, hc, wordBytes]

/-- Settles O60: the buffer holds the slots as pairs of bytes in id order, and a written slot is read back. -/
theorem registerFileBufferLayout : Obligations.RegisterFileBufferLayout := by
  intro s hc
  refine ⟨?_, fun r => ?_, State.getReg_setReg_same s⟩
  · rw [registerBuffer_of_full hc]
    simp
  · obtain ⟨hhi, hlo⟩ := getElem?_flatMap_pair (fun k => hiByte (s.getReg (regOfId k)))
      (fun k => loByte (s.getReg (regOfId k))) (List.range 12) r.id
    rw [registerBuffer_of_full hc, hhi, hlo, List.getElem?_range (id_lt r)]
    simp only [Option.map_some, regOfId_id, and_self]

end Sys2Proof.Machine
end

section
/-! SUPPORT. More laws of the Mapper: which region a lookup answers, when an access is stopped, and what a byte or a
word written leaves, on storage and on output devices (R29 to R37). -/

namespace Sys2Proof.Machine

open Sys2Proof.Safety

/-! ## Lookup -/

theorem regionHolds_iff (r : Region) (a : Word) :
    regionHolds r a = true ↔ r.start.toNat ≤ a.toNat ∧ a.toNat ≤ r.last.toNat := by
  simp only [regionHolds, Bool.and_eq_true, decide_eq_true_eq, BitVec.le_def]

/-- The search fails exactly where no region of the list holds the address. -/
theorem lookupFrom_eq_none_iff {k : Nat} {rs : List Region} {a : Word} :
    lookupFrom k rs a = none ↔ ∀ r ∈ rs, ¬ regionHolds r a := by
  induction rs generalizing k with
  | nil => simp [lookupFrom]
  | cons x rs ih =>
    by_cases hx : regionHolds x a
    · simp [lookupFrom, hx]
    · simp [lookupFrom, hx, ih]

/-- The search answers a region that holds the address and before which none does. -/
theorem lookupFrom_eq_some_iff {k i : Nat} {rs : List Region} {r : Region} {a : Word} :
    lookupFrom k rs a = some (k + i, r) ↔
      rs[i]? = some r ∧ regionHolds r a ∧ ∀ j r', j < i → rs[j]? = some r' → ¬ regionHolds r' a := by
  induction rs generalizing k i with
  | nil => simp [lookupFrom]
  | cons x rs ih =>
    by_cases hx : regionHolds x a
    · cases i with
      | zero =>
        simp only [lookupFrom, hx, if_true, Nat.add_zero, Option.some.injEq, Prod.mk.injEq, true_and,
          List.getElem?_cons_zero, Nat.not_lt_zero, false_implies, implies_true, and_true]
        exact ⟨fun h => ⟨h, h ▸ hx⟩, And.left⟩
      | succ i =>
        have hsooner : lookupFrom k (x :: rs) a ≠ some (k + (i + 1), r) := by simp [lookupFrom, hx]
        refine iff_of_false hsooner ?_
        rintro ⟨-, -, hnone⟩
        exact hnone 0 x (Nat.succ_pos i) rfl hx
    · cases i with
      | zero =>
        have hlater : lookupFrom (k + 1) rs a ≠ some (k, r) := fun h => by
          obtain ⟨hle, -⟩ := lookupFrom_some h
          omega
        simp only [lookupFrom, hx, Bool.false_eq_true, if_false, Nat.add_zero, hlater, false_iff,
          List.getElem?_cons_zero, Option.some.injEq]
        rintro ⟨rfl, hr, -⟩
        exact hx hr
      | succ i =>
        have hstep : lookupFrom k (x :: rs) a = lookupFrom (k + 1) rs a := by simp only [lookupFrom, hx]; rfl
        rw [hstep, show k + (i + 1) = k + 1 + i by omega, ih, List.getElem?_cons_succ]
        refine and_congr_right fun _ => and_congr_right fun _ => ⟨fun h j r' hj hr' => ?_, fun h j r' hj hr' => ?_⟩
        · cases j with
          | zero => cases hr'; exact hx
          | succ j => exact h j r' (by omega) hr'
        · exact h (j + 1) r' (by omega) hr'

/-! ## When an access is stopped -/

theorem State.byteTarget_eq_error_iff {s : State} {a : Word} {f : Fault} :
    s.byteTarget a = .error f ↔ ByteFaults s a f :=
  ⟨byteFaults_of_target, State.byteTarget_of_faults⟩

theorem State.wordTarget_eq_error_iff {s : State} {a : Word} {f : Fault} :
    s.wordTarget a = .error f ↔ WordFaults s a f :=
  ⟨wordFaults_of_target, State.wordTarget_of_faults⟩

theorem State.byteRead_eq_error_iff {s : State} {a : Word} {f : Fault} :
    s.byteRead a = .error f ↔ ByteFaults s a f := by
  rw [← State.byteTarget_eq_error_iff, State.byteRead]
  cases s.byteTarget a <;> simp

theorem State.byteWrite_eq_error_iff {s : State} {a : Word} {b : Byte} {f : Fault} :
    s.byteWrite a b = .error f ↔ ByteFaults s a f := by
  rw [← State.byteTarget_eq_error_iff, State.byteWrite]
  cases s.byteTarget a <;> simp

theorem State.wordRead_eq_error_iff {s : State} {a : Word} {f : Fault} :
    s.wordRead a = .error f ↔ WordFaults s a f := by
  rw [← State.wordTarget_eq_error_iff, State.wordRead]
  cases s.wordTarget a <;> simp

theorem State.wordWrite_eq_error_iff {s : State} {a v : Word} {f : Fault} :
    s.wordWrite a v = .error f ↔ WordFaults s a f := by
  rw [← State.wordTarget_eq_error_iff, State.wordWrite]
  cases s.wordTarget a <;> simp

/-- Whether a word access is stopped depends on the map alone. -/
theorem wordFaults_congr {s t : State} (h : t.regions = s.regions) {a : Word} {f : Fault} :
    WordFaults t a f ↔ WordFaults s a f := by
  simp only [WordFaults, State.lookup_congr h]

/-! ## What an access that is not stopped does -/

theorem State.byteRead_of_target {s : State} {a : Word} {g : Target} (h : s.byteTarget a = .ok g) :
    s.byteRead a = .ok (s.readTarget g) := by
  simp only [State.byteRead, h]

theorem State.byteWrite_of_target {s : State} {a : Word} {g : Target} (h : s.byteTarget a = .ok g) (b : Byte) :
    s.byteWrite a b = .ok (s.writeTarget g b) := by
  simp only [State.byteWrite, h]

/-- A byte written to a cell is read back. -/
theorem State.byteRead_writeTarget_same {s : State} {a : Word} {n : Nat} (hm : Memory.wf s.mem)
    (h : s.byteTarget a = .ok (.cell n)) (b : Byte) : (s.writeTarget (.cell n) b).byteRead a = .ok b := by
  have ht : (s.writeTarget (.cell n) b).byteTarget a = .ok (.cell n) :=
    (State.byteTarget_congr (by simp) a).trans h
  rw [State.byteRead_of_target ht, State.readTarget, State.writeTarget_cell_mem, Memory.read_write_same n b hm]

/-- The word of two bytes as a number: the high byte counts 256 times (R38). -/
theorem toNat_joinBytes (h l : Byte) : (joinBytes h l).toNat = h.toNat * 256 + l.toNat := by
  rw [joinBytes, BitVec.toNat_append, ← Nat.shiftLeft_add_eq_or_of_lt l.isLt, Nat.shiftLeft_eq]

/-- A word of storage whose two addresses belong to one region reads byte by byte as it reads as a word (R34). -/
theorem State.byteRead_of_wordRead {s : State} {a w : Word} (h : WordInStorage s a) (hw : s.wordRead a = .ok w)
    (hl : s.lookup (a + 1) = s.lookup a) :
    s.byteRead a = .ok (hiByte w) ∧ s.byteRead (a + 1) = .ok (loByte w) := by
  obtain ⟨b, c, hbc, hb, hc⟩ := State.byteRead_of_wordInStorage h
  obtain rfl : w = joinBytes b c := Except.ok.inj (hw.symm.trans hbc)
  rw [hiByte_joinBytes, loByte_joinBytes]
  exact ⟨hb, hc hl⟩

/-- The Engine's write onto an output device emits the two events of R32 and changes nothing else. -/
theorem writeWord_of_inOutput {s : State} {a : Word} {k i : Nat} (h : WordInOutput s a k i) (v : Word) :
    writeWord a v s = .ok () { s with out := s.out ++ [⟨k, i, hiByte v⟩, ⟨k, i + 1, loByte v⟩] } :=
  writeWord_eq_ok.2 (State.wordWrite_of_inOutput h v)

/-- A push onto an output device emits two events and moves `sp` and `fs` (R32, R116). -/
theorem push_of_inOutput {s : State} {k i : Nat} (h : WordInOutput s (s.getReg .sp) k i) (v : Word) :
    push v s = .ok () { s with
      regs := s.regs.set .sp (s.getReg .sp - 2)
      fs := s.fs + 2
      out := s.out ++ [⟨k, i, hiByte v⟩, ⟨k, i + 1, loByte v⟩] } :=
  push_eq_ok.2 ⟨_, State.wordWrite_of_inOutput h v, rfl⟩

end Sys2Proof.Machine
end

section
/-! SUPPORT. More laws of calls (R122, R127, R128): a call as a run of ten pushes, completed or stopped. -/

namespace Sys2Proof.Machine

open Sys2Proof.Safety

/-- A run of pushes whose `j`-th is the first that cannot write raises there, with the earlier pushes made (R135). -/
theorem pushWords_raises {ws : List Word} {s : State} {j : Nat} {f : Fault} (hj : j < ws.length)
    (hbefore : ∀ i < j, ∀ g, ¬ WordFaults s (frameSlot s i) g) (hf : WordFaults s (frameSlot s j) f) :
    ∃ u, pushWords (ws.take j) s = .ok () u ∧ pushWords ws s = .raised f u := by
  have hlen : (ws.take j).length = j := List.length_take_of_le hj.le
  obtain ⟨u, hu⟩ := pushWords_completes (ws := ws.take j) (s := s) fun i hi => hbefore i (by omega)
  refine ⟨u, hu, ?_⟩
  obtain ⟨hsp, -, -, -, -, hregions, -⟩ := pushWords_ok hu
  rw [hlen] at hsp
  have hstop : push ws[j] u = .raised f u :=
    push_eq_raised.2 ⟨State.wordWrite_of_faults (hsp ▸ (wordFaults_congr hregions).2 hf) _, rfl⟩
  have hcut : ws = ws.take j ++ ws[j] :: ws.drop (j + 1) := by
    rw [List.getElem_cons_drop hj, List.take_append_drop]
  calc pushWords ws s
      = (pushWords (ws.take j) s).andThen fun _ s => pushWords (ws[j] :: ws.drop (j + 1)) s := by
        rw [← pushWords_append, ← hcut]
    _ = .raised f u := by simp only [hu, Result.andThen_ok, pushWords, hstop, Result.andThen_raised]

/-- The registers and `fs` that a call sets once its ten words are pushed (R122, R127). -/
def State.openFrame (s : State) (target : Word) : State :=
  ((s.setFs 0).setReg .fp (s.getReg .sp)).setReg .ip target

@[simp] theorem State.openFrame_mem (s : State) (target : Word) : (s.openFrame target).mem = s.mem := rfl
@[simp] theorem State.openFrame_out (s : State) (target : Word) : (s.openFrame target).out = s.out := rfl
@[simp] theorem State.openFrame_regions (s : State) (target : Word) : (s.openFrame target).regions = s.regions := rfl

/-- A call pushes its ten words, then sets the registers and `fs` (R122, R127). -/
theorem callTo_eq (target : Word) (s : State) :
    callTo target s = (pushWords (callWords s) s).andThen fun _ u => .ok () (u.openFrame target) := by
  rw [callTo, pushState_eq]
  cases pushWords (callWords s) s <;> rfl

/-- The two call instructions differ in where the target comes from only (R127, R128). -/
theorem exec_call {s : State} {addr : Word} {ra : Reg} {p : Instr × Word}
    (hp : p ∈ [(Instr.calLit addr, addr), (Instr.calReg ra, s.getReg ra)]) : exec p.1 s = (callTo p.2 s).finish := by
  simp only [List.mem_cons, List.not_mem_nil, or_false] at hp
  rcases hp with rfl | rfl <;> rfl

theorem callTo_of_pushed {s u : State} (h : pushWords (callWords s) s = .ok () u) (target : Word) :
    callTo target s = .ok () (u.openFrame target) := by
  rw [callTo_eq, h, Result.andThen_ok]

theorem callTo_of_raised {s u : State} {f : Fault} (h : pushWords (callWords s) s = .raised f u) (target : Word) :
    callTo target s = .raised f u := by
  rw [callTo_eq, h, Result.andThen_raised]

/-- Ten pushed words and an opened frame set the registers as R122 says, wherever the words went. -/
theorem callRegisters_of_pushed {s u : State} (h : pushWords (callWords s) s = .ok () u) (target : Word) :
    CallRegisters s target (u.openFrame target) := by
  obtain ⟨hsp, -, hregs, hstatus, hcfg, hregions, hstarted⟩ := pushWords_ok h
  have hsp' : u.getReg .sp = s.getReg .sp - 20 := hsp
  refine ⟨State.getReg_setReg_same .., ?_, ?_, rfl, fun r hr => ?_, hstatus, hcfg, hregions, hstarted⟩
  · exact hsp'
  · exact hsp'
  · simp only [List.mem_cons, List.not_mem_nil, or_false, not_or] at hr
    obtain ⟨hip, hsp, hfp⟩ := hr
    rw [State.openFrame, State.getReg_setReg_other _ _ hip, State.getReg_setReg_other _ _ hfp, State.setFs_getReg,
      hregs r hsp]

/-- What pushes left shows in every state with the same map, memory and log. -/
theorem wordsPushed_congr {s t u : State} {ws : List Word} (hregions : t.regions = u.regions) (hmem : t.mem = u.mem)
    (hout : t.out = u.out) (h : WordsPushed s ws u) : WordsPushed s ws t := by
  simpa only [WordsPushed, State.wordRead_congr hregions hmem, State.byteRead_congr hregions hmem, hout] using h

end Sys2Proof.Machine
end

section
/-! SUPPORT. The proofs about the memory of a machine (20_memory.md): the Mapper and its accesses, which instructions
write, what stores, pushes and calls leave in memory and in the output log, and the host's loader and viewer. -/

namespace Sys2Proof.Machine

open Sys2Proof.Safety

/-! ## Reset and the map -/

/-- Settles O2: reset lists no cell, and the default map's two columns are checked entry by entry. -/
theorem resetStateIsWellFormed : Obligations.ResetStateIsWellFormed := by
  have hmem : State.reset.mem = [] := rfl
  refine ⟨⟨?_, ?_⟩, ?_⟩
  · simp [hmem, Memory.wf]
  · simp [CellsInStorage, hmem]
  · decide

/-- Settles O57: the two checks of `map`, in their order, and what passes both. -/
theorem mapFailsExactly : Obligations.MapFailsExactly := by
  intro cfg regions r
  refine ⟨fun hlast => ?_, fun hlast hremap hlen => ?_, fun hlast hfits => ?_⟩
  · exact if_pos hlast
  · have hrange : ¬ r.last < r.start := Nat.not_lt.2 hlast
    simp only [mapRegion, if_neg hrange, hremap, hlen, and_self, if_true]
  · have hrange : ¬ r.last < r.start := Nat.not_lt.2 hlast
    have hsize : ¬ (r.remap = true ∧ deviceLength cfg r.device < r.last.toNat - r.start.toNat + 1) := by
      rintro ⟨hremap, hlen⟩
      rcases hfits with hfits | hfits
      · rw [hfits] at hremap
        cases hremap
      · omega
    rw [mapRegion, if_neg hrange, if_neg hsize]

/-- Settles O22: the search along the region list, and the first check of every access. -/
theorem lookupFindsFirstRegion : Obligations.LookupFindsFirstRegion := by
  intro s a
  simp only [← regionHolds_iff]
  refine ⟨fun k r => ?_, lookupFrom_eq_none_iff, fun hnone => ?_⟩
  · simpa only [State.lookup, Nat.zero_add] using lookupFrom_eq_some_iff (k := 0) (i := k)
  · have hbyte : ByteFaults s a (.addressOutOfBounds a) := .inl ⟨hnone, rfl⟩
    have hword : WordFaults s a (.addressOutOfBounds a) := .inl ⟨hnone, rfl⟩
    exact ⟨State.byteRead_eq_error_iff.2 hbyte, State.wordRead_eq_error_iff.2 hword,
      fun _ => State.byteWrite_eq_error_iff.2 hbyte, fun _ => State.wordWrite_eq_error_iff.2 hword⟩

/-! ## Accesses -/

/-- Settles O23: the Mapper routes a byte to an output device or to a cell, or stops it. -/
theorem byteAccessFaultsExactly : Obligations.ByteAccessFaultsExactly := by
  intro s a b
  refine ⟨fun f => State.byteRead_eq_error_iff, fun f => State.byteWrite_eq_error_iff, fun k i hout => ?_,
    fun hstorage => ?_⟩
  · have ht := State.byteTarget_of_inOutput hout
    exact ⟨State.byteRead_of_target ht, _, State.byteWrite_of_target ht b, rfl,
      fun c => State.byteRead_congr rfl rfl c, rfl, rfl, rfl, rfl, rfl, rfl⟩
  · obtain ⟨k, r, len, -, -, -, ht⟩ := State.byteTarget_of_inStorage hstorage
    exact ⟨⟨_, State.byteRead_of_target ht⟩, fun hm => ⟨_, State.byteWrite_of_target ht b,
      State.byteRead_writeTarget_same hm ht b, fun c hc => State.byteRead_writeTarget_other ht hc b,
      rfl, rfl, rfl, rfl, rfl, rfl, rfl⟩⟩

/-- Settles O24: the Mapper's checks stop a word access, and the word read joins the two bytes of the device. -/
theorem wordAccessFaultsExactly : Obligations.WordAccessFaultsExactly := by
  intro s a
  refine ⟨fun f => State.wordRead_eq_error_iff, fun v f => State.wordWrite_eq_error_iff, fun hstorage => ?_,
    fun k i => State.wordRead_of_inOutput⟩
  obtain ⟨h, l, hword, hhi, hlo⟩ := State.byteRead_of_wordInStorage hstorage
  exact ⟨joinBytes h l, h, l, hword, toNat_joinBytes h l, hhi, hlo⟩

/-- Settles O25: in storage the word read back is the word written, and a byte access reads its halves; an output
device keeps nothing. -/
theorem wordWriteThenReadBack : Obligations.WordWriteThenReadBack := by
  intro s a v k r hm hlast hl hl'
  refine ⟨fun len hd hlen => ?_, fun hd => ?_⟩
  · have hstorage : WordInStorage s a := ⟨k, r, len, hl, hd, hlast, hlen⟩
    obtain ⟨t, hwrite, hread, -, -⟩ := State.wordRead_wordWrite_same (v := v) hm hstorage
    obtain ⟨-, hregions, -⟩ := State.wordWrite_frame hwrite
    have hone : t.lookup (a + 1) = t.lookup a := by
      rw [State.lookup_congr hregions, State.lookup_congr hregions, hl', hl]
    obtain ⟨hhi, hlo⟩ := State.byteRead_of_wordRead ((wordInStorage_congr hregions).2 hstorage) hread hone
    exact ⟨t, hwrite, hread, hhi, hlo⟩
  · have hout : WordInOutput s a k (deviceIndex r a) := ⟨r, hl, hd, hlast, rfl⟩
    exact ⟨_, State.wordWrite_of_inOutput hout v,
      (State.wordRead_congr rfl rfl a).trans (State.wordRead_of_inOutput hout)⟩

/-! ## Which instructions write -/

/-- The devices hold in `t` what they hold in `s`: the same bytes under the same map, and the same log. -/
def SameDevices (s t : State) : Prop := t.regions = s.regions ∧ t.mem = s.mem ∧ t.out = s.out

theorem sameDevices_loadWord (a : Word) (rd : Reg) (s : State) : SameDevices s (loadWord a rd s).state := by
  cases h : loadWord a rd s with
  | ok u t => obtain ⟨w, -, rfl⟩ := loadWord_eq_ok.1 h; exact ⟨rfl, rfl, rfl⟩
  | raised f t => obtain ⟨-, rfl⟩ := loadWord_eq_raised.1 h; exact ⟨rfl, rfl, rfl⟩

theorem sameDevices_shiftReg (d : ShiftDir) (rd : Reg) (n : Word) (s : State) :
    SameDevices s (shiftReg d rd n s).state := by
  cases h : shiftReg d rd n s with
  | ok u t => obtain ⟨v, -, rfl⟩ := shiftReg_eq_ok.1 h; exact ⟨rfl, rfl, rfl⟩
  | raised f t => obtain ⟨-, rfl⟩ := shiftReg_eq_raised.1 h; exact ⟨rfl, rfl, rfl⟩

theorem sameDevices_branch (op : Relation) (v addr : Word) (s : State) : SameDevices s (branch op v addr s) := by
  unfold branch
  split <;> exact ⟨rfl, rfl, rfl⟩

theorem SameButRegsAndFs.sameDevices {s t : State} (h : SameButRegsAndFs s t) : SameDevices s t := by
  obtain ⟨-, -, hregions, -, hout, hmem⟩ := h
  exact ⟨hregions, hmem, hout⟩

/-- Taking a fault at the end of an instruction leaves the devices (R136). -/
theorem SameDevices.of_finish {r : Result Unit} {s t : State} (h : SameDevices s r.state)
    (ht : r.finish = .next t) : SameDevices s t := by
  cases r with
  | ok u s' => cases ht; exact h
  | raised f s' => cases ht; exact h

/-- The six instructions that make a data write are the two stores, the two pushes and the two calls (R41). -/
theorem exec_sameDevices {i : Instr} {s t : State}
    (hi : i.mnemonic ∉ [Mnemonic.movRegMem, .movLitMem, .pshLit, .pshReg, .calLit, .calReg])
    (ht : exec i s = .next t) : SameDevices s t := by
  cases i
  case movRegMem | movLitMem | pshLit | pshReg | calLit | calReg => simp [Instr.mnemonic] at hi
  case movMemReg | movRegPtrReg | movLitOffReg => exact (sameDevices_loadWord ..).of_finish ht
  case lsfRegLit | lsfRegReg | rsfRegLit | rsfRegReg => exact (sameDevices_shiftReg ..).of_finish ht
  case jmpNotEq | jneReg | jeqLit | jeqReg | jltLit | jltReg | jgtLit | jgtReg | jleLit | jleReg | jgeLit | jgeReg =>
    cases ht; exact sameDevices_branch ..
  case pop rd =>
    have hpop : SameButRegsAndFs s (pop s).state := pop_sameButRegsAndFs ⟨rfl, rfl, rfl, rfl, rfl, rfl⟩
    have hkeeps : SameDevices s ((pop s).andThen fun w s => .ok () (s.setReg rd w)).state :=
      Result.andThen_keeps hpop.sameDevices fun _ _ h => h
    exact hkeeps.of_finish ht
  case ret => exact (popState_sameButRegsAndFs s).sameDevices.of_finish ht
  all_goals cases ht; exact ⟨rfl, rfl, rfl⟩

/-- Settles O12: an instruction without a data write leaves the devices, and every byte is read from them. -/
theorem onlyStoringInstructionsWriteMemory : Obligations.OnlyStoringInstructionsWriteMemory := by
  intro i s t hi ht
  obtain ⟨hregions, hmem, hout⟩ := exec_sameDevices hi ht
  exact ⟨hout, State.byteRead_congr hregions hmem⟩

/-! ## Stores and pushes onto output devices -/

/-- Settles O29: both stores are the Engine's write, of a register or of a literal. -/
theorem storesToOutputEmitTwoEvents : Obligations.StoresToOutputEmitTwoEvents := by
  intro s addr lit ra k i hout
  have hstore (v : Word) : (writeWord addr v s).finish =
      .next { s with out := s.out ++ [⟨k, i, hiByte v⟩, ⟨k, i + 1, loByte v⟩] } :=
    congrArg Result.finish (writeWord_of_inOutput hout v)
  exact ⟨⟨_, hstore (s.getReg ra), rfl, rfl, rfl, rfl, rfl, rfl, rfl, State.byteRead_congr rfl rfl⟩,
    ⟨_, hstore lit, rfl, rfl, rfl, rfl, rfl, rfl, rfl, State.byteRead_congr rfl rfl⟩⟩

/-- Settles O42: both instructions are one push, of a register or of a literal. -/
theorem pushesOntoOutputEmitEvents : Obligations.PushesOntoOutputEmitEvents := by
  intro s lit ra k i hout p hp
  have hexec : exec p.1 s = (push p.2 s).finish := by
    simp only [List.mem_cons, List.not_mem_nil, or_false] at hp
    rcases hp with rfl | rfl <;> rfl
  rw [hexec, push_of_inOutput hout]
  exact ⟨_, rfl, rfl, State.getReg_setReg_same s .., rfl, fun r hr => State.getReg_setReg_other s _ hr, rfl, rfl, rfl,
    rfl, State.byteRead_congr rfl rfl⟩

/-! ## Calls -/

/-- Settles O48: the ten pushes emit their events, and opening the frame touches neither memory nor log. -/
theorem callsOntoOutputEmitEvents : Obligations.CallsOntoOutputEmitEvents := by
  intro s addr ra k i hout p hp
  obtain ⟨u, hu, hmem, hevents⟩ := pushWords_output (ws := callWords s) hout
  obtain ⟨-, -, -, -, -, hregions, -⟩ := pushWords_ok hu
  rw [exec_call hp, callTo_of_pushed hu]
  exact ⟨_, rfl, callRegisters_of_pushed hu p.2, (State.openFrame_out ..).trans hevents,
    State.byteRead_congr ((State.openFrame_regions ..).trans hregions) ((State.openFrame_mem ..).trans hmem)⟩

/-- Settles O49: the call raises at its `j`-th push, whatever its target, and has made the pushes before. -/
theorem faultingCallKeepsCompletedPushes : Obligations.FaultingCallKeepsCompletedPushes := by
  intro s addr ra j f hm hj hbefore hf
  obtain ⟨u, hu, hraise⟩ := pushWords_raises (ws := callWords s) hj hbefore hf
  have hlen : ((callWords s).take j).length = j := List.length_take_of_le hj.le
  obtain ⟨hsp, hfs, hregs, -, hcfg, hregions, hstarted⟩ := pushWords_ok hu
  rw [hlen] at hsp hfs
  have hcall (target : Word) : (callTo target s).finish = .next (u.takeFault f) :=
    congrArg Result.finish (callTo_of_raised hraise target)
  obtain ⟨hpushed, -⟩ := pushWords_pushed hm (by omega) hu
  exact ⟨u.takeFault f, hcall addr, hcall (s.getReg ra), rfl, hsp, hfs, hregs, hcfg, hregions, hstarted,
    wordsPushed_congr rfl rfl rfl hpushed⟩

/-- Settles O47: ten pushes that can be made are made and open the frame; the other case is O49's. -/
theorem callsSetRegistersOnAnyDevice : Obligations.CallsSetRegistersOnAnyDevice := by
  intro s addr ra hm p hp
  refine ⟨fun hfree => ?_, fun j f hj hbefore hf => ?_⟩
  · obtain ⟨u, hu⟩ := pushWords_completes (ws := callWords s) hfree
    obtain ⟨hpushed, -⟩ := pushWords_pushed hm (by rw [callWords_length]; decide) hu
    rw [exec_call hp, callTo_of_pushed hu]
    have hopened : WordsPushed s (callWords s) (u.openFrame p.2) :=
      wordsPushed_congr (State.openFrame_regions ..) (State.openFrame_mem ..) (State.openFrame_out ..) hpushed
    exact ⟨_, rfl, callRegisters_of_pushed hu p.2, hopened⟩
  · obtain ⟨t, hlit, hreg, hstatus, hsp, hfs, hregs, hcfg, hregions, hstarted, -⟩ :=
      faultingCallKeepsCompletedPushes s addr ra j f hm hj hbefore hf
    have hexec : exec p.1 s = .next t := by
      simp only [List.mem_cons, List.not_mem_nil, or_false] at hp
      rcases hp with rfl | rfl
      · exact hlit
      · exact hreg
    exact ⟨t, hexec, hstatus, hsp, hfs, hregs, hcfg, hregions, hstarted⟩

/-! ## The loader and the viewer -/

theorem add_one_add_ofNat (a : Word) (j : Nat) : a + 1 + BitVec.ofNat 16 j = a + BitVec.ofNat 16 (j + 1) := by
  rw [Nat.add_comm, BitVec.ofNat_add, BitVec.add_assoc]
  rfl

/-- An address and the `j`-th after the next one differ, unless the whole address space lies between them. -/
theorem ne_add_ofNat_succ (a : Word) {j : Nat} (hj : j + 1 < 65536) : a ≠ a + BitVec.ofNat 16 (j + 1) := by
  bv_omega

theorem State.cellAt_eq_some {s : State} {a : Word} {n : Nat} (h : s.cellAt a = some n) :
    s.byteTarget a = .ok (.cell n) := by
  unfold State.cellAt at h
  split at h
  · cases h; assumption
  · cases h

/-- A load that answers has stored its first byte and loaded the rest after it. -/
theorem loadBytes_cons_eq_some {s t : State} {a : Word} {b : Byte} {bs : List Byte}
    (h : loadBytes s a (b :: bs) = some t) :
    ∃ n, s.byteTarget a = .ok (.cell n) ∧ loadBytes (s.writeTarget (.cell n) b) (a + 1) bs = some t := by
  simp only [loadBytes] at h
  split at h
  · cases h
  · next n hn => exact ⟨n, State.cellAt_eq_some hn, h⟩

/-- Loading changes the memory alone (R148). -/
theorem loadBytes_frame {bs : List Byte} {s t : State} {a : Word} (h : loadBytes s a bs = some t) :
    t.regs = s.regs ∧ t.fs = s.fs ∧ t.status = s.status ∧ t.out = s.out ∧ t.cfg = s.cfg ∧ t.regions = s.regions ∧
      t.started = s.started := by
  induction bs generalizing s a with
  | nil => cases h; exact ⟨rfl, rfl, rfl, rfl, rfl, rfl, rfl⟩
  | cons b bs ih =>
    obtain ⟨n, -, h⟩ := loadBytes_cons_eq_some h
    exact ih (s := s.writeTarget (.cell n) b) h

/-- Loading changes no byte outside the addresses loaded. -/
theorem byteRead_loadBytes_other {bs : List Byte} {s t : State} {a c : Word} (h : loadBytes s a bs = some t)
    (hc : ∀ j < bs.length, c ≠ a + BitVec.ofNat 16 j) : t.byteRead c = s.byteRead c := by
  induction bs generalizing s a with
  | nil => cases h; rfl
  | cons b bs ih =>
    obtain ⟨n, hn, h⟩ := loadBytes_cons_eq_some h
    have hne : c ≠ a := by simpa using hc 0 (by simp)
    calc t.byteRead c
        = (s.writeTarget (.cell n) b).byteRead c := ih h fun j hj => by
          rw [add_one_add_ofNat]
          exact hc (j + 1) (by simpa using hj)
      _ = s.byteRead c := State.byteRead_writeTarget_other hn hne b

/-- Loaded bytes are read back, as long as the load does not come round to its first address. -/
theorem byteRead_loadBytes {bs : List Byte} {s t : State} {a : Word} (hm : Memory.wf s.mem)
    (hlen : bs.length ≤ 65536) (h : loadBytes s a bs = some t) {j : Nat} {b : Byte} (hj : bs[j]? = some b) :
    t.byteRead (a + BitVec.ofNat 16 j) = .ok b := by
  induction bs generalizing s a j with
  | nil => cases hj
  | cons b' bs ih =>
    obtain ⟨n, hn, h⟩ := loadBytes_cons_eq_some h
    simp only [List.length_cons] at hlen
    cases j with
    | zero =>
      obtain rfl : b' = b := by simpa using hj
      have hrest : ∀ j < bs.length, a ≠ a + 1 + BitVec.ofNat 16 j := fun j hj => by
        rw [add_one_add_ofNat]
        exact ne_add_ofNat_succ a (by omega)
      rw [BitVec.add_zero, byteRead_loadBytes_other h hrest, State.byteRead_writeTarget_same hm hn]
    | succ j =>
      rw [← add_one_add_ofNat]
      exact ih (Memory.write_wf _ _ hm) (by omega) h (by simpa using hj)

theorem load_eq_some_iff {s t : State} {a : Word} {bytes : List Byte} :
    load s a bytes = some t ↔ s.started = false ∧ loadBytes s a bytes = some t := by
  cases hs : s.started <;> simp [load, hs]

theorem load_of_started {s : State} (h : s.started = true) (a : Word) (bytes : List Byte) :
    load s a bytes = none :=
  if_pos h

/-- The host's step, too, marks that a step has been made (R148, D28). -/
theorem hostStep_started (s : State) : (hostStep s).1.started = true := by
  by_cases h : s.status = .running
  · obtain ⟨t, ht⟩ := step_running_next h
    rw [hostStep_of_next ht]
    exact step_started ht
  · rw [hostStep_of_stopped h]
    exact State.start_started s

/-- Settles O56: a load is a run of byte writes before the first step, and every step sets the mark that `load`
refuses on. -/
theorem loadedBytesReadBack : Obligations.LoadedBytesReadBack := by
  refine ⟨fun s t a bytes hm hlen hload => ?_, fun s t a bytes => ⟨fun ht => ?_, ?_⟩⟩
  · obtain ⟨hs, hload⟩ := load_eq_some_iff.1 hload
    obtain ⟨hregs, hfs, hstatus, hout, hcfg, hregions, hstarted⟩ := loadBytes_frame hload
    exact ⟨fun j b => byteRead_loadBytes hm hlen hload, fun c => byteRead_loadBytes_other hload, hregs, hfs, hstatus,
      hout, hcfg, hregions, hs, hstarted.trans hs⟩
  · exact load_of_started (step_started ht) a bytes
  · exact load_of_started (hostStep_started s) a bytes

/-- Readable bytes are viewed in address order. -/
theorem viewBytes_eq_ok {s : State} {n : Nat} {a : Word} {b : Nat → Byte}
    (h : ∀ j < n, s.byteRead (a + BitVec.ofNat 16 j) = .ok (b j)) :
    viewBytes s n a = .ok ((List.range n).map b) := by
  induction n generalizing a b with
  | zero => rfl
  | succ n ih =>
    have hfirst : s.byteRead a = .ok (b 0) := by simpa using h 0 (Nat.succ_pos n)
    have hrest : viewBytes s n (a + 1) = .ok ((List.range n).map fun j => b (j + 1)) := ih fun j hj => by
      rw [add_one_add_ofNat]
      exact h (j + 1) (by omega)
    simp only [viewBytes, hfirst, hrest, List.range_succ_eq_map, List.map_cons, List.map_map]
    rfl

/-- The first byte that cannot be read ends the view with its fault. -/
theorem viewBytes_eq_error {s : State} {n m : Nat} {a : Word} {f : Fault} (hn : n < m)
    (h : ∀ j < n, ∃ b, s.byteRead (a + BitVec.ofNat 16 j) = .ok b)
    (hf : s.byteRead (a + BitVec.ofNat 16 n) = .error f) : viewBytes s m a = .error f := by
  induction m generalizing n a with
  | zero => omega
  | succ m ih =>
    cases n with
    | zero =>
      rw [BitVec.add_zero] at hf
      simp only [viewBytes, hf]
    | succ n =>
      obtain ⟨b, hb⟩ := h 0 (Nat.succ_pos n)
      rw [BitVec.add_zero] at hb
      simp only [← add_one_add_ofNat] at hf
      have hrest : viewBytes s m (a + 1) = .error f := ih (by omega) (fun j hj => by
        rw [add_one_add_ofNat]
        exact h (j + 1) (by omega)) hf
      simp only [viewBytes, hb, hrest]

theorem inspectFault_of_running {s : State} (h : s.status = .running) (f : Fault) :
    s.inspectFault f = s.setStatus (.faulted f) := by
  simp only [State.inspectFault, h, State.takeFault]

/-- Settles O59: the view reads byte after byte, to the end of the range or to the first fault. -/
theorem viewReadsRange : Obligations.ViewReadsRange := by
  intro s lo hi hle
  have hcount : hi.toNat + 1 - lo.toNat = hi.toNat - lo.toNat + 1 := by omega
  refine ⟨fun b hb => ?_, fun n f hn hb hf hrun => ?_⟩
  · have hview := viewBytes_eq_ok (n := hi.toNat - lo.toNat + 1) (b := b) fun j hj => hb j (by omega)
    simp only [view, hcount, hview]
  · have hview := viewBytes_eq_error (m := hi.toNat - lo.toNat + 1) (by omega) hb (State.byteRead_eq_error_iff.2 hf)
    simp only [view, hcount, hview, inspectFault_of_running hrun]

end Sys2Proof.Machine
end

section
/-! SUPPORT. The proofs about the encoding (30_encoding.md): the decoder undoes the encoder, the default map's
unassigned bytes, which faults a fetch raises and what they leave, and where a run ends. -/

namespace Sys2Proof

/-! ## The decoder undoes the encoder -/

/-- In an injective map the byte of a supported mnemonic selects that mnemonic (R20, R62). -/
theorem mnemonicOf_opcodeByte {cfg : Config} {m : Mnemonic} (h : cfg.wf) (hm : cfg.supports m = true) :
    cfg.mnemonicOf (cfg.opcodeByte m) = some m := by
  have hrow := Machine.opcodeByte_mem h m
  cases hop : cfg.mnemonicOf (cfg.opcodeByte m) with
  | none =>
    have hnone := List.find?_eq_none.1 (Option.map_eq_none_iff.1 hop) _ hrow
    simp [hm] at hnone
  | some m' =>
    have ⟨_, _, hinj⟩ := h
    have hsame := List.inj_on_of_nodup_map hinj (mnemonicOf_supports hop).2 hrow rfl
    exact congrArg (some ∘ Prod.fst) hsame

/-- A register that the Register File has is the one its canonical byte selects (R60). -/
theorem regOfByte_regByte {cfg : Config} {r : Reg} (h : r.present cfg.regConfig = true) :
    regOfByte cfg (regByte r) = r := by
  have hid : r.id < cfg.regCount := by
    unfold Config.regCount
    cases hc : cfg.regConfig with
    | full => exact Machine.id_lt r
    | reduced =>
      rw [hc] at h
      cases r with
      | sp | fp => cases h
      | _ => decide
  have hbyte : (regByte r).toNat = r.id := by
    rw [regByte, BitVec.toNat_ofNat]
    exact Nat.mod_eq_of_lt (lt_trans (Machine.id_lt r) (by decide))
  rw [regOfByte, hbyte, Nat.mod_eq_of_lt hid, Machine.regOfId_id]

/-- A byte zero-extended to a word is the word whose low byte it is, if that word is below 256. -/
theorem setWidth_loByte {n : Word} (h : n.toNat < 256) : (loByte n).setWidth 16 = n := by
  apply BitVec.eq_of_toNat_eq
  rw [loByte, BitVec.toNat_setWidth, BitVec.extractLsb'_toNat, Nat.shiftRight_zero]
  omega

/-- The operand bytes of an instruction are as many as its format says (R54, R57). -/
theorem length_operandBytes (cfg : Config) (i : Instr) :
    (i.operandBytes cfg).length = i.mnemonic.operandSize cfg := by
  have hshift : ∀ r n, (regByte r :: shiftLiteralBytes cfg n).length = Mnemonic.lsfRegLit.operandSize cfg := by
    intro r n
    cases hw : cfg.shiftLitWidth <;>
      simp [shiftLiteralBytes, Mnemonic.operandSize, Mnemonic.kinds, hw, wordBytes, OperandKind.size]
  cases i with
  | lsfRegLit r n | rsfRegLit r n => exact hshift r n
  | _ => rfl

/-- The fields of a well-formed instruction are read back from its operand bytes (R55 to R57, R60). -/
theorem decodeFields_operandBytes {cfg : Config} {i : Instr} (h : i.wf cfg = true) :
    decodeFields cfg i.mnemonic (i.operandBytes cfg) = i := by
  simp only [Instr.wf, Bool.and_eq_true, Instr.registersPresent, List.all_eq_true] at h
  obtain ⟨⟨hpresent, -⟩, hfits⟩ := h
  have hregs : ∀ r ∈ i.registers, regOfByte cfg (regByte r) = r := fun r hr => regOfByte_regByte (hpresent r hr)
  cases i with
  | lsfRegLit r n | rsfRegLit r n =>
    simp only [Instr.registers, List.forall_mem_singleton] at hregs
    cases hw : cfg.shiftLitWidth with
    | bits8 =>
      have hn : n.toNat < 256 := by simpa [Instr.literalFits, hw] using hfits
      simp [Instr.mnemonic, Instr.operandBytes, decodeFields, shiftLiteralBytes, shiftLiteral, hw, hregs,
        setWidth_loByte hn]
    | bits16 =>
      simp [Instr.mnemonic, Instr.operandBytes, decodeFields, shiftLiteralBytes, shiftLiteral, hw, hregs, wordBytes]
  | _ =>
    simp only [Instr.registers, List.forall_mem_cons] at hregs
    simp [Instr.mnemonic, Instr.operandBytes, decodeFields, wordBytes, hregs]

/-- Settles O13: the opcode byte selects the mnemonic, whose length cuts off the operand bytes, and each field is
read back from them. -/
theorem decodeOfEncode : Obligations.DecodeOfEncode := by
  intro cfg i rest hcfg hi
  have hsupports : cfg.supports i.mnemonic = true := by
    obtain ⟨⟨-, hsupported⟩, -⟩ := by simpa only [Instr.wf, Bool.and_eq_true] using hi
    rwa [← supported_eq]
  have hlen := length_operandBytes cfg i
  simp only [encode, List.cons_append, decode, mnemonicOf_opcodeByte hcfg hsupports]
  rw [if_neg (by simp [hlen]), ← hlen, List.take_left, List.drop_left, decodeFields_operandBytes hi]

/-! ## Opcodes of the default map -/

/-- An opcode byte selects nothing exactly where no supported row of the map has it (R62, R63). -/
theorem mnemonicOf_eq_none_iff {cfg : Config} {op : Byte} :
    cfg.mnemonicOf op = none ↔ ∀ row ∈ cfg.opcodeMap, cfg.supports row.1 = true → row.2 ≠ op := by
  simp only [Config.mnemonicOf, Option.map_eq_none_iff, List.find?_eq_none, Bool.and_eq_true, beq_iff_eq]
  exact forall₂_congr fun row _ => by tauto

/-- Under `Full` an opcode byte selects nothing exactly where the map does not hold it (R20, R63). -/
theorem mnemonicOf_eq_none_iff_of_full {cfg : Config} {op : Byte} (h : cfg.regConfig = .full) :
    cfg.mnemonicOf op = none ↔ op ∉ cfg.opcodeMap.map Prod.snd := by
  have hall : ∀ m, cfg.supports m = true := fun m => by simp [Config.supports, h]
  simp only [mnemonicOf_eq_none_iff, hall, List.mem_map, true_imp_iff]
  exact ⟨fun hne ⟨row, hrow, he⟩ => hne row hrow he, fun hnot row hrow he => hnot ⟨row, hrow, he⟩⟩

/-- Settles O16: the bytes of the default map's 48 rows, and the ranges between them. -/
theorem unassignedOpcodesOfDefaultMap : Obligations.UnassignedOpcodesOfDefaultMap := by
  intro b
  rw [mnemonicOf_eq_none_iff_of_full rfl]
  simp only [Config.default, defaultOpcodeMap, List.flatten_cons, List.flatten_nil, List.append_nil, List.map_append,
    List.map_cons, List.map_nil, List.mem_append, List.mem_cons, List.not_mem_nil, or_false]
  bv_omega

/-- Settles O17: each word is evaluated by the decoder. -/
theorem writtenWordsDecode : Obligations.WrittenWordsDecode :=
  ⟨rfl, rfl, rfl, rfl, rfl, rfl, rfl, rfl, rfl, rfl, rfl⟩

namespace Machine

open Sys2Proof.Safety

/-! ## The faults of a fetch -/

theorem length_of_operandsAt {s : State} {a : Word} {ks : List OperandKind} {bs : List Byte}
    (h : OperandsAt s a ks bs) : bs.length = (ks.map OperandKind.size).sum := by
  have hat : OperandsAt (s.setReg .ip a) ((s.setReg .ip a).getReg .ip) ks bs := by simpa using h
  exact (fetchOperands_eq_ok (fetchOperands_of_at hat)).2

/-- After the opcode fetch, the operands cannot be fetched exactly where one of them faults (R67, R135). -/
theorem fetchOperands_after_opcode_eq_raised {ks : List OperandKind} {f : Fault} {s t : State} :
    fetchOperands ks (s.setReg .ip (s.getReg .ip + 1)) = .raised f t ↔
      ∃ done k rest bs, ks = done ++ k :: rest ∧ OperandsAt s (s.getReg .ip + 1) done bs ∧
        OperandFaults s (s.getReg .ip + BitVec.ofNat 16 (1 + bs.length)) k f ∧
        t = s.setReg .ip (s.getReg .ip + BitVec.ofNat 16 (1 + bs.length)) := by
  simp only [fetchOperands_eq_raised, State.getReg_setReg_same, operandsAt_setReg, operandFaults_setReg,
    State.setReg_setReg, BitVec.ofNat_add, BitVec.add_assoc]
  rfl

/-- A fetch raises a fault exactly as `FetchFaults` says, after `n` bytes, with `ip` past those (R63, R67, R135). -/
theorem fetchInstr_eq_raised {s t : State} {f : Fault} :
    fetchInstr s = .raised f t ↔
      ∃ n, FetchFaults s f n ∧ t = s.setReg .ip (s.getReg .ip + BitVec.ofNat 16 n) := by
  constructor
  · intro h
    rcases Result.andThen_eq_raised.1 h with h | ⟨op, s1, h1, h⟩
    · obtain ⟨hop, rfl⟩ := fetch8_eq_raised.1 h
      exact ⟨0, .inl ⟨rfl, hop⟩, by simp [State.setReg_getReg]⟩
    · obtain ⟨hop, rfl⟩ := fetch8_eq_ok.1 h1
      split at h
      · next hm =>
        cases h
        exact ⟨1, .inr ⟨op, hop, .inl ⟨hm, rfl, rfl⟩⟩, rfl⟩
      · next m hm =>
        rcases Result.andThen_eq_raised.1 h with h | ⟨_, _, -, h⟩
        · obtain ⟨done, k, rest, bs, hkinds, hat, hfault, rfl⟩ := fetchOperands_after_opcode_eq_raised.1 h
          exact ⟨_, .inr ⟨op, hop, .inr ⟨m, done, k, rest, bs, hm, hkinds, hat, rfl, hfault⟩⟩, rfl⟩
        · cases h
  · rintro ⟨n, ⟨rfl, hop⟩ | ⟨op, hop, ⟨hm, rfl, rfl⟩ | ⟨m, done, k, rest, bs, hm, hkinds, hat, rfl, hfault⟩⟩, rfl⟩
    · rw [BitVec.add_zero, State.setReg_getReg]
      exact Result.andThen_eq_raised.2 (.inl (fetch8_eq_raised.2 ⟨hop, rfl⟩))
    · exact fetchInstr_of_unassigned hop hm
    · have hraised := fetchOperands_after_opcode_eq_raised.2 ⟨done, k, rest, bs, hkinds, hat, hfault, rfl⟩
      simp only [fetchInstr, fetch8_eq_ok.2 ⟨hop, rfl⟩, Result.andThen_ok, State.setReg_cfg, hm, hraised,
        Result.andThen_raised]

/-- A fetch that faults has fetched four bytes at most: the faulting operand is one of at most four operand bytes. -/
theorem fetchFaults_le_four {s : State} {f : Fault} {n : Nat} (h : FetchFaults s f n) : n ≤ 4 := by
  obtain ⟨rfl, -⟩ | ⟨op, -, ⟨-, rfl, -⟩ | ⟨m, done, k, rest, bs, -, hkinds, hat, rfl, -⟩⟩ := h
  · decide
  · decide
  · have hlen := length_of_operandsAt hat
    have hk : 1 ≤ k.size := by cases k <;> decide
    have hsize := operandSize_le s.cfg m
    simp only [Mnemonic.operandSize, hkinds, List.map_append, List.map_cons, List.sum_append, List.sum_cons] at hsize
    omega

@[simp] theorem fetchFaults_start (s : State) (f : Fault) (n : Nat) :
    FetchFaults s.start f n ↔ FetchFaults s f n := by
  simp only [FetchFaults, State.start_getReg, State.start_cfg, State.byteRead_start, operandsAt_start,
    operandFaults_start]

/-- The step of a running machine takes the fault of its fetch. -/
theorem step_of_fetchFaults {s : State} {f : Fault} {n : Nat} (hrun : s.status = .running) (h : FetchFaults s f n) :
    step s = .next ((s.start.setReg .ip (s.getReg .ip + BitVec.ofNat 16 n)).takeFault f) :=
  step_of_fetch_raised hrun (fetchInstr_eq_raised.2 ⟨n, (fetchFaults_start s f n).2 h, rfl⟩)

/-- Settles O20: a fetch raises exactly what `FetchFaults` says, and the step takes it. -/
theorem fetchFaultMovesOnlyIp : Obligations.FetchFaultMovesOnlyIp := by
  intro s hrun
  refine ⟨fun f s' h => ?_, fun f n => step_of_fetchFaults hrun⟩
  obtain ⟨n, hfaults, hs'⟩ := fetchInstr_eq_raised.1 h
  exact ⟨n, fetchFaults_le_four hfaults, hfaults, hs'⟩

/-- Settles O19: the two faults of a fetch that come before any operand byte, after no byte and after one. -/
theorem opcodeFetchFaults : Obligations.OpcodeFetchFaults := by
  intro s hrun
  refine ⟨fun f hop => ?_, fun op hop hm => ?_⟩
  · have hstep := step_of_fetchFaults hrun (.inl ⟨rfl, hop⟩)
    rwa [BitVec.add_zero, ← State.start_getReg, State.setReg_getReg] at hstep
  · exact step_of_fetchFaults hrun (.inr ⟨op, hop, .inl ⟨hm, rfl, rfl⟩⟩)

/-- Settles O21: each primitive reads at `ip` and writes `ip` alone, or raises the access's fault. -/
theorem fetchPrimitivesAdvanceIp : Obligations.FetchPrimitivesAdvanceIp := by
  intro s
  have hadvance : ∀ n, ((s.setReg .ip (s.getReg .ip + n)).getReg .ip).toNat =
      ((s.getReg .ip).toNat + n.toNat) % 65536 := fun n => by rw [State.getReg_setReg_same, BitVec.toNat_add]
  exact ⟨fun b hb => ⟨_, fetch8_eq_ok.2 ⟨hb, rfl⟩, hadvance 1, sameExceptRegs_setReg ..⟩,
    fun f hf => fetch8_eq_raised.2 ⟨hf, rfl⟩, fun f hf => fetch16_eq_raised.2 ⟨hf, rfl⟩,
    fun w hw => ⟨_, fetch16_eq_ok.2 ⟨hw, rfl⟩, hadvance 2, sameExceptRegs_setReg ..⟩⟩

/-! ## Where a run ends -/

/-- A run goes on from a step that gives `Continue` (R66). -/
theorem hostRun_succ_of_continued {s : State} (h : (hostStep s).2 = .continued) (n : Nat) :
    hostRun (n + 1) s = hostRun n (hostStep s).1 := by
  cases hs : hostStep s with
  | mk t r =>
    rw [hs] at h
    cases h
    simp only [hostRun, hs]

/-- A run ends with the first step that gives another result (R66). -/
theorem hostRun_succ_of_stopped {s : State} (h : (hostStep s).2 ≠ .continued) (n : Nat) :
    hostRun (n + 1) s = ((hostStep s).1, some (hostStep s).2) := by
  cases hs : hostStep s with
  | mk t r =>
    rw [hs] at h
    cases r with
    | continued => exact absurd rfl h
    | done | fault f => simp only [hostRun, hs]

/-- The result of a stopped machine is `Done` or its fault. -/
theorem stepResult_of_stopped {t : State} (h : stepResult t ≠ .continued) :
    (t.status = .halted ∧ stepResult t = .done) ∨ ∃ f, t.status = .faulted f ∧ stepResult t = .fault f := by
  cases hs : t.status with
  | running => exact absurd ((stepResult_eq_continued t).2 hs) h
  | halted => exact .inl ⟨rfl, (stepResult_eq_done t).2 hs⟩
  | faulted f => exact .inr ⟨f, rfl, (stepResult_eq_fault t f).2 hs⟩

/-- Settles O55, by induction on the cut: the run ends with its first step, whatever the cut after it, or goes on from
the state after that step. -/
theorem runEndsOnlyHaltedOrFaulted : Obligations.RunEndsOnlyHaltedOrFaulted := by
  intro n m s t r h
  induction n generalizing s with
  | zero => cases h
  | succ n ih =>
    rw [Nat.add_right_comm]
    by_cases hc : (hostStep s).2 = .continued
    · rw [hostRun_succ_of_continued hc] at h ⊢
      exact ih _ h
    · rw [hostRun_succ_of_stopped hc] at h ⊢
      cases h
      rw [hostStep_result] at hc ⊢
      exact ⟨stepResult_of_stopped hc, rfl⟩

end Machine

end Sys2Proof
end

section
/-! SUPPORT. The proofs about the Move family (40_move.md): its register writes, loads and stores, completed or stopped
by the checks of R34. -/

namespace Sys2Proof.Machine

open Sys2Proof.Safety

/-! ## The seven instructions as shared operations -/

theorem exec_movLitReg (lit : Word) (rd : Reg) (s : State) :
    exec (.movLitReg lit rd) s = .next (s.setReg rd lit) := rfl

theorem exec_movRegReg (ra rd : Reg) (s : State) :
    exec (.movRegReg ra rd) s = .next (s.setReg rd (s.getReg ra)) := rfl

theorem exec_movRegMem (ra : Reg) (addr : Word) (s : State) :
    exec (.movRegMem ra addr) s = (writeWord addr (s.getReg ra) s).finish := rfl

theorem exec_movMemReg (addr : Word) (rd : Reg) (s : State) :
    exec (.movMemReg addr rd) s = (loadWord addr rd s).finish := rfl

theorem exec_movLitMem (lit addr : Word) (s : State) :
    exec (.movLitMem lit addr) s = (writeWord addr lit s).finish := rfl

theorem exec_movRegPtrReg (ra rd : Reg) (s : State) :
    exec (.movRegPtrReg ra rd) s = (loadWord (s.getReg ra) rd s).finish := rfl

theorem exec_movLitOffReg (lit : Word) (ra rd : Reg) (s : State) :
    exec (.movLitOffReg lit ra rd) s = (loadWord (lit + s.getReg ra) rd s).finish := rfl

/-! ## Writes of a register -/

/-- An outcome that is one register write sets that register and nothing else. -/
theorem writesOnly_of_eq_setReg {o : Host.Outcome State Fault Refusal} {s : State} {rd : Reg} {v : Word}
    (h : o = .next (s.setReg rd v)) : ∃ t, o = .next t ∧ t.getReg rd = v ∧ SameExceptRegs [rd] s t :=
  ⟨_, h, State.getReg_setReg_same s rd v, sameExceptRegs_setReg s rd v⟩

/-- Settles O26: both instructions are one register write, of a literal or of a register. -/
theorem registerMovesWriteDestinationOnly : Obligations.RegisterMovesWriteDestinationOnly := by
  intro s lit ra rd
  exact ⟨writesOnly_of_eq_setReg (exec_movLitReg lit rd s), writesOnly_of_eq_setReg (exec_movRegReg ra rd s)⟩

/-! ## Loads -/

/-- A load from a readable address writes the word there to its destination and nothing else. -/
theorem finish_loadWord_writesOnly {s : State} {a w : Word} (h : s.wordRead a = .ok w) (rd : Reg) :
    ∃ t, (loadWord a rd s).finish = .next t ∧ t.getReg rd = w ∧ SameExceptRegs [rd] s t :=
  writesOnly_of_eq_setReg (congrArg Result.finish (loadWord_eq_ok (u := ()).2 ⟨w, h, rfl⟩))

theorem finish_loadWord_of_faults {s : State} {a : Word} {f : Fault} (h : WordFaults s a f) (rd : Reg) :
    (loadWord a rd s).finish = .next (s.takeFault f) :=
  congrArg Result.finish (loadWord_eq_raised.2 ⟨State.wordRead_of_faults h, rfl⟩)

/-- Settles O27: the three instructions are the one load, from an address of their own; the indexed address is the sum
of the numbers modulo 65536. -/
theorem loadsWriteDestinationOnly : Obligations.LoadsWriteDestinationOnly := by
  intro s addr lit w ra rd
  rw [exec_movMemReg, exec_movRegPtrReg, exec_movLitOffReg]
  have hindexed : BitVec.ofNat 16 (lit.toNat + (s.getReg ra).toNat) = lit + s.getReg ra := by
    simp [BitVec.ofNat_add]
  rw [hindexed]
  exact ⟨fun h => finish_loadWord_writesOnly h rd, fun h => finish_loadWord_writesOnly h rd,
    fun h => finish_loadWord_writesOnly h rd⟩

/-! ## Stores -/

/-- A store into storage completes, and changes the two bytes at its address and nothing else (R34, R37). -/
theorem finish_writeWord_storage {s : State} {a : Word} (v : Word) (hm : Memory.wf s.mem) (h : WordInStorage s a) :
    ∃ t, (writeWord a v s).finish = .next t ∧ t.wordRead a = .ok v ∧ t.fs = s.fs ∧ SameExceptWord [] a s t := by
  obtain ⟨t, hwrite, hread, hout, -⟩ := State.wordRead_wordWrite_same (v := v) hm h
  obtain ⟨hcfg, hregions, hregs, hfs, hstatus⟩ := State.wordWrite_frame hwrite
  have hget (r : Reg) : t.getReg r = s.getReg r := by simp only [State.getReg, hregs]
  have hstore : writeWord a v s = .ok () t := writeWord_eq_ok.2 hwrite
  exact ⟨t, congrArg Result.finish hstore, hread, hfs, fun r _ => hget r, hstatus, hcfg, hregions,
    State.wordWrite_started hwrite, hout, fun _ => State.byteRead_wordWrite_other hwrite⟩

theorem finish_writeWord_of_faults {s : State} {a : Word} {f : Fault} (h : WordFaults s a f) (v : Word) :
    (writeWord a v s).finish = .next (s.takeFault f) :=
  congrArg Result.finish (writeWord_eq_raised.2 ⟨State.wordWrite_of_faults h v, rfl⟩)

/-- Settles O28: both stores are the one write, of a register or of a literal. -/
theorem storesWriteOneWord : Obligations.StoresWriteOneWord := by
  intro s addr lit ra hm hstorage
  rw [exec_movRegMem, exec_movLitMem]
  exact ⟨finish_writeWord_storage (s.getReg ra) hm hstorage, finish_writeWord_storage lit hm hstorage⟩

/-! ## Stopped accesses -/

/-- Settles O30: a stopped load or store leaves its state to the fault entry, which sets the status. -/
theorem faultingMovesChangeStatusOnly : Obligations.FaultingMovesChangeStatusOnly := by
  intro s addr lit ra rd f
  rw [exec_movRegMem, exec_movLitMem, exec_movMemReg, exec_movRegPtrReg, exec_movLitOffReg]
  exact ⟨fun h => ⟨finish_writeWord_of_faults h _, finish_writeWord_of_faults h lit, finish_loadWord_of_faults h rd⟩,
    fun h => finish_loadWord_of_faults h rd, fun h => finish_loadWord_of_faults h rd,
    State.takeFault_status s f, State.takeFault_fs s f, State.takeFault_out s f, State.takeFault_getReg s f,
    State.byteRead_takeFault s f⟩

end Sys2Proof.Machine
end

section
/-! SUPPORT. The proofs about the Arithmetic family (41_arithmetic.md): sums, differences and products modulo 65536
into `acc`, and the two steps by one in place. -/

namespace Sys2Proof.Machine

open Sys2Proof.Safety

/-! ## The eleven instructions as one register write -/

theorem exec_addRegReg (ra rb : Reg) (s : State) :
    exec (.addRegReg ra rb) s = .next (s.setReg .acc (s.getReg ra + s.getReg rb)) := rfl

theorem exec_addLitReg (lit : Word) (ra : Reg) (s : State) :
    exec (.addLitReg lit ra) s = .next (s.setReg .acc (lit + s.getReg ra)) := rfl

theorem exec_addRegLit (ra : Reg) (lit : Word) (s : State) :
    exec (.addRegLit ra lit) s = .next (s.setReg .acc (s.getReg ra + lit)) := rfl

theorem exec_subRegReg (ra rb : Reg) (s : State) :
    exec (.subRegReg ra rb) s = .next (s.setReg .acc (s.getReg ra - s.getReg rb)) := rfl

theorem exec_subLitReg (lit : Word) (ra : Reg) (s : State) :
    exec (.subLitReg lit ra) s = .next (s.setReg .acc (subLiteralRegister s.cfg.subOrder lit (s.getReg ra))) := rfl

theorem exec_subRegLit (ra : Reg) (lit : Word) (s : State) :
    exec (.subRegLit ra lit) s = .next (s.setReg .acc (subRegisterLiteral s.cfg.subOrder (s.getReg ra) lit)) := rfl

theorem exec_mulRegReg (ra rb : Reg) (s : State) :
    exec (.mulRegReg ra rb) s = .next (s.setReg .acc (s.getReg ra * s.getReg rb)) := rfl

theorem exec_mulLitReg (lit : Word) (ra : Reg) (s : State) :
    exec (.mulLitReg lit ra) s = .next (s.setReg .acc (lit * s.getReg ra)) := rfl

theorem exec_mulRegLit (ra : Reg) (lit : Word) (s : State) :
    exec (.mulRegLit ra lit) s = .next (s.setReg .acc (s.getReg ra * lit)) := rfl

theorem exec_incReg (rd : Reg) (s : State) : exec (.incReg rd) s = .next (s.setReg rd (s.getReg rd + 1)) := rfl

theorem exec_decReg (rd : Reg) (s : State) : exec (.decReg rd) s = .next (s.setReg rd (s.getReg rd - 1)) := rfl

/-! ## Sums, products and steps by one -/

/-- An outcome that is one register write of a word with the number `n` leaves that number there, and nothing else
changed. -/
theorem writesNumberOnly_of_eq_setReg {o : Host.Outcome State Fault Refusal} {s : State} {rd : Reg} {v : Word} {n : Nat}
    (h : o = .next (s.setReg rd v)) (hv : v.toNat = n) :
    ∃ t, o = .next t ∧ (t.getReg rd).toNat = n ∧ SameExceptRegs [rd] s t := by
  obtain ⟨t, ht, rfl, hsame⟩ := writesOnly_of_eq_setReg h
  exact ⟨t, ht, hv, hsame⟩

/-- Settles O31: each addition writes the sum of its two words to `acc`, and a sum of words wraps. -/
theorem additionsWrapIntoAcc : Obligations.AdditionsWrapIntoAcc := by
  intro s lit ra rb
  exact ⟨writesNumberOnly_of_eq_setReg (exec_addRegReg ra rb s) (BitVec.toNat_add ..),
    writesNumberOnly_of_eq_setReg (exec_addLitReg lit ra s) (BitVec.toNat_add ..),
    writesNumberOnly_of_eq_setReg (exec_addRegLit ra lit s) (BitVec.toNat_add ..)⟩

/-- Settles O33: each multiplication writes the product of its two words to `acc`, and a product of words wraps. -/
theorem multiplicationsKeepLowHalf : Obligations.MultiplicationsKeepLowHalf := by
  intro s lit ra rb
  exact ⟨writesNumberOnly_of_eq_setReg (exec_mulRegReg ra rb s) (BitVec.toNat_mul ..),
    writesNumberOnly_of_eq_setReg (exec_mulLitReg lit ra s) (BitVec.toNat_mul ..),
    writesNumberOnly_of_eq_setReg (exec_mulRegLit ra lit s) (BitVec.toNat_mul ..)⟩

/-- Settles O34: both instructions write their own register; to subtract one is to add 65535 (R88). -/
theorem incrementAndDecrementInPlace : Obligations.IncrementAndDecrementInPlace := by
  intro s rd
  have hinc : (s.getReg rd + 1).toNat = ((s.getReg rd).toNat + 1) % 65536 := BitVec.toNat_add ..
  have hdec : (s.getReg rd - 1).toNat = ((s.getReg rd).toNat + 65535) % 65536 := by
    rw [BitVec.toNat_sub, Nat.add_comm]; rfl
  exact ⟨writesNumberOnly_of_eq_setReg (exec_incReg rd s) hinc, writesNumberOnly_of_eq_setReg (exec_decReg rd s) hdec⟩

/-! ## Differences -/

/-- A difference of words is the difference of their numbers modulo 65536, also where that is negative (R76). -/
theorem word_toNat_sub (x y : Word) : ((x - y).toNat : Int) = (x.toNat - y.toNat : Int) % 65536 := by
  rw [BitVec.toNat_sub]
  omega

@[simp] theorem subLiteralRegister_mnemonic (lit x : Word) : subLiteralRegister .mnemonic lit x = lit - x := rfl
@[simp] theorem subLiteralRegister_lineage (lit x : Word) : subLiteralRegister .lineage lit x = x - lit := rfl
@[simp] theorem subRegisterLiteral_mnemonic (x lit : Word) : subRegisterLiteral .mnemonic x lit = x - lit := rfl
@[simp] theorem subRegisterLiteral_lineage (x lit : Word) : subRegisterLiteral .lineage x lit = lit - x := rfl

/-- Settles O32: each subtraction writes a difference of words to `acc`; for a literal form `SUB_ORDER` says which of
the two (R77). -/
theorem subtractionsWrapIntoAcc : Obligations.SubtractionsWrapIntoAcc := by
  intro s lit ra rb
  refine ⟨?_, ?_, ?_⟩
  · obtain ⟨t, ht, hacc, hsame⟩ := writesOnly_of_eq_setReg (exec_subRegReg ra rb s)
    exact ⟨t, ht, by rw [hacc, word_toNat_sub], hsame⟩
  · obtain ⟨t, ht, hacc, hsame⟩ := writesOnly_of_eq_setReg (exec_subLitReg lit ra s)
    exact ⟨t, ht, fun horder => by rw [hacc, horder, subLiteralRegister_mnemonic, word_toNat_sub],
      fun horder => by rw [hacc, horder, subLiteralRegister_lineage, word_toNat_sub], hsame⟩
  · obtain ⟨t, ht, hacc, hsame⟩ := writesOnly_of_eq_setReg (exec_subRegLit ra lit s)
    exact ⟨t, ht, fun horder => by rw [hacc, horder, subRegisterLiteral_mnemonic, word_toNat_sub],
      fun horder => by rw [hacc, horder, subRegisterLiteral_lineage, word_toNat_sub], hsame⟩

end Sys2Proof.Machine
end

section
/-! SUPPORT. The proofs about the Bitwise family (42_bitwise.md): the shift law with every value of `SHIFT_OVERFLOW`,
the shifts in place, completed or stopped, and the logical operations into `acc`. -/

namespace Sys2Proof.Machine

open Sys2Proof.Safety

/-! ## The shift law -/

/-- The number a shift within the width gives: to the left the product wraps (R89). -/
theorem shiftWithin_left_toNat (v : Word) (n : Nat) :
    (shiftWithin .left v n).toNat = (v.toNat * 2 ^ n) % 65536 := BitVec.toNat_ofNat ..

/-- To the right the quotient is no larger than the word, so that it does not wrap (R89). -/
theorem shiftWithin_right_toNat (v : Word) (n : Nat) : (shiftWithin .right v n).toNat = v.toNat / 2 ^ n := by
  have hfits : v.toNat / 2 ^ n < 2 ^ 16 := (Nat.div_le_self ..).trans_lt v.isLt
  exact (BitVec.toNat_ofNat ..).trans (Nat.mod_eq_of_lt hfits)

@[simp] theorem shiftWithin_zero (d : ShiftDir) (v : Word) : shiftWithin d v 0 = v := by
  cases d <;> simp [shiftWithin]

/-- `SHIFT_OVERFLOW` plays no part in a shift by less than 16 (R89). -/
theorem shiftWord_of_lt {n : Word} (h : n.toNat < 16) (o : ShiftOverflow) (d : ShiftDir) (v : Word) :
    shiftWord o d v n = .ok (shiftWithin d v n.toNat) := if_pos h

theorem shiftWord_zero_of_le {n : Word} (h : 16 ≤ n.toNat) (d : ShiftDir) (v : Word) :
    shiftWord .zero d v n = .ok 0 := if_neg h.not_gt

theorem shiftWord_modWidth_of_le {n : Word} (h : 16 ≤ n.toNat) (d : ShiftDir) (v : Word) :
    shiftWord .modWidth d v n = .ok (shiftWithin d v (n.toNat % 16)) := if_neg h.not_gt

/-- Settles O35: below 16 the two directions are arithmetic on numbers; from 16 on each value of `SHIFT_OVERFLOW` has
its own outcome, of which the amount modulo 16 is again a shift within the width. -/
theorem shiftLaw : Obligations.ShiftLaw := by
  intro o v n
  refine ⟨fun hlt => ?_, fun hle d => ⟨shiftWord_zero_of_le hle d v, ?_, ?_, fun s rd hfault => ?_⟩, fun d => ?_⟩
  · exact ⟨_, _, shiftWord_of_lt hlt o .left v, shiftWithin_left_toNat v n.toNat, shiftWord_of_lt hlt o .right v,
      shiftWithin_right_toNat v n.toNat⟩
  · have hmod : (BitVec.ofNat 16 (n.toNat % 16)).toNat = n.toNat % 16 := by
      rw [BitVec.toNat_ofNat]
      omega
    rw [shiftWord_modWidth_of_le hle, shiftWord_of_lt (by omega), hmod]
  · exact shiftWord_eq_error.2 ⟨hle, rfl, rfl⟩
  · exact shiftReg_eq_raised.2 ⟨shiftWord_eq_error.2 ⟨hle, hfault, rfl⟩, rfl⟩
  · rw [shiftWord_of_lt (by decide)]
    exact congrArg Except.ok (shiftWithin_zero d v)

/-! ## The four shifts as the one shift in place -/

theorem exec_lsfRegLit (rd : Reg) (n : Word) (s : State) :
    exec (.lsfRegLit rd n) s = (shiftReg .left rd n s).finish := rfl

theorem exec_lsfRegReg (rd rb : Reg) (s : State) :
    exec (.lsfRegReg rd rb) s = (shiftReg .left rd (s.getReg rb) s).finish := rfl

theorem exec_rsfRegLit (rd : Reg) (n : Word) (s : State) :
    exec (.rsfRegLit rd n) s = (shiftReg .right rd n s).finish := rfl

theorem exec_rsfRegReg (rd rb : Reg) (s : State) :
    exec (.rsfRegReg rd rb) s = (shiftReg .right rd (s.getReg rb) s).finish := rfl

/-- A shift answers a word unless its amount is 16 or more under `SHIFT_OVERFLOW = Fault` (R89). -/
theorem exists_shiftWord_eq_ok {o : ShiftOverflow} {n : Word} (h : n.toNat < 16 ∨ o ≠ .fault) (d : ShiftDir)
    (v : Word) : ∃ w, shiftWord o d v n = .ok w := by
  cases hshift : shiftWord o d v n with
  | ok w => exact ⟨w, rfl⟩
  | error f =>
    obtain ⟨hle, hfault, -⟩ := shiftWord_eq_error.1 hshift
    exact absurd h (not_or.2 ⟨hle.not_gt, not_not.2 hfault⟩)

/-- A shift that does not fault writes the shifted word to its register and nothing else. -/
theorem finish_shiftReg_writesOnly {s : State} {n : Word} (h : n.toNat < 16 ∨ s.cfg.shiftOverflow ≠ .fault)
    (d : ShiftDir) (rd : Reg) :
    ∃ t w, (shiftReg d rd n s).finish = .next t ∧ shiftWord s.cfg.shiftOverflow d (s.getReg rd) n = .ok w ∧
      t.getReg rd = w ∧ SameExceptRegs [rd] s t := by
  obtain ⟨w, hw⟩ := exists_shiftWord_eq_ok h d (s.getReg rd)
  obtain ⟨t, ht, hget, hsame⟩ :=
    writesOnly_of_eq_setReg (congrArg Result.finish (shiftReg_eq_ok (u := ()).2 ⟨w, hw, rfl⟩))
  exact ⟨t, w, ht, hw, hget, hsame⟩

/-- Settles O36: all four instructions are the one shift in place, by a literal or by a register's word. -/
theorem shiftsWriteFirstOperandOnly : Obligations.ShiftsWriteFirstOperandOnly := by
  intro s n rd rb
  rw [exec_lsfRegLit, exec_rsfRegLit, exec_lsfRegReg, exec_rsfRegReg]
  exact ⟨fun h => ⟨finish_shiftReg_writesOnly h .left rd, finish_shiftReg_writesOnly h .right rd⟩,
    fun h => ⟨finish_shiftReg_writesOnly h .left rd, finish_shiftReg_writesOnly h .right rd⟩⟩

/-- A shift that faults leaves the state as it was to the fault entry (R89, R136). -/
theorem finish_shiftReg_of_fault {s : State} {n : Word} (hfault : s.cfg.shiftOverflow = .fault) (hle : 16 ≤ n.toNat)
    (d : ShiftDir) (rd : Reg) : (shiftReg d rd n s).finish = .next (s.takeFault (.shiftOutOfRange n)) :=
  congrArg Result.finish (shiftReg_eq_raised.2 ⟨shiftWord_eq_error.2 ⟨hle, hfault, rfl⟩, rfl⟩)

/-- Settles O37: the fault is raised by the one shift in place, which all four instructions are. -/
theorem overlongShiftFaultsBeforeWrite : Obligations.OverlongShiftFaultsBeforeWrite := by
  intro s n rd rb hfault
  rw [exec_lsfRegLit, exec_rsfRegLit, exec_lsfRegReg, exec_rsfRegReg]
  exact ⟨fun h => ⟨finish_shiftReg_of_fault hfault h .left rd, finish_shiftReg_of_fault hfault h .right rd⟩,
    fun h => ⟨finish_shiftReg_of_fault hfault h .left rd, finish_shiftReg_of_fault hfault h .right rd⟩⟩

/-! ## The logical operations as one register write -/

theorem exec_andRegLit (ra : Reg) (lit : Word) (s : State) :
    exec (.andRegLit ra lit) s = .next (s.setReg .acc (s.getReg ra &&& lit)) := rfl

theorem exec_andRegReg (ra rb : Reg) (s : State) :
    exec (.andRegReg ra rb) s = .next (s.setReg .acc (s.getReg ra &&& s.getReg rb)) := rfl

theorem exec_orRegLit (ra : Reg) (lit : Word) (s : State) :
    exec (.orRegLit ra lit) s = .next (s.setReg .acc (s.getReg ra ||| lit)) := rfl

theorem exec_orRegReg (ra rb : Reg) (s : State) :
    exec (.orRegReg ra rb) s = .next (s.setReg .acc (s.getReg ra ||| s.getReg rb)) := rfl

theorem exec_xorRegLit (ra : Reg) (lit : Word) (s : State) :
    exec (.xorRegLit ra lit) s = .next (s.setReg .acc (s.getReg ra ^^^ lit)) := rfl

theorem exec_xorRegReg (ra rb : Reg) (s : State) :
    exec (.xorRegReg ra rb) s = .next (s.setReg .acc (s.getReg ra ^^^ s.getReg rb)) := rfl

theorem exec_notReg (ra : Reg) (s : State) : exec (.notReg ra) s = .next (s.setReg .acc (~~~ s.getReg ra)) := rfl

/-- An outcome that is one register write of a word with the bits `b` leaves those bits there, and nothing else
changed. -/
theorem writesBitsOnly_of_eq_setReg {o : Host.Outcome State Fault Refusal} {s : State} {rd : Reg} {v : Word}
    {b : Nat → Bool} (h : o = .next (s.setReg rd v)) (hv : ∀ j < 16, v.getLsbD j = b j) :
    ∃ t, o = .next t ∧ (∀ j < 16, (t.getReg rd).getLsbD j = b j) ∧ SameExceptRegs [rd] s t := by
  obtain ⟨t, ht, rfl, hsame⟩ := writesOnly_of_eq_setReg h
  exact ⟨t, ht, hv, hsame⟩

/-- A bit of a complement is the complement of the bit, inside the width of a word. -/
theorem word_getLsbD_not (v : Word) {j : Nat} (h : j < 16) : (~~~ v).getLsbD j = !v.getLsbD j := by
  rw [BitVec.getLsbD_not, decide_eq_true h, Bool.true_and]

/-- Settles O38: each instruction writes one logical operation on words to `acc`, and that operation acts on each bit
alone. -/
theorem logicalOperationsIntoAcc : Obligations.LogicalOperationsIntoAcc := by
  intro s lit ra rb
  exact ⟨writesBitsOnly_of_eq_setReg (exec_andRegLit ra lit s) fun _ _ => BitVec.getLsbD_and,
    writesBitsOnly_of_eq_setReg (exec_andRegReg ra rb s) fun _ _ => BitVec.getLsbD_and,
    writesBitsOnly_of_eq_setReg (exec_orRegLit ra lit s) fun _ _ => BitVec.getLsbD_or,
    writesBitsOnly_of_eq_setReg (exec_orRegReg ra rb s) fun _ _ => BitVec.getLsbD_or,
    writesBitsOnly_of_eq_setReg (exec_xorRegLit ra lit s) fun _ _ => BitVec.getLsbD_xor,
    writesBitsOnly_of_eq_setReg (exec_xorRegReg ra rb s) fun _ _ => BitVec.getLsbD_xor,
    writesBitsOnly_of_eq_setReg (exec_notReg ra s) fun _ hj => word_getLsbD_not _ hj⟩

end Sys2Proof.Machine
end

section
/-! SUPPORT. The proofs about the Branch family (43_branch.md): the condition of a branch as a comparison of numbers,
and the one branch that all twelve instructions are. -/

namespace Sys2Proof.Machine

open Sys2Proof.Safety

/-! ## The twelve instructions as the one branch -/

theorem exec_jmpNotEq (lit addr : Word) (s : State) :
    exec (.jmpNotEq lit addr) s = .next (branch .ne lit addr s) := rfl

theorem exec_jneReg (ra : Reg) (addr : Word) (s : State) :
    exec (.jneReg ra addr) s = .next (branch .ne (s.getReg ra) addr s) := rfl

theorem exec_jeqLit (lit addr : Word) (s : State) :
    exec (.jeqLit lit addr) s = .next (branch .eq lit addr s) := rfl

theorem exec_jeqReg (ra : Reg) (addr : Word) (s : State) :
    exec (.jeqReg ra addr) s = .next (branch .eq (s.getReg ra) addr s) := rfl

theorem exec_jltLit (lit addr : Word) (s : State) :
    exec (.jltLit lit addr) s = .next (branch .lt lit addr s) := rfl

theorem exec_jltReg (ra : Reg) (addr : Word) (s : State) :
    exec (.jltReg ra addr) s = .next (branch .lt (s.getReg ra) addr s) := rfl

theorem exec_jgtLit (lit addr : Word) (s : State) :
    exec (.jgtLit lit addr) s = .next (branch .gt lit addr s) := rfl

theorem exec_jgtReg (ra : Reg) (addr : Word) (s : State) :
    exec (.jgtReg ra addr) s = .next (branch .gt (s.getReg ra) addr s) := rfl

theorem exec_jleLit (lit addr : Word) (s : State) :
    exec (.jleLit lit addr) s = .next (branch .le lit addr s) := rfl

theorem exec_jleReg (ra : Reg) (addr : Word) (s : State) :
    exec (.jleReg ra addr) s = .next (branch .le (s.getReg ra) addr s) := rfl

theorem exec_jgeLit (lit addr : Word) (s : State) :
    exec (.jgeLit lit addr) s = .next (branch .ge lit addr s) := rfl

theorem exec_jgeReg (ra : Reg) (addr : Word) (s : State) :
    exec (.jgeReg ra addr) s = .next (branch .ge (s.getReg ra) addr s) := rfl

/-! ## The condition -/

theorem relationHolds_ne_iff (a b : Word) : relationHolds .ne a b = true ↔ a ≠ b := bne_iff_ne
theorem relationHolds_eq_iff (a b : Word) : relationHolds .eq a b = true ↔ a = b := beq_iff_eq
theorem relationHolds_lt_iff (a b : Word) : relationHolds .lt a b = true ↔ a.toNat < b.toNat := decide_eq_true_iff
theorem relationHolds_gt_iff (a b : Word) : relationHolds .gt a b = true ↔ a.toNat > b.toNat := decide_eq_true_iff
theorem relationHolds_le_iff (a b : Word) : relationHolds .le a b = true ↔ a.toNat ≤ b.toNat := decide_eq_true_iff
theorem relationHolds_ge_iff (a b : Word) : relationHolds .ge a b = true ↔ a.toNat ≥ b.toNat := decide_eq_true_iff

theorem relationHolds_ne_comm (a b : Word) : relationHolds .ne a b = relationHolds .ne b a := bne_comm
theorem relationHolds_eq_comm (a b : Word) : relationHolds .eq a b = relationHolds .eq b a := BEq.comm

theorem branchCondition_of_accFirst {s : State} (h : s.cfg.cmpOrder = .accFirst) (op : Relation) (v : Word) :
    branchCondition op v s = relationHolds op (s.getReg .acc) v := by
  simp only [branchCondition, h]

theorem branchCondition_of_valueFirst {s : State} (h : s.cfg.cmpOrder = .valueFirst) (op : Relation) (v : Word) :
    branchCondition op v s = relationHolds op v (s.getReg .acc) := by
  simp only [branchCondition, h]

/-- For a symmetric relation `CMP_ORDER` plays no part (R102). -/
theorem branchCondition_of_symm {op : Relation} (hsymm : ∀ a b, relationHolds op a b = relationHolds op b a) (v : Word)
    (s : State) : branchCondition op v s = relationHolds op (s.getReg .acc) v := by
  cases horder : s.cfg.cmpOrder with
  | accFirst => exact branchCondition_of_accFirst horder op v
  | valueFirst => exact (branchCondition_of_valueFirst horder op v).trans (hsymm ..)

theorem branchCondition_ne_iff (v : Word) (s : State) : branchCondition .ne v s = true ↔ s.getReg .acc ≠ v := by
  rw [branchCondition_of_symm relationHolds_ne_comm, relationHolds_ne_iff]

theorem branchCondition_eq_iff (v : Word) (s : State) : branchCondition .eq v s = true ↔ s.getReg .acc = v := by
  rw [branchCondition_of_symm relationHolds_eq_comm, relationHolds_eq_iff]

/-- A relation that compares words by their numbers is met by `acc` and the comparand in the order of `CMP_ORDER`
(R102). -/
theorem branchCondition_iff_ordered {op : Relation} {rel : Nat → Nat → Prop}
    (hrel : ∀ a b, relationHolds op a b = true ↔ rel a.toNat b.toNat) (v : Word) (s : State) :
    branchCondition op v s = true ↔ Ordered s.cfg.cmpOrder rel (s.getReg .acc) v := by
  cases horder : s.cfg.cmpOrder with
  | accFirst => rw [branchCondition_of_accFirst horder]; exact hrel ..
  | valueFirst => rw [branchCondition_of_valueFirst horder]; exact hrel ..

/-! ## The jump -/

theorem branch_of_taken {op : Relation} {v : Word} {s : State} (h : branchCondition op v s = true) (addr : Word) :
    branch op v addr s = s.setReg .ip addr := if_pos h

theorem branch_of_not_taken {op : Relation} {v : Word} {s : State} (h : ¬ branchCondition op v s = true)
    (addr : Word) : branch op v addr s = s := if_neg h

theorem sameExceptRegs_refl (rs : List Reg) (s : State) : SameExceptRegs rs s s :=
  ⟨fun _ _ => rfl, rfl, rfl, rfl, rfl, rfl, rfl, fun _ => rfl⟩

/-- An outcome that is one branch whose condition is `c` jumps exactly if `c` holds. -/
theorem jumpsIf_of_eq_branch {o : Host.Outcome State Fault Refusal} {op : Relation} {v addr : Word} {s : State}
    {c : Prop} (h : o = .next (branch op v addr s)) (hc : branchCondition op v s = true ↔ c) :
    ∃ t, o = .next t ∧ JumpsIf c addr s t := by
  refine ⟨_, h, ?_⟩
  by_cases htaken : branchCondition op v s = true
  · rw [branch_of_taken htaken]
    exact ⟨fun _ => State.getReg_setReg_same s .ip addr, fun hnot => absurd (hc.1 htaken) hnot,
      sameExceptRegs_setReg s .ip addr⟩
  · rw [branch_of_not_taken htaken]
    exact ⟨fun hholds => absurd (hc.2 hholds) htaken, fun _ => rfl, sameExceptRegs_refl [.ip] s⟩

/-- Settles O39: equality and its negation are symmetric, so that the condition is the same under both values of
`CMP_ORDER`. -/
theorem equalityBranchesJumpOnCondition : Obligations.EqualityBranchesJumpOnCondition := by
  intro s lit addr ra
  exact ⟨jumpsIf_of_eq_branch (exec_jmpNotEq lit addr s) (branchCondition_ne_iff lit s),
    jumpsIf_of_eq_branch (exec_jneReg ra addr s) (branchCondition_ne_iff (s.getReg ra) s),
    jumpsIf_of_eq_branch (exec_jeqLit lit addr s) (branchCondition_eq_iff lit s),
    jumpsIf_of_eq_branch (exec_jeqReg ra addr s) (branchCondition_eq_iff (s.getReg ra) s)⟩

/-- Settles O40: each relation compares words by their numbers, and the condition takes its operands in the order of
`CMP_ORDER`. -/
theorem orderedBranchesJumpOnCondition : Obligations.OrderedBranchesJumpOnCondition := by
  intro s lit addr ra holds
  have hlt (v : Word) := branchCondition_iff_ordered relationHolds_lt_iff v s
  have hgt (v : Word) := branchCondition_iff_ordered relationHolds_gt_iff v s
  have hle (v : Word) := branchCondition_iff_ordered relationHolds_le_iff v s
  have hge (v : Word) := branchCondition_iff_ordered relationHolds_ge_iff v s
  exact ⟨jumpsIf_of_eq_branch (exec_jltLit lit addr s) (hlt lit),
    jumpsIf_of_eq_branch (exec_jltReg ra addr s) (hlt (s.getReg ra)),
    jumpsIf_of_eq_branch (exec_jgtLit lit addr s) (hgt lit),
    jumpsIf_of_eq_branch (exec_jgtReg ra addr s) (hgt (s.getReg ra)),
    jumpsIf_of_eq_branch (exec_jleLit lit addr s) (hle lit),
    jumpsIf_of_eq_branch (exec_jleReg ra addr s) (hle (s.getReg ra)),
    jumpsIf_of_eq_branch (exec_jgeLit lit addr s) (hge lit),
    jumpsIf_of_eq_branch (exec_jgeReg ra addr s) (hge (s.getReg ra))⟩

end Sys2Proof.Machine
end

section
/-! SUPPORT. The proofs about the stack (44_stack.md): a push and a pop as instructions, completed or stopped by the
checks of R34, and runs of pops that undo runs of pushes. -/

namespace Sys2Proof.Machine

open Sys2Proof.Safety

/-! ## The three instructions as the two primitives -/

theorem exec_pshLit (lit : Word) (s : State) : exec (.pshLit lit) s = (push lit s).finish := rfl

theorem exec_pshReg (ra : Reg) (s : State) : exec (.pshReg ra) s = (push (s.getReg ra) s).finish := rfl

theorem exec_pop (rd : Reg) (s : State) :
    exec (.pop rd) s = ((pop s).andThen fun w s => .ok () (s.setReg rd w)).finish := rfl

/-! ## Runs of pops -/

/-- Pops of readable words answer them in the order of their addresses, and move `sp` and `fs` by 2 a word (R117). -/
theorem popWords_ok {ws : List Word} {s : State}
    (h : ∀ j v, ws[j]? = some v → s.wordRead (wordAbove (s.getReg .sp) j) = .ok v) :
    ∃ t, popWords ws.length s = .ok ws t ∧ t.getReg .sp = s.getReg .sp + BitVec.ofNat 16 (2 * ws.length) ∧
      t.fs = s.fs - BitVec.ofNat 16 (2 * ws.length) := by
  induction ws generalizing s with
  | nil => exact ⟨s, rfl, by simp, by simp⟩
  | cons v ws ih =>
    have htop : s.wordRead (s.getReg .sp + 2) = .ok v := h 0 v rfl
    obtain ⟨s1, hpop, hsp1, hfs1, hread1⟩ : ∃ s1, pop s = .ok v s1 ∧
        s1.getReg .sp = s.getReg .sp + BitVec.ofNat 16 (2 * 1) ∧ s1.fs = s.fs - BitVec.ofNat 16 (2 * 1) ∧
        ∀ a, s1.wordRead a = s.wordRead a :=
      ⟨_, pop_eq_ok.2 ⟨htop, rfl⟩, State.getReg_setReg_same s .sp _, rfl, fun _ => by simp⟩
    obtain ⟨t, hrest, hsp, hfs⟩ := ih (s := s1) fun j w hw => by
      rw [hread1, hsp1, wordAbove_add, Nat.add_comm]
      exact h (j + 1) w hw
    have hdouble : BitVec.ofNat 16 (2 * (ws.length + 1)) =
        BitVec.ofNat 16 (2 * 1) + BitVec.ofNat 16 (2 * ws.length) := by
      rw [← BitVec.ofNat_add, Nat.mul_add, Nat.add_comm]
    refine ⟨t, by simp only [List.length_cons, popWords, hpop, hrest, Result.andThen_ok], ?_, ?_⟩
    · rw [hsp, hsp1, List.length_cons, hdouble, BitVec.add_assoc]
    · rw [hfs, hfs1, List.length_cons, hdouble]
      bv_omega

/-- Above the slot that follows `i + j + 1` pushed words, the `j`-th word up stands in slot `i`. -/
theorem wordAbove_frameSlot (s : State) (i j : Nat) : wordAbove (frameSlot s (i + j + 1)) j = frameSlot s i := by
  rw [wordAbove, frameSlot, frameSlot, show 2 * (i + j + 1) = 2 * i + 2 * (j + 1) by omega, BitVec.ofNat_add]
  bv_omega

/-- Settles O45: the pushes leave word `i` in slot `i`, and the pops read the slots from the last one back. -/
theorem popsReturnPushedWordsInReverse : Obligations.PopsReturnPushedWordsInReverse := by
  intro words s hm hlen hstorage
  obtain ⟨t, hpush, hstored, -⟩ := pushWords_storage hm hlen hstorage
  obtain ⟨hsp, hfs, -⟩ := pushWords_ok hpush
  have hreadable : ∀ j v, words.reverse[j]? = some v → t.wordRead (wordAbove (t.getReg .sp) j) = .ok v := by
    intro j v hv
    have hj : j < words.length := by simpa using (List.getElem?_eq_some_iff.1 hv).1
    have hslot : words.length = words.length - 1 - j + j + 1 := by omega
    rw [hsp, hslot, wordAbove_frameSlot]
    exact hstored _ v (by rwa [List.getElem?_reverse hj] at hv)
  obtain ⟨u, hpop, hspu, hfsu⟩ := popWords_ok hreadable
  rw [List.length_reverse] at hpop hspu hfsu
  refine ⟨t, u, hpush, hpop, ?_, ?_⟩
  · rw [hspu, hsp, frameSlot, BitVec.sub_add_cancel]
  · rw [hfsu, hfs, BitVec.add_sub_cancel]

/-! ## One push, one pop -/

/-- Settles O41: both instructions are the one push, of a literal or of the register as it was before. -/
theorem pushesStoreOneWord : Obligations.PushesStoreOneWord := by
  intro s lit ra hm hstorage
  have hpush (v : Word) : ∃ t, (push v s).finish = .next t ∧ t.wordRead (s.getReg .sp) = .ok v ∧
      t.getReg .sp = s.getReg .sp - 2 ∧ t.fs = s.fs + 2 ∧ SameExceptWord [.sp] (s.getReg .sp) s t := by
    obtain ⟨t, hok, hread, hsp, hfs, hsame, -⟩ := push_storage v hm hstorage
    exact ⟨t, congrArg Result.finish hok, hread, hsp, hfs, hsame⟩
  rw [exec_pshLit, exec_pshReg]
  exact ⟨hpush lit, hpush (s.getReg ra)⟩

/-- POP of a readable word: the pop moves `sp` and `fs`, and the destination is written after it (R121). -/
theorem exec_pop_of_readable {s : State} {w : Word} (h : s.wordRead (s.getReg .sp + 2) = .ok w) (rd : Reg) :
    exec (.pop rd) s = .next (((s.setReg .sp (s.getReg .sp + 2)).setFs (s.fs - 2)).setReg rd w) := by
  rw [exec_pop, pop_eq_ok.2 ⟨h, rfl⟩, Result.andThen_ok, Result.finish_ok]

/-- Settles O43: the destination's write comes last, so that it is what `POP sp` leaves in `sp`. -/
theorem popLoadsTopWord : Obligations.PopLoadsTopWord := by
  intro s rd w hread
  refine ⟨_, exec_pop_of_readable hread rd, State.getReg_setReg_same .., fun hrd => ?_, rfl, fun r hr => ?_, rfl, rfl,
    rfl, rfl, rfl, State.byteRead_congr rfl rfl⟩
  · rw [State.getReg_setReg_other _ _ hrd.symm, State.setFs_getReg, State.getReg_setReg_same]
  · simp only [List.mem_cons, List.not_mem_nil, or_false, not_or] at hr
    obtain ⟨hrd, hsp⟩ := hr
    rw [State.getReg_setReg_other _ _ hrd, State.setFs_getReg, State.getReg_setReg_other _ _ hsp]

/-- Settles O44: a stopped write leaves the state before the push, a stopped read the state with `sp` raised. -/
theorem faultingPushAndPop : Obligations.FaultingPushAndPop := by
  intro s lit ra rd f
  rw [exec_pshLit, exec_pshReg, exec_pop]
  refine ⟨fun h => ?_, fun h => ?_⟩
  · have hpush (v : Word) : push v s = .raised f s := push_eq_raised.2 ⟨State.wordWrite_of_faults h v, rfl⟩
    exact ⟨congrArg Result.finish (hpush lit), congrArg Result.finish (hpush (s.getReg ra))⟩
  · rw [pop_eq_raised.2 ⟨State.wordRead_of_faults h, rfl⟩, Result.andThen_raised, Result.finish_raised]

end Sys2Proof.Machine
end

section
/-! SUPPORT. The proofs about the Subroutine family (45_subroutine.md): the frame that a call onto storage opens, the
run of pops that a return is, completed or stopped, and the two together. -/

namespace Sys2Proof.Machine

open Sys2Proof.Safety

/-! ## The three instructions as calls and returns -/

theorem exec_calLit (addr : Word) (s : State) : exec (.calLit addr) s = (callTo addr s).finish := rfl

theorem exec_calReg (ra : Reg) (s : State) : exec (.calReg ra) s = (callTo (s.getReg ra) s).finish := rfl

theorem exec_ret (s : State) : exec .ret s = (popState s).finish := rfl

/-! ## A call onto storage -/

/-- A call leaves `sp` and `fp` ten words down, and above them the last word pushed is the first (R122, R124). -/
theorem wordAbove_frame {s : State} {i j : Nat} (hij : i + j + 1 = 10) :
    wordAbove (s.getReg .sp - 20) j = frameSlot s i := by
  rw [← wordAbove_frameSlot s i j, hij]
  rfl

/-- The word above the caller's `sp` shares no byte with the ten slots of a call (R122). -/
theorem wordAbove_sp_apart (s : State) {j : Nat} (hj : j < 10) :
    wordAbove (s.getReg .sp) 0 ≠ frameSlot s j ∧ wordAbove (s.getReg .sp) 0 ≠ frameSlot s j + 1 ∧
      frameSlot s j ≠ wordAbove (s.getReg .sp) 0 + 1 := by
  simp only [wordAbove_zero, frameSlot]
  generalize s.getReg .sp = a
  refine ⟨?_, ?_, ?_⟩ <;> bv_omega

/-- A call whose ten words fall in storage sets the registers, leaves the ten words above the new `fp` in the reverse
of the order in which they were pushed, and changes no byte and no word outside the slots (R122, R124). -/
theorem callTo_storage {s : State} (hm : Memory.wf s.mem) (hstorage : ∀ j < 10, WordInStorage s (frameSlot s j))
    (target : Word) :
    ∃ t, callTo target s = .ok () t ∧ CallRegisters s target t ∧
      (∀ (j : Nat) v, (callWords s).reverse[j]? = some v → t.wordRead (wordAbove (t.getReg .fp) j) = .ok v) ∧
      t.out = s.out ∧
      (∀ b, (∀ j < 10, b ≠ frameSlot s j ∧ b ≠ frameSlot s j + 1) → t.byteRead b = s.byteRead b) ∧
      ∀ b, (∀ j < 10, b ≠ frameSlot s j ∧ b ≠ frameSlot s j + 1 ∧ frameSlot s j ≠ b + 1) →
        t.wordRead b = s.wordRead b := by
  obtain ⟨u, hpush, hstored, hout, -, hbytes, hwords⟩ :=
    pushWords_storage (ws := callWords s) hm (by rw [callWords_length]; decide) hstorage
  have hregs : CallRegisters s target (u.openFrame target) := callRegisters_of_pushed hpush target
  have hbyte (a : Word) : (u.openFrame target).byteRead a = u.byteRead a := State.byteRead_congr rfl rfl a
  have hword (a : Word) : (u.openFrame target).wordRead a = u.wordRead a := State.wordRead_congr rfl rfl a
  refine ⟨_, callTo_of_pushed hpush target, hregs, fun j v hv => ?_, hout, fun b hb => (hbyte b).trans (hbytes b hb),
    fun b hb => (hword b).trans (hwords b hb)⟩
  obtain ⟨-, -, hfp, -⟩ := hregs
  have hj : j < (callWords s).length := by simpa using (List.getElem?_eq_some_iff.1 hv).1
  rw [List.getElem?_reverse hj] at hv
  rw [callWords_length] at hj hv
  rw [hword, hfp, wordAbove_frame (i := 10 - 1 - j) (by omega)]
  exact hstored _ v hv

/-- The frame of R124 from the ten words above the new `fp`. -/
theorem callTo_opensFrame {s : State} (hm : Memory.wf s.mem) (hstorage : ∀ j < 10, WordInStorage s (frameSlot s j))
    (target : Word) : ∃ t, (callTo target s).finish = .next t ∧ FrameOpened s target t := by
  obtain ⟨t, hcall, hregs, hframe, hout, hbytes, -⟩ := callTo_storage hm hstorage target
  exact ⟨t, congrArg Result.finish hcall, hregs, hframe 0 _ rfl, hframe 1 _ rfl, hframe 2 _ rfl, hframe 3 _ rfl,
    hframe 4 _ rfl, hframe 5 _ rfl, hframe 6 _ rfl, hframe 7 _ rfl, hframe 8 _ rfl, hframe 9 _ rfl, hout, hbytes⟩

/-- Settles O46: both instructions are the one call, to a literal or to the register as it was before. -/
theorem callsOpenFrame : Obligations.CallsOpenFrame := by
  intro s addr ra hm hstorage
  exact ⟨callTo_opensFrame hm hstorage addr, callTo_opensFrame hm hstorage (s.getReg ra)⟩

/-! ## The pops of a return -/

/-- The state `t` that the first `k` pops of a return from `s` reach, the words above `fp` being `w`: the size of the
frame, then the words of `frameRegs.reverse`, then words that go to no register (R123). -/
structure PoppedFrame (s : State) (w : Nat → Word) (k : Nat) (t : State) : Prop where
  sp : t.getReg .sp = s.getReg .fp + BitVec.ofNat 16 (2 * k)
  fs : t.fs = if k = 0 then s.fs else w 0 - BitVec.ofNat 16 (2 * (k - 1))
  reg : ∀ (i : Nat) r, frameRegs.reverse[i]? = some r → t.getReg r = if i + 1 < k then w (i + 1) else s.getReg r
  fp : t.getReg .fp = s.getReg .fp
  acc : t.getReg .acc = s.getReg .acc
  same : SameButRegsAndFs s t

/-- The registers of a frame do not hold the stack pointers or the accumulator (R122). -/
theorem frameReg_ne {i : Nat} {r : Reg} (hr : frameRegs.reverse[i]? = some r) : r ≠ .sp ∧ r ≠ .fp ∧ r ≠ .acc := by
  have hmem : r ∈ frameRegs.reverse := List.mem_of_getElem? hr
  refine ⟨?_, ?_, ?_⟩ <;> rintro rfl <;> exact absurd hmem (by decide)

/-- A return pops from `fp` upwards (R123). -/
theorem poppedFrame_zero (s : State) (w : Nat → Word) : PoppedFrame s w 0 (s.setReg .sp (s.getReg .fp)) where
  sp := by simp
  fs := rfl
  reg i r hr := State.getReg_setReg_other s _ (frameReg_ne hr).1
  fp := rfl
  acc := rfl
  same := ⟨rfl, rfl, rfl, rfl, rfl, rfl⟩

namespace PoppedFrame

variable {s t : State} {w : Nat → Word} {k : Nat}

/-- The next word to pop is the `k`-th above `fp`. -/
theorem sp_add_two (h : PoppedFrame s w k t) : t.getReg .sp + 2 = wordAbove (s.getReg .fp) k := by
  rw [h.sp, ← wordAbove_zero, wordAbove_add, Nat.add_zero]

theorem fs_of_pos (h : PoppedFrame s w k t) (hk : 0 < k) : t.fs = w 0 - BitVec.ofNat 16 (2 * (k - 1)) := by
  rw [h.fs, if_neg (by omega)]

theorem reg_restored (h : PoppedFrame s w k t) (hk : 10 ≤ k) {i : Nat} {r : Reg}
    (hr : frameRegs.reverse[i]? = some r) : t.getReg r = w (i + 1) := by
  have hi : i < 9 := (List.getElem?_eq_some_iff.1 hr).1
  rw [h.reg i r hr, if_pos (by omega)]

/-- The next pop, where its word cannot be read. -/
theorem pop_raises (h : PoppedFrame s w k t) {f : Fault} (hf : WordFaults s (wordAbove (s.getReg .fp) k) f) :
    pop t = .raised f (t.setReg .sp (wordAbove (s.getReg .fp) k)) := by
  refine pop_eq_raised.2 ?_
  rw [h.sp_add_two, h.same.wordRead]
  exact ⟨State.wordRead_of_faults hf, rfl⟩

/-- The next pop, where its word can be read. -/
theorem pop_ok (h : PoppedFrame s w k t) {v : Word} (hv : s.wordRead (wordAbove (s.getReg .fp) k) = .ok v) :
    pop t = .ok v ((t.setReg .sp (s.getReg .fp + BitVec.ofNat 16 (2 * (k + 1)))).setFs (t.fs - 2)) := by
  refine pop_eq_ok.2 ?_
  rw [h.sp_add_two, h.same.wordRead]
  exact ⟨hv, rfl⟩

/-- The first pop gives the frame size, which overwrites what the pop left in `fs` (R123). -/
theorem pop_size (h : PoppedFrame s w 0 t) (hw : s.wordRead (wordAbove (s.getReg .fp) 0) = .ok (w 0)) :
    ∃ u, pop t = .ok (w 0) u ∧ PoppedFrame s w 1 (u.setFs (w 0)) := by
  refine ⟨_, h.pop_ok hw, State.getReg_setReg_same t .sp _, ?_, fun i r hr => ?_, h.fp, h.acc, h.same⟩
  · simp
  · rw [State.setFs_getReg, State.setFs_getReg, State.getReg_setReg_other _ _ (frameReg_ne hr).1, h.reg i r hr]
    simp

/-- The pops into the first `n` registers of the frame (R123). -/
theorem popRegs_take (h : PoppedFrame s w 1 t) {n : Nat} (hn : n ≤ 9)
    (hw : ∀ i < n, s.wordRead (wordAbove (s.getReg .fp) (i + 1)) = .ok (w (i + 1))) :
    ∃ u, popRegs (frameRegs.reverse.take n) t = .ok () u ∧ PoppedFrame s w (n + 1) u := by
  have hlen : (frameRegs.reverse.take n).length = n := List.length_take_of_le hn
  have hnodup : frameRegs.reverse.Nodup := by decide
  have hother : ∀ r ∉ frameRegs, r ∉ frameRegs.reverse.take n := fun r hr hmem =>
    hr (List.mem_reverse.1 (List.mem_of_mem_take hmem))
  obtain ⟨u, hpop, hsp, hfs, hin, hout, hsame⟩ := popRegs_ok (s := t) (w := fun i => w (i + 1))
    (hother .sp (by decide)) (hnodup.sublist (List.take_sublist n _)) fun i hi => by
      rw [h.sp, wordAbove_add, h.same.wordRead, Nat.add_comm]
      exact hw i (hlen ▸ hi)
  rw [hlen] at hsp hfs
  refine ⟨u, hpop, ?_, ?_, fun i r hr => ?_, ?_, ?_, h.same.trans hsame⟩
  · rw [hsp, h.sp, BitVec.add_assoc, ← BitVec.ofNat_add, ← Nat.mul_add, Nat.add_comm 1]
  · simpa [h.fs] using hfs
  · obtain ⟨hsp, -⟩ := frameReg_ne hr
    by_cases hi : i < n
    · rw [if_pos (by omega)]
      exact hin i r ((List.getElem?_take_of_lt hi).trans hr)
    · have hlater : r ∉ frameRegs.reverse.take n := fun hmem => by
        obtain ⟨j, hj, hjr⟩ := List.mem_take_iff_getElem.1 hmem
        have hij : i = j := (List.getElem?_inj (List.getElem?_eq_some_iff.1 hr).1 hnodup).1
          (hr.trans (List.getElem?_eq_some_iff.2 ⟨_, hjr⟩).symm)
        omega
      rw [if_neg (by omega), hout r hlater hsp, h.reg i r hr, if_neg (by omega)]
  · rw [hout .fp (hother .fp (by decide)) (by decide), h.fp]
  · rw [hout .acc (hother .acc (by decide)) (by decide), h.acc]

/-- A pop past the registers, of the argument count or of an argument (R123). -/
theorem pop_past_regs (h : PoppedFrame s w k t) (hk : 10 ≤ k) {v : Word}
    (hv : s.wordRead (wordAbove (s.getReg .fp) k) = .ok v) : ∃ u, pop t = .ok v u ∧ PoppedFrame s w (k + 1) u := by
  refine ⟨_, h.pop_ok hv, State.getReg_setReg_same t .sp _, ?_, fun i r hr => ?_, h.fp, h.acc, h.same⟩
  · have hdouble : 2 * (k + 1 - 1) = 2 * (k - 1) + 2 := by omega
    rw [State.setFs_fs, h.fs_of_pos (by omega), if_neg (Nat.succ_ne_zero k), hdouble, BitVec.ofNat_add]
    bv_omega
  · have hi : i < 9 := (List.getElem?_eq_some_iff.1 hr).1
    rw [State.setFs_getReg, State.getReg_setReg_other _ _ (frameReg_ne hr).1, h.reg_restored hk hr,
      if_pos (by omega)]

/-- The pops of `n` arguments (R123). -/
theorem popDiscard_args (h : PoppedFrame s w k t) (hk : 10 ≤ k) {n : Nat}
    (hv : ∀ i < n, ∃ x, s.wordRead (wordAbove (s.getReg .fp) (k + i)) = .ok x) :
    ∃ u, popDiscard n t = .ok () u ∧ PoppedFrame s w (k + n) u := by
  induction n generalizing k t with
  | zero => exact ⟨t, rfl, h⟩
  | succ n ih =>
    obtain ⟨x, hx⟩ := hv 0 (Nat.succ_pos n)
    obtain ⟨t1, hpop, h1⟩ := h.pop_past_regs hk hx
    have hk1 (i : Nat) : k + 1 + i = k + (i + 1) := by omega
    obtain ⟨u, hrest, hu⟩ := ih h1 (by omega) fun i hi => by
      rw [hk1]
      exact hv (i + 1) (by omega)
    exact ⟨u, by simp only [popDiscard, hpop, Result.andThen_ok, hrest], hk1 n ▸ hu⟩

end PoppedFrame

/-! ## A return, completed or stopped -/

/-- Pops into registers of which one cannot read raise there, after the pops before it. -/
theorem popRegs_raises {rs : List Reg} {s u v : State} {n : Nat} {f : Fault} (hn : n < rs.length)
    (hbefore : popRegs (rs.take n) s = .ok () u) (hf : pop u = .raised f v) : popRegs rs s = .raised f v := by
  have hcut : rs = rs.take n ++ rs[n] :: rs.drop (n + 1) := by rw [List.getElem_cons_drop hn, List.take_append_drop]
  rw [hcut, popRegs_append, hbefore, Result.andThen_ok, popRegs, hf, Result.andThen_raised]

/-- Discarding pops of which one cannot read raise there, after the pops before it. -/
theorem popDiscard_raises {s u v : State} {m n : Nat} {f : Fault} (hn : n < m) (hbefore : popDiscard n s = .ok () u)
    (hf : pop u = .raised f v) : popDiscard m s = .raised f v := by
  obtain ⟨m, rfl⟩ := Nat.exists_eq_add_of_lt hn
  rw [Nat.add_assoc, popDiscard_add, hbefore, Result.andThen_ok, popDiscard, hf, Result.andThen_raised]

section
variable {s s1 s2 s3 : State} {size n : Word}

/-- A return whose first pop completes goes on with the registers. -/
theorem popState_of_size (hsize : pop (s.setReg .sp (s.getReg .fp)) = .ok size s1) :
    popState s = (popRegs frameRegs.reverse (s1.setFs size)).andThen fun _ t => (pop t).andThen fun n t =>
      (popDiscard n.toNat t).andThen fun _ t => .ok () (t.setReg .fp (s.getReg .fp + size)) := by
  simp only [popState, hsize, Result.andThen_ok]

/-- Where the pops into registers complete too, it goes on with the argument count. -/
theorem popState_of_regs (hsize : pop (s.setReg .sp (s.getReg .fp)) = .ok size s1)
    (hregs : popRegs frameRegs.reverse (s1.setFs size) = .ok () s2) :
    popState s = (pop s2).andThen fun n t =>
      (popDiscard n.toNat t).andThen fun _ t => .ok () (t.setReg .fp (s.getReg .fp + size)) := by
  rw [popState_of_size hsize, hregs, Result.andThen_ok]

/-- Where the pop of the argument count completes too, it goes on with the arguments. -/
theorem popState_of_count (hsize : pop (s.setReg .sp (s.getReg .fp)) = .ok size s1)
    (hregs : popRegs frameRegs.reverse (s1.setFs size) = .ok () s2) (hcount : pop s2 = .ok n s3) :
    popState s = (popDiscard n.toNat s3).andThen fun _ t => .ok () (t.setReg .fp (s.getReg .fp + size)) := by
  rw [popState_of_regs hsize hregs, hcount, Result.andThen_ok]

end

/-- A return whose words can all be read: every pop is made, then `fp` is set (R123). -/
theorem popState_completes {s : State} {w : Nat → Word}
    (hframe : ∀ j < 11, s.wordRead (wordAbove (s.getReg .fp) j) = .ok (w j))
    (hargs : ∀ j < (w 10).toNat, ∃ x, s.wordRead (wordAbove (s.getReg .fp) (11 + j)) = .ok x) :
    ∃ u, PoppedFrame s w (11 + (w 10).toNat) u ∧ popState s = .ok () (u.setReg .fp (s.getReg .fp + w 0)) := by
  obtain ⟨s1, hsize, h1⟩ := (poppedFrame_zero s w).pop_size (hframe 0 (by omega))
  obtain ⟨s2, hregs, h2⟩ := h1.popRegs_take (n := 9) le_rfl fun i hi => hframe (i + 1) (by omega)
  obtain ⟨s3, hcount, h3⟩ := h2.pop_past_regs le_rfl (hframe 10 (by omega))
  obtain ⟨u, hdiscard, hu⟩ := h3.popDiscard_args (by omega) hargs
  refine ⟨u, hu, ?_⟩
  rw [popState_of_count hsize hregs hcount, hdiscard, Result.andThen_ok]

/-- A return whose `j`-th pop is the first that cannot read raises there: at the frame size, at a register, at the
argument count or at an argument (R123, R135). -/
theorem popState_raises {s : State} {w : Nat → Word} {j : Nat} {f : Fault} (hj : j < 11 + (w 10).toNat)
    (hbefore : ∀ i < j, s.wordRead (wordAbove (s.getReg .fp) i) = .ok (w i))
    (hf : WordFaults s (wordAbove (s.getReg .fp) j) f) :
    ∃ u, PoppedFrame s w j u ∧ popState s = .raised f (u.setReg .sp (wordAbove (s.getReg .fp) j)) := by
  have h0 := poppedFrame_zero s w
  rcases Nat.eq_zero_or_pos j with rfl | hpos
  · refine ⟨_, h0, ?_⟩
    simp only [popState, h0.pop_raises hf, Result.andThen_raised]
  obtain ⟨s1, hsize, h1⟩ := h0.pop_size (hbefore 0 hpos)
  by_cases hregister : j < 10
  · obtain ⟨n, rfl⟩ : ∃ n, j = n + 1 := ⟨j - 1, by omega⟩
    obtain ⟨u, hregs, hu⟩ := h1.popRegs_take (n := n) (by omega) fun i hi => hbefore (i + 1) (by omega)
    have hraise := popRegs_raises (rs := frameRegs.reverse) (show n < 9 by omega) hregs (hu.pop_raises hf)
    exact ⟨u, hu, by rw [popState_of_size hsize, hraise, Result.andThen_raised]⟩
  obtain ⟨s2, hregs, h2⟩ := h1.popRegs_take (n := 9) le_rfl fun i hi => hbefore (i + 1) (by omega)
  obtain rfl | hargument : j = 10 ∨ 11 ≤ j := by omega
  · exact ⟨s2, h2, by rw [popState_of_regs hsize hregs, h2.pop_raises hf, Result.andThen_raised]⟩
  obtain ⟨s3, hcount, h3⟩ := h2.pop_past_regs le_rfl (hbefore 10 (by omega))
  obtain ⟨n, rfl⟩ := Nat.exists_eq_add_of_le hargument
  obtain ⟨u, hdiscard, hu⟩ := h3.popDiscard_args (n := n) (by omega) fun i hi =>
    ⟨w (11 + i), hbefore (11 + i) (by omega)⟩
  have hraise := popDiscard_raises (m := (w 10).toNat) (by omega) hdiscard (hu.pop_raises hf)
  exact ⟨u, hu, by rw [popState_of_count hsize hregs hcount, hraise, Result.andThen_raised]⟩

/-- Settles O50: every pop of the return completes, and only `fp` is written after them. -/
theorem returnRestoresFrame : Obligations.ReturnRestoresFrame := by
  intro s w hframe hargs
  obtain ⟨u, hu, hret⟩ := popState_completes hframe hargs
  obtain ⟨hstatus, hcfg, hregions, hstarted, hout, -⟩ := hu.same
  have hreg {i : Nat} {r : Reg} (hr : frameRegs.reverse[i]? = some r) :
      (u.setReg .fp (s.getReg .fp + w 0)).getReg r = w (i + 1) := by
    obtain ⟨-, hfp, -⟩ := frameReg_ne hr
    rw [State.getReg_setReg_other _ _ hfp, hu.reg_restored (by omega) hr]
  have hfs : u.fs = w 0 - BitVec.ofNat 16 (2 * (10 + (w 10).toNat)) := by
    rw [hu.fs_of_pos (by omega), show 11 + (w 10).toNat - 1 = 10 + (w 10).toNat by omega]
  exact ⟨_, (exec_ret s).trans (congrArg Result.finish hret), hreg (i := 0) rfl, hreg (i := 1) rfl, hreg (i := 2) rfl,
    hreg (i := 3) rfl, hreg (i := 4) rfl, hreg (i := 5) rfl, hreg (i := 6) rfl, hreg (i := 7) rfl, hreg (i := 8) rfl,
    hu.sp, State.getReg_setReg_same .., hfs, hu.acc, hstatus, hcfg, hregions, hstarted, hout, hu.same.byteRead⟩

/-- Settles O51: the return raises with the pops before the `j`-th made, and the `j`-th has moved `sp` alone. -/
theorem faultingReturnKeepsCompletedPops : Obligations.FaultingReturnKeepsCompletedPops := by
  intro s w j f hj hbefore hf
  obtain ⟨u, hu, hret⟩ := popState_raises hj hbefore hf
  obtain ⟨-, hcfg, hregions, hstarted, hout, -⟩ := hu.same
  refine ⟨_, (exec_ret s).trans (congrArg Result.finish hret), rfl, State.getReg_setReg_same u .sp _, hu.fp, hu.acc,
    fun hj0 => ?_, hu.fs_of_pos, fun i r hr => ?_, hcfg, hregions, hstarted, hout, hu.same.byteRead⟩
  · exact hu.fs.trans (if_pos hj0)
  · have hfree : r ≠ .sp := (frameReg_ne hr).1
    rw [State.takeFault_getReg, State.getReg_setReg_other _ _ hfree, hu.reg i r hr]
    exact ⟨fun hi => if_pos hi, fun hi => if_neg (by omega)⟩

/-! ## A call and the return of its callee -/

/-- Which words can be read depends on the map alone. -/
theorem State.wordRead_readable_congr {s t : State} (h : t.regions = s.regions) {a : Word}
    (hs : ∃ x, s.wordRead a = .ok x) : ∃ x, t.wordRead a = .ok x := by
  obtain ⟨x, hx⟩ := hs
  cases ht : t.wordRead a with
  | ok y => exact ⟨y, rfl⟩
  | error f =>
    have hfault := (wordFaults_congr h).1 (State.wordRead_eq_error_iff.1 ht)
    rw [State.wordRead_of_faults hfault] at hx
    cases hx

/-- The eleven words that a return reads above `fp` after a call from `s` onto `n` arguments (R123, R124). -/
def calleeWords (s : State) (n : Word) (j : Nat) : Word := ((callWords s).reverse ++ [n]).getD j 0

/-- A call onto storage leaves its frame, the argument count below it and the arguments where its return reads them. -/
theorem callTo_calleeWords {s : State} (hm : Memory.wf s.mem)
    (hstorage : ∀ j < 10, WordInStorage s (frameSlot s j)) {n : Word}
    (hcount : s.wordRead (wordAbove (s.getReg .sp) 0) = .ok n) (target : Word) :
    ∃ c, callTo target s = .ok () c ∧ CallRegisters s target c ∧
      (∀ j < 11, c.wordRead (wordAbove (c.getReg .fp) j) = .ok (calleeWords s n j)) ∧
      ∀ j, (∃ x, s.wordRead (wordAbove (s.getReg .sp) (j + 1)) = .ok x) →
        ∃ x, c.wordRead (wordAbove (c.getReg .fp) (11 + j)) = .ok x := by
  obtain ⟨c, hcall, hregs, hframe, -, -, hwords⟩ := callTo_storage hm hstorage target
  have ⟨_, _, hfp, _, _, _, _, hregions, _⟩ := hregs
  have habove (j : Nat) : wordAbove (c.getReg .fp) (10 + j) = wordAbove (s.getReg .sp) j := by
    have hsp : c.getReg .fp + BitVec.ofNat 16 (2 * 10) = s.getReg .sp := by rw [hfp]; exact BitVec.sub_add_cancel ..
    rw [← hsp, wordAbove_add]
  refine ⟨c, hcall, hregs, fun j hj => ?_, fun j hx => ?_⟩
  · obtain hj | rfl : j < 10 ∨ j = 10 := by omega
    · exact hframe j _ (by interval_cases j <;> rfl)
    · rw [habove 0, hwords _ fun i hi => wordAbove_sp_apart s hi]
      exact hcount
  · rw [show 11 + j = 10 + (j + 1) by omega, habove]
    exact State.wordRead_readable_congr hregions hx

/-- A return pops as many words as caller and call pushed: `N` arguments, the count and the ten of the frame (R126). -/
theorem sp_after_return (a : Word) (N : Nat) :
    a - BitVec.ofNat 16 (2 * (N + 1)) - 20 + BitVec.ofNat 16 (2 * (11 + N)) = a := by
  bv_omega

/-- Of those pops the first does not count, because the size it gives overwrites `fs`: the drift of R126. -/
theorem fs_after_return (a : Word) (N : Nat) :
    a + BitVec.ofNat 16 (2 * (N + 1)) + 20 - BitVec.ofNat 16 (2 * (10 + N)) = a + 2 := by
  bv_omega

/-- A return adds the size the call saved, which counts what `sp` had moved since the caller's frame (R126). -/
theorem fp_after_return (a b : Word) (N : Nat) :
    a - BitVec.ofNat 16 (2 * (N + 1)) - 20 + (b + BitVec.ofNat 16 (2 * (N + 1)) + 20) = a + b := by
  bv_omega

/-- Settles O52: the return reads the words that the call left, and its moves of `sp`, `fs` and `fp` undo the call's
and drop the arguments. -/
theorem callThenReturnRestoresCaller : Obligations.CallThenReturnRestoresCaller := by
  intro s c u S0 F0 N call hm hN hstorage hS0 hF0 hcount hargs hcall hexec hfp hsame
  obtain ⟨target, htarget⟩ : ∃ target, exec call s = (callTo target s).finish := by
    obtain ⟨addr, ra, rfl | rfl⟩ := hcall
    · exact ⟨addr, exec_calLit addr s⟩
    · exact ⟨s.getReg ra, exec_calReg ra s⟩
  obtain ⟨c', hcallTo, ⟨-, -, hcfp, -⟩, hframe, hreadable⟩ := callTo_calleeWords hm hstorage hcount target
  obtain rfl : c' = c := by
    rw [htarget, hcallTo, Result.finish_ok] at hexec
    exact Host.Outcome.next.inj hexec
  have hn : (calleeWords s (BitVec.ofNat 16 N) 10).toNat = N := Nat.mod_eq_of_lt hN
  obtain ⟨t, hret, hip, h8, h7, h6, h5, h4, h3, h2, h1, hsp, htfp, hfs, hacc, -⟩ :=
    returnRestoresFrame u (calleeWords s (BitVec.ofNat 16 N))
      (fun j hj => by rw [hfp, hsame j (by omega)]; exact hframe j hj)
      (fun j hj => by
        rw [hn] at hj
        rw [hfp, hsame (11 + j) (by omega)]
        exact hreadable j (hargs j hj))
  have hsize : calleeWords s (BitVec.ofNat 16 N) 0 = s.fs + 20 := rfl
  rw [hn, hfp, hcfp, hS0] at hsp
  rw [hn, hsize, hF0] at hfs
  rw [hsize, hfp, hcfp, hS0, hF0] at htfp
  refine ⟨t, hret, hip, fun r hr => ?_, ?_, ?_, ?_, hacc⟩
  · simp only [List.mem_cons, List.not_mem_nil, or_false] at hr
    rcases hr with rfl | rfl | rfl | rfl | rfl | rfl | rfl | rfl
    exacts [h1, h2, h3, h4, h5, h6, h7, h8]
  · rw [hsp, sp_after_return]
  · rw [hfs, fs_after_return]
  · rw [htfp, fp_after_return]

end Sys2Proof.Machine
end

section
/-! SUPPORT. The proofs about HLT and the halted machine: what the instruction changes (R131) and that no number of
steps moves a halted machine (R131, R144). -/

namespace Sys2Proof.Machine

open Sys2Proof.Safety

theorem stepMany_zero (s : State) : stepMany 0 s = .next s := rfl

/-- Many steps begin with a step that answers a next state. -/
theorem stepMany_succ_of_next {s t : State} (h : step s = .next t) (n : Nat) : stepMany (n + 1) s = stepMany n t := by
  simp only [stepMany, h]

/-- Once it has made a step, a halted machine is a fixed point: its mark is set, so `State.start` has no effect. -/
theorem step_of_halted_of_started {s : State} (h : s.status = .halted) (hstarted : s.started = true) :
    step s = .next s := by
  rw [step_of_halted h, State.start_of_started hstarted]

theorem stepMany_of_halted_of_started {s : State} (h : s.status = .halted) (hstarted : s.started = true) (n : Nat) :
    stepMany n s = .next s := by
  induction n with
  | zero => exact stepMany_zero s
  | succ n ih => rw [stepMany_succ_of_next (step_of_halted_of_started h hstarted), ih]

/-- Settles O7: the first step can only set the mark of a made step, and the marked machine is a fixed point. -/
theorem haltedMachineNeverChanges : Obligations.HaltedMachineNeverChanges := by
  intro s n h
  have hmarked : s.start.status = .halted := h
  refine ⟨?_, fun hstarted => stepMany_of_halted_of_started h hstarted n⟩
  rw [stepMany_succ_of_next (step_of_halted h), stepMany_of_halted_of_started hmarked s.start_started]

theorem exec_hlt (s : State) : exec .hlt s = .next (s.setStatus .halted) := rfl

/-- Settles O53: HLT writes the status alone, and no read of memory depends on it. -/
theorem hltChangesStatusOnly : Obligations.HltChangesStatusOnly := by
  intro s
  exact ⟨_, exec_hlt s, rfl, rfl, rfl, rfl, rfl, rfl, rfl, s.byteRead_setStatus .halted⟩

end Sys2Proof.Machine
end

section
/-! SUPPORT. The proofs about faults and inspection: what a step answers (R136, R137) and what `get_register` answers
for each name (R150). -/

namespace Sys2Proof.Machine

/-- Settles O6: by the run status. Only a machine that has faulted answers a fault; a fault raised in a running machine
is taken on the way to its next state. -/
theorem stepStopsOnlyAfterAFault : Obligations.StepStopsOnlyAfterAFault := by
  intro s
  cases hs : s.status with
  | running =>
    obtain ⟨t, ht⟩ := step_running_next hs
    exact .inl ⟨t, ht, nofun⟩
  | halted => exact .inl ⟨s.start, step_of_halted hs, nofun⟩
  | faulted f => exact .inr ⟨f, rfl, step_of_faulted hs⟩

/-! ## Registers by name -/

theorem getRegister_of_present {name : String} {r : Reg} {s : State} (hname : regOfName name = some r)
    (hr : r.present s.cfg.regConfig = true) : getRegister name s = .ok (s.getReg r) s := by
  simp only [getRegister, hname, hr, if_true]

/-- A name of no register that the Register File has is fatal to a running machine (R150). -/
theorem getRegister_of_absent {name : String} {s : State}
    (habsent : ∀ r, regOfName name = some r → r.present s.cfg.regConfig = false) (hrun : s.status = .running) :
    getRegister name s = .raised (.unknownRegister name) (s.setStatus (.faulted (.unknownRegister name))) := by
  cases hname : regOfName name with
  | none => simp only [getRegister, hname, inspectFault_of_running hrun]
  | some r => simp [getRegister, hname, habsent r hname, inspectFault_of_running hrun]

/-- A full Register File has every register (R13). -/
theorem present_of_full {rc : RegConfig} (h : rc = .full) (r : Reg) : r.present rc = true := by
  subst h
  cases r <;> rfl

/-- A reduced Register File has neither `sp` nor `fp` (R20). -/
theorem not_present_of_reduced {rc : RegConfig} {r : Reg} (h : rc = .reduced) (hr : r = .sp ∨ r = .fp) :
    r.present rc = false := by
  subst h
  rcases hr with rfl | rfl <;> rfl

/-- The twelve names are the only ones that stand for a register: any other falls through to the last case. -/
theorem regOfName_eq_none {name : String}
    (h : name ∉ ["ip", "acc", "r1", "r2", "r3", "r4", "r5", "r6", "r7", "r8", "sp", "fp"]) :
    regOfName name = none := by
  unfold regOfName
  split <;> simp_all

/-- Settles O58: the ten names that every Register File has, the two that only a full one has, and all others. -/
theorem getRegisterReadsByName : Obligations.GetRegisterReadsByName := by
  intro s
  refine ⟨fun p hp => ?named, fun hfull => ⟨?sp, ?fp⟩, fun name hunknown hrun => getRegister_of_absent ?absent hrun⟩
  case named =>
    simp only [List.mem_cons, List.not_mem_nil, or_false] at hp
    rcases hp with rfl | rfl | rfl | rfl | rfl | rfl | rfl | rfl | rfl | rfl <;> exact getRegister_of_present rfl rfl
  case sp => exact getRegister_of_present rfl (present_of_full hfull .sp)
  case fp => exact getRegister_of_present rfl (present_of_full hfull .fp)
  case absent =>
    rcases hunknown with hname | ⟨hreduced, rfl | rfl⟩
    · simp [regOfName_eq_none hname]
    · rintro _ ⟨⟩
      exact not_present_of_reduced hreduced (.inl rfl)
    · rintro _ ⟨⟩
      exact not_present_of_reduced hreduced (.inr rfl)

end Sys2Proof.Machine
end
